-- ==== Sys2Proof/Word.lean ====
section
/-! DEFINITION. The value types of the Sensor Controller: 16-bit words and 8-bit bytes (R5, R8). -/

namespace Sys2Proof

/-- A register value, a memory word, an I/O word or an address: 16 bits (R8). -/
abbrev Word := BitVec 16

/-- Half of a word: the value of a `pfix` operand (R30), and the unit memory is listed in. -/
abbrev Byte := BitVec 8

end Sys2Proof
end

