-- ==== Sys2Proof/Syntax.lean ====
section
/-! DEFINITION. The instructions of the Sensor Controller: one constructor per row of the opcode table. -/

namespace Sys2Proof

/-- The general registers R0 to R7 (R20). -/
inductive Reg where
  | r0 | r1 | r2 | r3 | r4 | r5 | r6 | r7
  deriving DecidableEq, Repr

/-- An instruction. Fields hold the bits of the encoding (R81): `d` and `s` registers, `addr`, `imm` and `simm` as
unextended fields, `rel` the signed offset's eight bits, `ev` an event number, `bit` an I/O bit number. -/
inductive Instr where
  /-- `ld Rd, [#addr]` (R120). -/
  | ldDirect (d : Reg) (addr : BitVec 10)
  /-- `ld Rd, [Rs]` (R121). -/
  | ldInd (d s : Reg)
  /-- `ld Rd, [Rs++]` (R122). -/
  | ldPostInc (d s : Reg)
  /-- `ld Rd, [Rs+R0]` (R123). -/
  | ldIndexed (d s : Reg)
  /-- `st Rd, [#addr]` (R124). -/
  | stDirect (d : Reg) (addr : BitVec 10)
  /-- `st Rd, [Rs]` (R125). -/
  | stInd (d s : Reg)
  /-- `st Rd, [Rs++]` (R126). -/
  | stPostInc (d s : Reg)
  /-- `st Rd, [Rs+R0]` (R127). -/
  | stIndexed (d s : Reg)
  /-- `in Rd, [#addr]` (R130). -/
  | inDirect (d : Reg) (addr : BitVec 8)
  /-- `in Rd, [Rs]` (R131). -/
  | inInd (d s : Reg)
  /-- `out Rd, [#addr]` (R132). -/
  | outDirect (d : Reg) (addr : BitVec 8)
  /-- `out Rd, [Rs]` (R133). -/
  | outInd (d s : Reg)
  /-- `iobclr #imm, [#addr]` (R135). -/
  | iobclr (bit : BitVec 3) (addr : BitVec 8)
  /-- `iobset #imm, [#addr]` (R136). -/
  | iobset (bit : BitVec 3) (addr : BitVec 8)
  /-- `iobtst #imm, [#addr]` (R137). -/
  | iobtst (bit : BitVec 3) (addr : BitVec 8)
  /-- `ld Rd, #simm` (R140). -/
  | ldImm (d : Reg) (simm : BitVec 10)
  /-- `ld Rd, Rs` (R141). -/
  | ldReg (d s : Reg)
  /-- `and Rd, #imm` (R145). -/
  | andImm (d : Reg) (imm : BitVec 8)
  /-- `or Rd, #imm` (R146). -/
  | orImm (d : Reg) (imm : BitVec 8)
  /-- `xor Rd, #imm` (R147). -/
  | xorImm (d : Reg) (imm : BitVec 8)
  /-- `tst Rd, #imm` (R148). -/
  | tstImm (d : Reg) (imm : BitVec 8)
  /-- `and Rd, Rs` (R149). -/
  | andReg (d s : Reg)
  /-- `or Rd, Rs` (R150). -/
  | orReg (d s : Reg)
  /-- `xor Rd, Rs` (R151). -/
  | xorReg (d s : Reg)
  /-- `tst Rd, Rs` (R152). -/
  | tstReg (d s : Reg)
  /-- `inv Rd` (R153). -/
  | inv (d : Reg)
  /-- `add Rd, #simm` (R160). -/
  | addImm (d : Reg) (simm : BitVec 8)
  /-- `cmp Rd, #simm` (R161). -/
  | cmpImm (d : Reg) (simm : BitVec 8)
  /-- `sub Rd, Rs` (R162). -/
  | subReg (d s : Reg)
  /-- `add Rd, Rs` (R163). -/
  | addReg (d s : Reg)
  /-- `cmp Rd, Rs` (R164). -/
  | cmpReg (d s : Reg)
  /-- `subr Rd, Rs` (R165). -/
  | subrReg (d s : Reg)
  /-- `abs Rd` (R166). -/
  | abs (d : Reg)
  /-- `neg Rd` (R167). -/
  | neg (d : Reg)
  /-- `lsl Rd, Rs` (R176). -/
  | lslReg (d s : Reg)
  /-- `lsr Rd, Rs` (R177). -/
  | lsrReg (d s : Reg)
  /-- `asr Rd, Rs` (R178). -/
  | asrReg (d s : Reg)
  /-- `lsl Rd, #imm` (R179). -/
  | lslImm (d : Reg) (imm : BitVec 3)
  /-- `lsr Rd, #imm` (R180). -/
  | lsrImm (d : Reg) (imm : BitVec 3)
  /-- `asr Rd, #imm` (R181). -/
  | asrImm (d : Reg) (imm : BitVec 3)
  /-- `jmp addr` (R190). -/
  | jmp (addr : BitVec 10)
  /-- `jsr addr` (R191). -/
  | jsr (addr : BitVec 10)
  /-- `jmp R0` (R192). -/
  | jmpR0
  /-- `jsr R0` (R193). -/
  | jsrR0
  /-- `rts` (R194). -/
  | rts
  /-- `bra rel` (R195). -/
  | bra (rel : BitVec 8)
  /-- `bgtu rel` (R197). -/
  | bgtu (rel : BitVec 8)
  /-- `bgeu rel`, also written `biob0` (R198). -/
  | bgeu (rel : BitVec 8)
  /-- `beq rel`, also written `bz` (R199). -/
  | beq (rel : BitVec 8)
  /-- `bnovf rel` (R200). -/
  | bnovf (rel : BitVec 8)
  /-- `bpos rel` (R201). -/
  | bpos (rel : BitVec 8)
  /-- `bges rel` (R202). -/
  | bges (rel : BitVec 8)
  /-- `bgts rel` (R203). -/
  | bgts (rel : BitVec 8)
  /-- `bleu rel` (R204). -/
  | bleu (rel : BitVec 8)
  /-- `bltu rel`, also written `biob1` (R205). -/
  | bltu (rel : BitVec 8)
  /-- `bneq rel`, also written `bnz` (R206). -/
  | bneq (rel : BitVec 8)
  /-- `bovf rel` (R207). -/
  | bovf (rel : BitVec 8)
  /-- `bneg rel` (R208). -/
  | bneg (rel : BitVec 8)
  /-- `blts rel` (R209). -/
  | blts (rel : BitVec 8)
  /-- `bles rel` (R210). -/
  | bles (rel : BitVec 8)
  /-- `bev0 #ev, rel` (R211). -/
  | bev0 (ev : BitVec 3) (rel : BitVec 8)
  /-- `bev1 #ev, rel` (R212). -/
  | bev1 (ev : BitVec 3) (rel : BitVec 8)
  /-- `loop R1, rel` (R220). -/
  | loopR1 (rel : BitVec 8)
  /-- `loop #n, rel`, with `nnn` the field that selects `n` (R221). -/
  | loopImm (nnn : BitVec 3) (rel : BitVec 8)
  /-- `wev0 #ev` (R230). -/
  | wev0 (ev : BitVec 3)
  /-- `wev1 #ev` (R231). -/
  | wev1 (ev : BitVec 3)
  /-- `sleep` (R232). -/
  | sleep
  /-- `nop` (R240). -/
  | nop
  /-- `pfix #imm` (R241). -/
  | pfix (imm : BitVec 8)
  /-- `dw #imm` (R242): the assembler's data word. The decoder never answers it; run, it is the instruction its bits
  spell. -/
  | dw (imm : Word)
  deriving DecidableEq, Repr

end Sys2Proof
end

