-- ==== Sys2Proof/WellFormed.lean ====
section
/-! DEFINITION. Which terms of `Instr` stand for an instruction word of their own (R98, R221, R242). -/

namespace Sys2Proof

/-- `i` is an instruction with a word of its own. The three terms that are not: `loop #n` with `nnn = 000`, whose
word is `loop R1` (R221); `ld R7, R7`, whose word is `nop` (R98, R240); and `dw`, a directive and no instruction
(R242). Every other operand value has its encoding. -/
def Instr.wellFormed : Instr → Bool
  | .loopImm nnn _ => nnn != 0#3
  | .ldReg d s => !(d == .r7 && s == .r7)
  | .dw _ => false
  | .ldDirect .. | .ldInd .. | .ldPostInc .. | .ldIndexed .. | .stDirect .. | .stInd .. | .stPostInc .. |
    .stIndexed .. | .inDirect .. | .inInd .. | .outDirect .. | .outInd .. | .iobclr .. | .iobset .. | .iobtst .. |
    .ldImm .. | .andImm .. | .orImm .. | .xorImm .. | .tstImm .. | .andReg .. | .orReg .. | .xorReg .. |
    .tstReg .. | .inv .. | .addImm .. | .cmpImm .. | .subReg .. | .addReg .. | .cmpReg .. | .subrReg .. |
    .abs .. | .neg .. | .lslReg .. | .lsrReg .. | .asrReg .. | .lslImm .. | .lsrImm .. | .asrImm .. | .jmp .. |
    .jsr .. | .jmpR0 .. | .jsrR0 .. | .rts .. | .bra .. | .bgtu .. | .bgeu .. | .beq .. | .bnovf .. | .bpos .. |
    .bges .. | .bgts .. | .bleu .. | .bltu .. | .bneq .. | .bovf .. | .bneg .. | .blts .. | .bles .. | .bev0 .. |
    .bev1 .. | .loopR1 .. | .wev0 .. | .wev1 .. | .sleep .. | .nop .. | .pfix .. => true

end Sys2Proof
end

