-- ==== Sys2Proof/Decode.lean ====
section
/-! DEFINITION. The decoder, from the opcode map of R96 and R97 with the reserved words of R99 rejected by name, and
the encoder, from the formats of R82 to R89. -/

namespace Sys2Proof

/-- Why a word is no instruction. -/
inductive DecodeError where
  /-- The word stands in one of the seven blocks of R99: it matches no pattern. -/
  | reservedEncoding
  /-- The bytes given do not make one 16-bit word: every instruction is exactly one (R80). -/
  | notOneWord
  deriving DecidableEq, Repr

/-- Register number `i` is Ri (R20, R95). -/
def Reg.ofBits (b : BitVec 3) : Reg :=
  match b.toNat with
  | 0 => .r0
  | 1 => .r1
  | 2 => .r2
  | 3 => .r3
  | 4 => .r4
  | 5 => .r5
  | 6 => .r6
  | _ => .r7

/-- The number of a register, as a `ddd` or `sss` field holds it (R20, R95). -/
def Reg.bits : Reg → BitVec 3
  | .r0 => 0#3
  | .r1 => 1#3
  | .r2 => 2#3
  | .r3 => 3#3
  | .r4 => 4#3
  | .r5 => 5#3
  | .r6 => 6#3
  | .r7 => 7#3

/-- Bits `lo + n - 1` down to `lo` of an instruction word (R7: bit 0 is the least significant). -/
def field (w : Word) (lo n : Nat) : BitVec n := w.extractLsb' lo n

/-- The register that `w[14:12]` names: `Rd`. -/
def fieldD (w : Word) : Reg := Reg.ofBits (field w 12 3)

/-- The register that `w[2:0]` names: `Rs`. -/
def fieldS (w : Word) : Reg := Reg.ofBits (field w 0 3)

/-- The bit number of the `iob*` instructions, split over `w[12]` and `w[9:8]` (R84). -/
def fieldBit (w : Word) : BitVec 3 := (field w 12 1).setWidth 3 <<< 2 ||| (field w 8 2).setWidth 3

/-- The words with `w[15] = 0`: all assigned (R96). -/
def decodeLow (w : Word) : Instr :=
  match (field w 10 2).toNat with
  | 0 => .ldImm (fieldD w) (field w 0 10)
  | 2 => .ldDirect (fieldD w) (field w 0 10)
  | 3 => .stDirect (fieldD w) (field w 0 10)
  | _ =>
    match (field w 13 2).toNat with
    | 0 => if field w 12 1 = 0#1 then .jmp (field w 0 10) else .jsr (field w 0 10)
    | 1 => .iobtst (fieldBit w) (field w 0 8)
    | 2 => .iobclr (fieldBit w) (field w 0 8)
    | _ => .iobset (fieldBit w) (field w 0 8)

/-- Format R1, op5 = 10010: one register, the operation in `w[2:0]` (R86). -/
def decodeOneReg (w : Word) : Except DecodeError Instr :=
  match (field w 0 3).toNat with
  | 0 => .ok (.abs (fieldD w))
  | 1 => .ok (.neg (fieldD w))
  | 2 => .ok (.inv (fieldD w))
  | _ => .error .reservedEncoding

/-- Formats W and Z, op5 = 10110: the event waits, and the four instructions with no operand (R86). -/
def decodeWaitZero (w : Word) : Except DecodeError Instr :=
  match (field w 0 3).toNat with
  | 0 => .ok (.wev0 (field w 12 3))
  | 1 => .ok (.wev1 (field w 12 3))
  | 7 =>
    match (field w 12 3).toNat with
    | 0 => .ok .jmpR0
    | 1 => .ok .jsrR0
    | 2 => .ok .rts
    | 3 => .ok .sleep
    | _ => .error .reservedEncoding
  | _ => .error .reservedEncoding

/-- The group `w[11:8] = 1101`, by op5 = `w[7:3]` (R86); the word of `nop` comes before `ld R7, R7` (R98). -/
def decode1101 (w : Word) : Except DecodeError Instr :=
  match (field w 3 5).toNat with
  | 0 => .ok (.andReg (fieldD w) (fieldS w))
  | 1 => .ok (.orReg (fieldD w) (fieldS w))
  | 2 => .ok (.xorReg (fieldD w) (fieldS w))
  | 3 => .ok (.subReg (fieldD w) (fieldS w))
  | 4 => .ok (.addReg (fieldD w) (fieldS w))
  | 5 => .ok (.cmpReg (fieldD w) (fieldS w))
  | 6 => .ok (.tstReg (fieldD w) (fieldS w))
  | 7 => .ok (.subrReg (fieldD w) (fieldS w))
  | 8 => .ok (if fieldD w = .r7 ∧ fieldS w = .r7 then .nop else .ldReg (fieldD w) (fieldS w))
  | 16 => .ok (.lslReg (fieldD w) (fieldS w))
  | 17 => .ok (.lsrReg (fieldD w) (fieldS w))
  | 18 => decodeOneReg w
  | 19 => .ok (.asrReg (fieldD w) (fieldS w))
  | 20 => .ok (.lslImm (fieldD w) (field w 0 3))
  | 21 => .ok (.lsrImm (fieldD w) (field w 0 3))
  | 22 => decodeWaitZero w
  | 23 => .ok (.asrImm (fieldD w) (field w 0 3))
  | _ => .error .reservedEncoding

/-- Format M, `w[11:8] = 1111`: memory and I/O through a register, by op5 = `w[7:3]` (R87). -/
def decode1111 (w : Word) : Except DecodeError Instr :=
  match (field w 3 5).toNat with
  | 0 => .ok (.inInd (fieldD w) (fieldS w))
  | 1 => .ok (.ldInd (fieldD w) (fieldS w))
  | 2 => .ok (.ldPostInc (fieldD w) (fieldS w))
  | 3 => .ok (.ldIndexed (fieldD w) (fieldS w))
  | 4 => .ok (.outInd (fieldD w) (fieldS w))
  | 5 => .ok (.stInd (fieldD w) (fieldS w))
  | 6 => .ok (.stPostInc (fieldD w) (fieldS w))
  | 7 => .ok (.stIndexed (fieldD w) (fieldS w))
  | _ => .error .reservedEncoding

/-- Formats BR and P with an even condition, `w[11:8] = 0110`, by `w[14:12]`; `pfix` is condition 0000 (R88, R97). -/
def decodeBranchEven (w : Word) : Instr :=
  match (field w 12 3).toNat with
  | 0 => .pfix (field w 0 8)
  | 1 => .bgtu (field w 0 8)
  | 2 => .bgeu (field w 0 8)
  | 3 => .beq (field w 0 8)
  | 4 => .bnovf (field w 0 8)
  | 5 => .bpos (field w 0 8)
  | 6 => .bges (field w 0 8)
  | _ => .bgts (field w 0 8)

/-- Format BR with an odd condition, `w[11:8] = 1110`, by `w[14:12]`; `bra` is condition 0001 (R88, R97). -/
def decodeBranchOdd (w : Word) : Instr :=
  match (field w 12 3).toNat with
  | 0 => .bra (field w 0 8)
  | 1 => .bleu (field w 0 8)
  | 2 => .bltu (field w 0 8)
  | 3 => .bneq (field w 0 8)
  | 4 => .bovf (field w 0 8)
  | 5 => .bneg (field w 0 8)
  | 6 => .blts (field w 0 8)
  | _ => .bles (field w 0 8)

/-- The words with `w[15] = 1`, by `w[11:8]` (R97). -/
def decodeHigh (w : Word) : Except DecodeError Instr :=
  match (field w 8 4).toNat with
  | 0 => .ok (.andImm (fieldD w) (field w 0 8))
  | 1 => .ok (.bev0 (field w 12 3) (field w 0 8))
  | 2 => .ok (.orImm (fieldD w) (field w 0 8))
  | 3 => .ok (.bev1 (field w 12 3) (field w 0 8))
  | 4 => .ok (.xorImm (fieldD w) (field w 0 8))
  | 5 => .ok (if field w 12 3 = 0#3 then .loopR1 (field w 0 8) else .loopImm (field w 12 3) (field w 0 8))
  | 6 => .ok (decodeBranchEven w)
  | 7 => .error .reservedEncoding
  | 8 => .ok (.addImm (fieldD w) (field w 0 8))
  | 9 => .ok (.inDirect (fieldD w) (field w 0 8))
  | 10 => .ok (.cmpImm (fieldD w) (field w 0 8))
  | 11 => .ok (.outDirect (fieldD w) (field w 0 8))
  | 12 => .ok (.tstImm (fieldD w) (field w 0 8))
  | 13 => decode1101 w
  | 14 => .ok (decodeBranchOdd w)
  | _ => decode1111 w

/-- The instruction that a word is, or why it is none. A decoder never looks at more than one word (R80). -/
def decode (w : Word) : Except DecodeError Instr :=
  if field w 15 1 = 0#1 then .ok (decodeLow w) else decodeHigh w

/-- The bits of `f` in a word of zeros, the lowest of them at bit `lo` (R7). -/
def place {n : Nat} (f : BitVec n) (lo : Nat) : Word := f.setWidth 16 <<< lo

/-- A word from its two bytes as the model's memory lists them, the low byte at the even byte address. -/
def wordOfBytes (lo hi : Byte) : Word := place hi 8 ||| place lo 0

/-- The low byte of a word. -/
def lowByte (w : Word) : Byte := w.extractLsb' 0 8

/-- The high byte of a word. -/
def highByte (w : Word) : Byte := w.extractLsb' 8 8

/-- The decoder over bytes in the order of their byte addresses. -/
def decodeBytes : List Byte → Except DecodeError Instr
  | [lo, hi] => decode (wordOfBytes lo hi)
  | _ => .error .notOneWord

/-- The instruction that the decoder reads from a word of the opcode table given as a number of `nbits` bits. -/
def decodeTableWord (nbits w : Nat) : Option Instr :=
  if nbits ≤ 16 then
    let word : Word := BitVec.ofNat 16 (w % 2 ^ nbits)
    (decodeBytes [lowByte word, highByte word]).toOption
  else none

/-- Formats D10 and J10: `0`, a 3-bit field, op2, a 10-bit field (R82, R83). -/
def packD10 (d : BitVec 3) (op2 : BitVec 2) (f10 : BitVec 10) : Word := place d 12 ||| place op2 10 ||| place f10 0

/-- Format B: `0`, op, `imm[2]`, `01`, `imm[1:0]`, an 8-bit address (R84). -/
def packB (op : BitVec 2) (imm : BitVec 3) (addr : BitVec 8) : Word :=
  place op 13 ||| place (imm.extractLsb' 2 1) 12 ||| place 0b01#2 10 ||| place (imm.extractLsb' 0 2) 8 ||| place addr 0

/-- Formats I8, EV and L: `1`, a 3-bit field, op4, an 8-bit field (R85, R89). -/
def packI8 (d : BitVec 3) (op4 : BitVec 4) (f8 : BitVec 8) : Word :=
  place 1#1 15 ||| place d 12 ||| place op4 8 ||| place f8 0

/-- The `1101` group and format M: `1`, a 3-bit field, op4, op5, a 3-bit field (R86, R87). -/
def packM (d : BitVec 3) (op4 : BitVec 4) (op5 : BitVec 5) (s : BitVec 3) : Word :=
  place 1#1 15 ||| place d 12 ||| place op4 8 ||| place op5 3 ||| place s 0

/-- Formats BR and P: `1`, the condition, `110`, an 8-bit field (R88). -/
def packBR (cc : BitVec 4) (rel : BitVec 8) : Word :=
  place 1#1 15 ||| place cc 11 ||| place 0b110#3 8 ||| place rel 0

/-- The word of an instruction, from the formats of R82 to R89. -/
def encode : Instr → Word
  | .ldImm d simm => packD10 d.bits 0b00#2 simm
  | .ldDirect d addr => packD10 d.bits 0b10#2 addr
  | .stDirect d addr => packD10 d.bits 0b11#2 addr
  | .jmp addr => packD10 0b000#3 0b01#2 addr
  | .jsr addr => packD10 0b001#3 0b01#2 addr
  | .iobtst bit addr => packB 0b01#2 bit addr
  | .iobclr bit addr => packB 0b10#2 bit addr
  | .iobset bit addr => packB 0b11#2 bit addr
  | .andImm d imm => packI8 d.bits 0b0000#4 imm
  | .orImm d imm => packI8 d.bits 0b0010#4 imm
  | .xorImm d imm => packI8 d.bits 0b0100#4 imm
  | .addImm d simm => packI8 d.bits 0b1000#4 simm
  | .inDirect d addr => packI8 d.bits 0b1001#4 addr
  | .cmpImm d simm => packI8 d.bits 0b1010#4 simm
  | .outDirect d addr => packI8 d.bits 0b1011#4 addr
  | .tstImm d imm => packI8 d.bits 0b1100#4 imm
  | .bev0 ev rel => packI8 ev 0b0001#4 rel
  | .bev1 ev rel => packI8 ev 0b0011#4 rel
  | .loopR1 rel => packI8 0b000#3 0b0101#4 rel
  | .loopImm nnn rel => packI8 nnn 0b0101#4 rel
  | .pfix imm => packBR 0b0000#4 imm
  | .bra rel => packBR 0b0001#4 rel
  | .bgtu rel => packBR 0b0010#4 rel
  | .bleu rel => packBR 0b0011#4 rel
  | .bgeu rel => packBR 0b0100#4 rel
  | .bltu rel => packBR 0b0101#4 rel
  | .beq rel => packBR 0b0110#4 rel
  | .bneq rel => packBR 0b0111#4 rel
  | .bnovf rel => packBR 0b1000#4 rel
  | .bovf rel => packBR 0b1001#4 rel
  | .bpos rel => packBR 0b1010#4 rel
  | .bneg rel => packBR 0b1011#4 rel
  | .bges rel => packBR 0b1100#4 rel
  | .blts rel => packBR 0b1101#4 rel
  | .bgts rel => packBR 0b1110#4 rel
  | .bles rel => packBR 0b1111#4 rel
  | .andReg d s => packM d.bits 0b1101#4 0b00000#5 s.bits
  | .orReg d s => packM d.bits 0b1101#4 0b00001#5 s.bits
  | .xorReg d s => packM d.bits 0b1101#4 0b00010#5 s.bits
  | .subReg d s => packM d.bits 0b1101#4 0b00011#5 s.bits
  | .addReg d s => packM d.bits 0b1101#4 0b00100#5 s.bits
  | .cmpReg d s => packM d.bits 0b1101#4 0b00101#5 s.bits
  | .tstReg d s => packM d.bits 0b1101#4 0b00110#5 s.bits
  | .subrReg d s => packM d.bits 0b1101#4 0b00111#5 s.bits
  | .ldReg d s => packM d.bits 0b1101#4 0b01000#5 s.bits
  | .nop => 0b1111110101000111#16
  | .lslReg d s => packM d.bits 0b1101#4 0b10000#5 s.bits
  | .lsrReg d s => packM d.bits 0b1101#4 0b10001#5 s.bits
  | .asrReg d s => packM d.bits 0b1101#4 0b10011#5 s.bits
  | .abs d => packM d.bits 0b1101#4 0b10010#5 0b000#3
  | .neg d => packM d.bits 0b1101#4 0b10010#5 0b001#3
  | .inv d => packM d.bits 0b1101#4 0b10010#5 0b010#3
  | .lslImm d imm => packM d.bits 0b1101#4 0b10100#5 imm
  | .lsrImm d imm => packM d.bits 0b1101#4 0b10101#5 imm
  | .asrImm d imm => packM d.bits 0b1101#4 0b10111#5 imm
  | .wev0 ev => packM ev 0b1101#4 0b10110#5 0b000#3
  | .wev1 ev => packM ev 0b1101#4 0b10110#5 0b001#3
  | .jmpR0 => 0b1000110110110111#16
  | .jsrR0 => 0b1001110110110111#16
  | .rts => 0b1010110110110111#16
  | .sleep => 0b1011110110110111#16
  | .inInd d s => packM d.bits 0b1111#4 0b00000#5 s.bits
  | .ldInd d s => packM d.bits 0b1111#4 0b00001#5 s.bits
  | .ldPostInc d s => packM d.bits 0b1111#4 0b00010#5 s.bits
  | .ldIndexed d s => packM d.bits 0b1111#4 0b00011#5 s.bits
  | .outInd d s => packM d.bits 0b1111#4 0b00100#5 s.bits
  | .stInd d s => packM d.bits 0b1111#4 0b00101#5 s.bits
  | .stPostInc d s => packM d.bits 0b1111#4 0b00110#5 s.bits
  | .stIndexed d s => packM d.bits 0b1111#4 0b00111#5 s.bits
  | .dw imm => imm

end Sys2Proof
end

