-- ==== Sys2Proof/Config.lean ====
section
/-! DEFINITION. What a chip fixes for a whole run (R4, R6) and the free values of the model: constants with no
body, so that nothing can be proved of a value that the spec leaves open. -/

namespace Sys2Proof

/-- The device families, which differ in the parameters of R4 only. -/
inductive Family where
  /-- CC13x0/CC26x0: 2 KB of AUX RAM, 4 vectors. -/
  | cc13x0
  /-- CC13x2/CC26x2 and CC13x4/CC26x4: 4 KB of AUX RAM, 8 vectors. -/
  | cc13x2
  deriving DecidableEq, Repr

/-- `PFIX10_MODE`: how the eight bits of a pending `pfix` and a 10-bit field make 16 bits (R90, D4). -/
inductive Pfix10Mode where
  /-- The eight bits of the `pfix`, then field bits 7..0; field bits 9..8 are not used. -/
  | hi8lo8
  /-- The low six bits of the `pfix`, then all ten field bits; bits 7..6 of the `pfix` are not used. -/
  | hi6lo10
  deriving DecidableEq, Repr

/-- `NEG_ABS_CARRY`: the C flag after `neg` and `abs` (R166, R167, D13). -/
inductive NegAbsCarry where
  /-- The spec's default: the borrow of `0 - Rd`; no carry from `abs` of a non-negative value. -/
  | borrow
  /-- Any other pair of functions of the operand: the free values `Config.negCarry`, `Config.absCarryNonNeg`. -/
  | other
  deriving DecidableEq, Repr

/-- `HOST_BYTE_ORDER`: which byte of a word an agent that addresses bytes sees at the lower address (R61, D1). -/
inductive HostByteOrder where
  | lowByteFirst
  | highByteFirst
  deriving DecidableEq, Repr

/-- The parameters of R6 that a chip fixes for a run. State holds them, no instruction reads them into a register
and no step changes them, so a statement about every state is one about every chip. -/
structure Params where
  family : Family
  pfix10 : Pfix10Mode
  negAbsCarry : NegAbsCarry
  hostByteOrder : HostByteOrder
  deriving DecidableEq, Repr

/-- `RAM_BYTES` of R4. -/
def Family.ramBytes : Family → Nat
  | .cc13x0 => 2048
  | .cc13x2 => 4096

/-- `RAM_WORDS` of R4: the valid word addresses are those below it. -/
def Family.ramWords : Family → Nat
  | .cc13x0 => 1024
  | .cc13x2 => 2048

/-- `NUM_VECTORS` of R4. -/
def Family.numVectors : Family → Nat
  | .cc13x0 => 4
  | .cc13x2 => 8

/-- How many of the vectors are user-programmable (R4, R255); which numbers they are is not in the source. -/
def Family.userVectors : Family → Nat
  | .cc13x0 => 1
  | .cc13x2 => 3

/-- FREE VALUE: C after `neg`, and after `abs` of a negative operand, under `NegAbsCarry.other` (D13). -/
opaque Config.negCarry : Word → Bool

/-- FREE VALUE: C after `abs` of a non-negative operand, under `NegAbsCarry.other` (D13). -/
opaque Config.absCarryNonNeg : Word → Bool

/-- FREE VALUE: what general register number `i` holds after a `sleep` at tick `t` (R232: unwritten). -/
opaque Config.standbyReg : (t : Nat) → (i : BitVec 3) → Word

/-- FREE VALUE: what a flag (Z 0, N 1, C 2, V 3) holds after a `sleep` at tick `t` (R232: unwritten). -/
opaque Config.standbyFlag : (t : Nat) → (i : BitVec 2) → Bool

/-- FREE VALUE: the program counter between a `sleep` at tick `t` and the next wake-up (R232, U28). -/
opaque Config.standbyPc : (t : Nat) → Word

/-- FREE VALUE: the event levels at tick `t`, where State lists no input for that step (R32, D23). -/
opaque Config.events : (t : Nat) → BitVec 8

/-- FREE VALUE: the answer to an I/O access of tick `t`, `none` for unmapped, where State lists no input (R58, R59,
D16, D30). -/
opaque Config.ioAnswer : (t : Nat) → Option Word

/-- FREE VALUE: the words of AUX RAM that other agents write just before tick `t`, where State lists no input (R63,
D17). -/
opaque Config.ramWrites : (t : Nat) → List (Word × Word)

/-- FREE VALUE: whether a wake-up comes at tick `t`, and its vector, where State lists no input (R233, D20). -/
opaque Config.wake : (t : Nat) → Option (BitVec 3)

/-- FREE VALUE: what a unary operator of an assembler expression other than `~` computes (R105: the source gives no
meaning). DESIGN CHOICE (log entry 32): it always gives a value and never an assembler error. -/
opaque Config.asmUnary : String → BitVec 32 → BitVec 32

/-- FREE VALUE: what a binary operator of an assembler expression other than `&` computes (R105: the source gives no
meaning). DESIGN CHOICE (log entry 32): it always gives a value and never an assembler error, a division by zero
included. -/
opaque Config.asmBinary : String → BitVec 32 → BitVec 32 → BitVec 32

end Sys2Proof
end

