-- ==== Sys2Proof/Machine/State.lean ====
section
/-! DEFINITION. The state of the Sensor Controller as plain data (R38), with the inputs its steps take from outside,
and the state after reset (R39). -/

namespace Sys2Proof.Machine

/-- The general registers R0 to R7, 16 bits each (R20). -/
structure Regs where
  r0 : Word
  r1 : Word
  r2 : Word
  r3 : Word
  r4 : Word
  r5 : Word
  r6 : Word
  r7 : Word
  deriving DecidableEq, Repr

/-- The four status flags (R26). -/
structure Flags where
  z : Bool
  n : Bool
  c : Bool
  v : Bool
  deriving DecidableEq, Repr

/-- The run state (R33, R264). A `wev0` or `wev1` that holds is an `active` state. -/
inductive RunState where
  /-- Instructions execute. -/
  | active
  /-- Entered by `sleep`: nothing executes until a wake-up selects a vector. -/
  | standby
  deriving DecidableEq, Repr

/-- The model-level faults of R251, with these names there: what the spec's source does not define. A fault keeps no
other effect of the step and no further step is defined. Each is SAFE: the model stops where the hardware may go on. -/
inductive Fault where
  /-- `MemRange`: a fetch, load or store at a word address at or above `RAM_WORDS` (R52). Safe. -/
  | memRange
  /-- `UnwrittenRead`: a fetch or load of an AUX RAM word that has no value (R52, R258). Safe. -/
  | unwrittenRead
  /-- `FetchOfStoredWord`: a fetch of a word that an `st` wrote (R52, R68). Safe. -/
  | fetchOfStoredWord
  /-- `ReservedEncoding`: the fetched word, or the word of a `dw`, matches no pattern (R99). Safe. -/
  | reservedEncoding
  /-- `PrefixMisuse`: a `pfix` is pending and the instruction is not prefixable (R101). Safe. -/
  | prefixMisuse
  /-- `IoUnaligned`: an I/O access at an odd address at or above 256 (R56). Safe. -/
  | ioUnaligned
  /-- `IoUnmapped`: the environment answers that nothing is at the I/O address (R58, R59). Safe. -/
  | ioUnmapped
  /-- `StackOverflow`: a call with three return addresses stacked (R28). Safe. -/
  | stackOverflow
  /-- `StackUnderflow`: a return with none stacked (R28). Safe. -/
  | stackUnderflow
  /-- `LdPostIncSameReg`: `ld Rd, [Rs++]` with `d = s` (R122). Safe. -/
  | ldPostIncSameReg
  /-- `LoopCountZero`: `loop R1` with the low byte of R1 zero (R220). Safe. -/
  | loopCountZero
  /-- `LoopEndNotAfter`: a `loop` whose end is not after it (R220, R221). Safe. -/
  | loopEndNotAfter
  /-- `LoopEndFlowControl`: a Program Flow Control instruction or `pfix` at the end of an active loop (R222). Safe. -/
  | loopEndFlowControl
  /-- `SleepStackNotEmpty`: `sleep` with a return address stacked (R232). Safe. -/
  | sleepStackNotEmpty
  /-- `SleepLoopActive`: `sleep` with a loop active (R232). Safe. -/
  | sleepLoopActive
  deriving DecidableEq, Repr

/-- Why the model gives an instruction no meaning. -/
inductive Refusal where
  /-- An arm of `exec` that has no meaning yet, by its mnemonic. No arm raises it: every instruction has its meaning.
  Safe. -/
  | notModelled (mnemonic : String)
  deriving DecidableEq, Repr

/-- One access to the I/O space as the device oracle sees it: kind, address, bit or value, result (R58). -/
inductive IoEvent where
  | read16 (addr value : Word)
  | write16 (addr value : Word)
  | bitTest (addr : Word) (bit : BitVec 3) (result : Bool)
  | bitSet (addr : Word) (bit : BitVec 3)
  | bitClr (addr : Word) (bit : BitVec 3)
  deriving DecidableEq, Repr

/-- What the environment answers to an I/O access (R58). -/
inductive IoAnswer where
  /-- Nothing is at that address. -/
  | unmapped
  /-- The access is accepted; a 16-bit read gives `value`, a bit test one of its low eight bits. -/
  | mapped (value : Word)
  deriving DecidableEq, Repr

/-- What the world outside the Sensor Controller does at one step: the inputs of R38. -/
structure StepInput where
  /-- The levels of `events[0..7]` (R32). -/
  events : BitVec 8
  /-- The answer to the step's I/O access: an instruction makes at most one (R66). -/
  io : IoAnswer
  /-- The wake-up that comes in this step, if one does, and its vector number (R233). -/
  wake : Option (BitVec 3)
  /-- Words of AUX RAM that the System CPU or uDMA writes just before this step (R63, R66). -/
  ramWrites : List (Word × Word)
  deriving DecidableEq, Repr

/-- AUX RAM as the bytes that have a value: address and byte, the addresses strictly rising. The byte address is twice
the word address for the low byte and one more for the high byte; no instruction can tell (R61). -/
abbrev Memory := List Host.Cell

/-- Word addresses in strictly rising order. -/
abbrev Marks := List Nat

/-- The state of the machine (R38). -/
structure State where
  /-- R0 to R7 (R20). -/
  regs : Regs
  /-- The program counter, a word address (R23). -/
  pc : Word
  /-- Z, N, C, V (R26). -/
  flags : Flags
  /-- The program-counter stack, most recent entry first, at most three (R28). -/
  stack : List Word
  /-- The loop counter; the loop is active while it is not zero (R29). -/
  lc : BitVec 8
  /-- The address of the first instruction of the loop (R29). -/
  ls : Word
  /-- The address of the last instruction of the loop (R29). -/
  le : Word
  /-- The prefix latch (R30). -/
  pfx : Option Byte
  /-- The R0 load latch: R0 as it was before the load just executed (R31, R300). -/
  r0Prev : Option Word
  /-- Active or Standby (R33). -/
  run : RunState
  /-- The fault record (R34): written by `recordStep`, and final. -/
  fault : Option Fault
  /-- AUX RAM (R50). -/
  ram : Memory
  /-- The words marked "written by st" (R52, R68). -/
  stored : Marks
  /-- The I/O accesses made so far, the latest last (R58). -/
  ioHistory : List IoEvent
  /-- The parameters of the chip, fixed for a run (R4, R6). -/
  cfg : Params
  /-- MODEL'S OWN: what the environment does in the present step. -/
  now : StepInput
  /-- MODEL'S OWN: what the environment does in the steps to come, the next one first; after the last it is
  `freeInput`, the free values of `Config`. -/
  inputs : List StepInput
  /-- MODEL'S OWN: how many steps have been taken: the argument of the free values. -/
  tick : Nat
  deriving DecidableEq, Repr

/-- The machine right after reset (R39, R290): in Standby, the stack empty, no loop, no prefix, no R0 latch, no RAM
word with a value. DESIGN CHOICE (unsafe; log entries 1 to 4): registers, flags, `pc`, `ls` and `le`, for which R39
gives no value, are zero; the chip is a CC13x0 with the spec's default parameters. -/
def State.reset : State where
  regs := { r0 := 0, r1 := 0, r2 := 0, r3 := 0, r4 := 0, r5 := 0, r6 := 0, r7 := 0 }
  pc := 0
  flags := { z := false, n := false, c := false, v := false }
  stack := []
  lc := 0
  ls := 0
  le := 0
  pfx := none
  r0Prev := none
  run := .standby
  fault := none
  ram := []
  stored := []
  ioHistory := []
  cfg := { family := .cc13x0, pfix10 := .hi8lo8, negAbsCarry := .borrow, hostByteOrder := .lowByteFirst }
  now := { events := 0, io := .unmapped, wake := none, ramWrites := [] }
  inputs := []
  tick := 0

end Sys2Proof.Machine
end

