-- ==== Sys2Proof/Machine/Memory.lean ====
section
/-! DEFINITION. AUX RAM as a canonical list of bytes, its words, and the marks of stored words (R50 to R52, R61). -/

namespace Sys2Proof.Machine

/-- The byte at a byte address, if it has a value. -/
def Memory.read : Memory → Nat → Option Byte
  | [], _ => none
  | (b, v) :: m, a => if b = a then some v else Memory.read m a

/-- Give a byte a value, keeping the addresses in order. -/
def Memory.write : Memory → Nat → Byte → Memory
  | [], a, v => [(a, v)]
  | (b, w) :: m, a, v =>
    if a < b then (a, v) :: (b, w) :: m
    else if a = b then (a, v) :: m
    else (b, w) :: Memory.write m a v

/-- Every listed address is above `a`. -/
def Memory.above (a : Nat) (m : Memory) : Bool := m.all fun c => a < c.1

/-- The canonical form: the addresses strictly rise. An unlisted byte has no value, and no entry says so, so equal
memories are equal lists. -/
def Memory.wf : Memory → Bool
  | [] => true
  | (a, _) :: m => Memory.above a m && Memory.wf m

/-- The word at a word address, if both its bytes have a value (R51). -/
def Memory.readWord (m : Memory) (a : Nat) : Option Word :=
  match m.read (2 * a), m.read (2 * a + 1) with
  | some lo, some hi => some (wordOfBytes lo hi)
  | _, _ => none

/-- Give a word a value: one indivisible access (R51, R63). -/
def Memory.writeWord (m : Memory) (a : Nat) (v : Word) : Memory :=
  (m.write (2 * a) (lowByte v)).write (2 * a + 1) (highByte v)

/-- The byte that an agent which addresses bytes sees at byte offset `a` of AUX RAM (R61, D1): the model lists the low
byte at the even offset, which under `highByteFirst` is the odd one's place. -/
def Memory.hostByte (order : HostByteOrder) (m : Memory) (a : Nat) : Option Byte :=
  match order with
  | .lowByteFirst => m.read a
  | .highByteFirst => m.read (if a % 2 = 0 then a + 1 else a - 1)

/-- Mark a word as "written by st" (R52). -/
def Marks.add : Marks → Nat → Marks
  | [], a => [a]
  | b :: m, a => if a < b then a :: b :: m else if a = b then b :: m else b :: Marks.add m a

/-- Take the mark off a word. -/
def Marks.remove (m : Marks) (a : Nat) : Marks := m.filter (· != a)

/-- The word is marked. -/
def Marks.has (m : Marks) (a : Nat) : Bool := m.contains a

/-- The canonical form of the marks: strictly rising. -/
def Marks.wf : Marks → Bool
  | [] => true
  | a :: m => m.all (fun b => a < b) && Marks.wf m

end Sys2Proof.Machine
end

