-- ==== Sys2Proof/Machine/Ops.lean ====
section
/-! DEFINITION. The named operations of R9 over the state: registers, AUX RAM, I/O, the stack, the checks before an
instruction and the tail after it (R40), entering standby and being woken (R232, R233), and the environment's part of
a step. -/

namespace Sys2Proof.Machine

/-- What a meaning answers. -/
abbrev Result := Host.Outcome State Fault Refusal

/-- Go on with what a primitive read, or stop with the fault it raised. -/
def onOk {α : Type} (r : Except Fault α) (k : α → Result) : Result :=
  match r with
  | .ok v => k v
  | .error f => .fault f

/-! ### General registers (R20) -/

/-- `x[i]`, the register a field selects. -/
def Regs.get (x : Regs) : Reg → Word
  | .r0 => x.r0
  | .r1 => x.r1
  | .r2 => x.r2
  | .r3 => x.r3
  | .r4 => x.r4
  | .r5 => x.r5
  | .r6 => x.r6
  | .r7 => x.r7

/-- `x[i] <- v`. -/
def Regs.set (x : Regs) (r : Reg) (v : Word) : Regs :=
  match r with
  | .r0 => { x with r0 := v }
  | .r1 => { x with r1 := v }
  | .r2 => { x with r2 := v }
  | .r3 => { x with r3 := v }
  | .r4 => { x with r4 := v }
  | .r5 => { x with r5 := v }
  | .r6 => { x with r6 := v }
  | .r7 => { x with r7 := v }

/-- Read a general register: every register holds a value (log entries 1 and 5), so this never faults. -/
def State.reg (s : State) (r : Reg) : Word := s.regs.get r

/-- Write a general register. -/
def State.setReg (s : State) (r : Reg) (v : Word) : State := { s with regs := s.regs.set r v }

/-- Write the four flags. -/
def State.setFlags (s : State) (f : Flags) : State := { s with flags := f }

/-- `x0_ded`: what a dedicated use of R0 reads, the previous R0 right after a load of R0 (R31, R300). -/
def State.dedicatedR0 (s : State) : Word := s.r0Prev.getD (s.reg .r0)

/-- What a load of `d` from memory or I/O leaves in the R0 latch: R0 as it was, for a load of R0 (R31). -/
def State.loadLatch (s : State) (d : Reg) : Option Word := if d = .r0 then some (s.reg .r0) else none

/-! ### AUX RAM (R52) -/

/-- `RAM_WORDS` of this chip (R4). -/
def State.ramWords (s : State) : Nat := s.cfg.family.ramWords

/-- `MemRead` (R52): the word at a word address. -/
def State.memRead (s : State) (a : Word) : Except Fault Word :=
  if s.ramWords ≤ a.toNat then .error .memRange
  else
    match s.ram.readWord a.toNat with
    | some v => .ok v
    | none => .error .unwrittenRead

/-- The state after a word has been stored and marked as "written by st" (R52, R68). -/
def State.storeWord (s : State) (a : Word) (v : Word) : State :=
  { s with ram := s.ram.writeWord a.toNat v, stored := s.stored.add a.toNat }

/-- `MemWrite` (R52). -/
def State.memWrite (s : State) (a : Word) (v : Word) : Except Fault State :=
  if s.ramWords ≤ a.toNat then .error .memRange else .ok (s.storeWord a v)

/-- `Fetch` (R52), with its faults in the order of R252. -/
def State.fetch (s : State) : Except Fault Word :=
  if s.ramWords ≤ s.pc.toNat then .error .memRange
  else if s.stored.has s.pc.toNat then .error .fetchOfStoredWord
  else
    match s.ram.readWord s.pc.toNat with
    | some w => .ok w
    | none => .error .unwrittenRead

/-! ### I/O space (R54 to R58) -/

/-- `IoAddrOk` (R56): a register of the aliasing space 0 to 255, or an even byte address. -/
def ioAddrOk (a : Word) : Bool := decide (a.toNat ≤ 255) || !a.getLsbD 0

/-- The environment's answer to the access of this step, or the fault the access raises (R56, R58). -/
def State.ioAnswer (s : State) (a : Word) : Except Fault Word :=
  if ioAddrOk a then
    match s.now.io with
    | .mapped v => .ok v
    | .unmapped => .error .ioUnmapped
  else .error .ioUnaligned

/-- Append an access to the history (R58). -/
def State.logIo (s : State) (e : IoEvent) : State := { s with ioHistory := s.ioHistory ++ [e] }

/-- The I/O address of an access. -/
def IoEvent.addr : IoEvent → Word
  | .read16 a _ => a
  | .write16 a _ => a
  | .bitTest a _ _ => a
  | .bitSet a _ => a
  | .bitClr a _ => a

/-- What an access leaves in a plain 16-bit storage register that it names (R57). -/
def IoEvent.plainWrite (e : IoEvent) (reg : Word) : Word :=
  match e with
  | .read16 _ _ => reg
  | .write16 _ v => v
  | .bitTest _ _ _ => reg
  | .bitSet _ b => reg ||| (1#16 <<< b.toNat)
  | .bitClr _ b => reg &&& ~~~(1#16 <<< b.toNat)

/-- The value of the plain storage register at an I/O address after a history, given its value before it: the reference
behaviour of R57. The machine does not use it: what a module answers is the environment's (R58).
DESIGN CHOICE (log entry 24): every distinct address names a register of its own, whether or not an aliasing entry and a
byte address can name the same one. -/
def plainReg (history : List IoEvent) (a : Word) (init : Word) : Word :=
  history.foldl (fun r e => if e.addr = a then e.plainWrite r else r) init

/-! ### The program-counter stack (R28) -/

/-- `push`, to a depth of three. -/
def State.push (s : State) (v : Word) : Except Fault State :=
  if 3 ≤ s.stack.length then .error .stackOverflow else .ok { s with stack := v :: s.stack }

/-- `pop`: the most recent return address and the state without it. -/
def State.pop (s : State) : Except Fault (Word × State) :=
  match s.stack with
  | [] => .error .stackUnderflow
  | v :: rest => .ok (v, { s with stack := rest })

/-! ### Before and after an instruction's own rule (R40) -/

/-- What the checks before an instruction need to know of it. -/
structure InstrClass where
  /-- It has a prefixable operand: one of the 16 of R101. -/
  takesPfix : Bool
  /-- It may not stand at the end of an active loop: Program Flow Control, or `pfix` (R222). -/
  notAtLoopEnd : Bool
  deriving DecidableEq, Repr

/-- An instruction that neither takes a prefix nor is barred from the loop end. -/
def plainClass : InstrClass := { takesPfix := false, notAtLoopEnd := false }

/-- An instruction with a prefixable operand, not of Program Flow Control. -/
def prefixableClass : InstrClass := { takesPfix := true, notAtLoopEnd := false }

/-- A Program Flow Control instruction with no prefixable operand, or `pfix`. -/
def flowClass : InstrClass := { takesPfix := false, notAtLoopEnd := true }

/-- `jmp addr` and `jsr addr`: Program Flow Control with a prefixable operand. -/
def jumpClass : InstrClass := { takesPfix := true, notAtLoopEnd := true }

/-- The loop is active and the instruction at `pc` is its last one (R222). -/
def State.atLoopEnd (s : State) : Bool := s.lc != 0#8 && s.pc == s.le

/-- Items 3 and 3a of R40, in the order of R252: then the instruction's own rule. -/
def State.checked (s : State) (k : InstrClass) (body : Result) : Result :=
  if s.pfx.isSome && !k.takesPfix then .fault .prefixMisuse
  else if s.atLoopEnd && k.notAtLoopEnd then .fault .loopEndFlowControl
  else body

/-- `LoopEnd` (R222): at the end of an active loop count down, and go back to its start until the count is out. -/
def State.loopEnd (s : State) (next : Word) : State :=
  if s.atLoopEnd then { s with lc := s.lc - 1, pc := if s.lc - 1 = 0#8 then next else s.ls }
  else { s with pc := next }

/-- Item 7 of R40, the common tail, for an instruction whose writes are in `s`, whose address is still `s.pc`, and which
chose `next`. Only `pfix` leaves a prefix and only the six loads of R0 leave an R0 latch. -/
def State.retire (s : State) (next : Word) (pfx : Option Byte := none) (latch : Option Word := none) : State :=
  State.loopEnd { s with pfx := pfx, r0Prev := latch } next

/-- The default successor, `pc + 1` modulo 65536 (R24, D3). -/
def State.nextPc (s : State) : Word := s.pc + 1

/-- End an instruction that goes on to the next word. -/
def State.advance (s : State) (latch : Option Word := none) : Result := .next (s.retire s.nextPc none latch)

/-! ### Entering standby, and the wake-up: the machine's one entry mechanism (R232, R233, R255) -/

/-- What the general registers hold after standby: free values (R232, log entry 5). -/
def standbyRegs (t : Nat) : Regs where
  r0 := Config.standbyReg t 0
  r1 := Config.standbyReg t 1
  r2 := Config.standbyReg t 2
  r3 := Config.standbyReg t 3
  r4 := Config.standbyReg t 4
  r5 := Config.standbyReg t 5
  r6 := Config.standbyReg t 6
  r7 := Config.standbyReg t 7

/-- What the flags hold after standby: free values (R232, log entry 5). -/
def standbyFlags (t : Nat) : Flags where
  z := Config.standbyFlag t 0
  n := Config.standbyFlag t 1
  c := Config.standbyFlag t 2
  v := Config.standbyFlag t 3

/-- Enter standby (R232): AUX RAM is kept; registers, flags and `pc` have no defined value until written again. -/
def State.enterStandby (s : State) : State :=
  { s with
    run := .standby
    regs := standbyRegs s.tick
    flags := standbyFlags s.tick
    pc := Config.standbyPc s.tick
    pfx := none
    r0Prev := none }

/-- `Wake(v)` (R233): execution starts at `2 * v`. The law `v < NUM_VECTORS` holds by reducing `v` (log entry 9). -/
def State.wakeAt (s : State) (v : BitVec 3) : State :=
  { s with pc := BitVec.ofNat 16 (2 * (v.toNat % s.cfg.family.numVectors)), run := .active }

/-- A step in Standby: the wake-up of this step, or none and the machine waits on. -/
def State.standbyStep (s : State) : State :=
  match s.now.wake with
  | some v => s.wakeAt v
  | none => s

/-! ### The environment's part of a step (R12, R32, R58, R63, R68) -/

/-- A write of one word of AUX RAM by another agent. In Standby it is an update of the launch image and takes a mark
off; while Active it leaves the mark as it is (R68). An address outside AUX RAM names no word. -/
def State.agentWrite (s : State) (w : Word × Word) : State :=
  if s.ramWords ≤ w.1.toNat then s
  else
    { s with
      ram := s.ram.writeWord w.1.toNat w.2
      stored := if s.run = .standby then s.stored.remove w.1.toNat else s.stored }

/-- What the environment does at tick `t` when State lists nothing for it: a free value in every part, so that no law is
placed on it (R58, R63, log entry 8). -/
def freeInput (t : Nat) : StepInput where
  events := Config.events t
  io :=
    match Config.ioAnswer t with
    | some v => .mapped v
    | none => .unmapped
  wake := Config.wake t
  ramWrites := Config.ramWrites t

/-- The input of the next step: the first listed one, or the free one (log entry 8). -/
def State.nextInput (s : State) : StepInput := s.inputs.headD (freeInput s.tick)

/-- Take the next input, count the step, and let the other agents write. -/
def State.sample (s : State) : State :=
  let input := s.nextInput
  input.ramWrites.foldl State.agentWrite { s with now := input, inputs := s.inputs.tail, tick := s.tick + 1 }

/-! ### Placing an instruction for the next fetch -/

/-- `s` with the word `w` at the address the next fetch reads, readable and Active: the program is loaded from outside
(R290, R291). A `pc` outside AUX RAM is taken to vector 0, and the next step's input is listed without other agents'
writes (log entry 10). -/
def State.placeWord (s : State) (w : Word) : State :=
  let pc : Word := if s.ramWords ≤ s.pc.toNat then 0 else s.pc
  { s with
    pc := pc
    run := .active
    fault := none
    ram := s.ram.writeWord pc.toNat w
    stored := s.stored.remove pc.toNat
    inputs := { s.nextInput with ramWrites := [] } :: s.inputs.tail }

end Sys2Proof.Machine
end

