-- ==== Sys2Proof/Machine/Operands.lean ====
section
/-! DEFINITION. The operand values: immediates with and without a prefix (R90, R91), branch targets (R92), shift and
loop counts (R93, R94), effective addresses (R53). -/

namespace Sys2Proof.Machine

/-- `sext_N`: sign extension to 16 bits (R9). -/
def sext {n : Nat} (v : BitVec n) : Word := v.signExtend 16

/-- `zext_N`: zero extension to 16 bits (R9). -/
def zext {n : Nat} (v : BitVec n) : Word := v.setWidth 16

/-- A pending prefix and an 8-bit field: the prefix is the high byte (R90). -/
def join8 (p : Byte) (f : BitVec 8) : Word := place p 8 ||| place f 0

/-- A pending prefix and a 10-bit field, under `PFIX10_MODE` (R90, D4). -/
def join10 (mode : Pfix10Mode) (p : Byte) (f : BitVec 10) : Word :=
  match mode with
  | .hi8lo8 => place p 8 ||| place (f.extractLsb' 0 8) 0
  | .hi6lo10 => place (p.extractLsb' 0 6) 10 ||| place f 0

/-- `imm16(field, 8, unsigned)` (R90). -/
def State.imm8u (s : State) (f : BitVec 8) : Word :=
  match s.pfx with
  | none => zext f
  | some p => join8 p f

/-- `imm16(field, 8, signed)` (R90): a prefixed value is not sign-extended. -/
def State.imm8s (s : State) (f : BitVec 8) : Word :=
  match s.pfx with
  | none => sext f
  | some p => join8 p f

/-- `imm16(field, 10, unsigned)` (R90). -/
def State.imm10u (s : State) (f : BitVec 10) : Word :=
  match s.pfx with
  | none => zext f
  | some p => join10 s.cfg.pfix10 p f

/-- `imm16(field, 10, signed)` (R90). -/
def State.imm10s (s : State) (f : BitVec 10) : Word :=
  match s.pfx with
  | none => sext f
  | some p => join10 s.cfg.pfix10 p f

/-- The target of a taken relative branch, `pc + 1 + rel` modulo 65536 (R92). -/
def State.branchTarget (s : State) (rel : BitVec 8) : Word := s.pc + 1 + sext rel

/-- The count of an immediate shift: 1 to 8, the field 0 standing for 8 (R93). -/
def shiftCount (imm : BitVec 3) : Nat := if imm = 0#3 then 8 else imm.toNat

/-- The count of a register shift: the low four bits of Rs, 0 to 15 (R93). -/
def regShiftCount (v : Word) : Nat := (v.extractLsb' 0 4).toNat

/-- The count of `loop #n`: `2 ^ nnn` (R94, D8). -/
def loopCount (nnn : BitVec 3) : BitVec 8 := BitVec.ofNat 8 (2 ^ nnn.toNat)

/-- The count of `loop R1`: the least significant byte of R1 (R220). -/
def State.r1Count (s : State) : BitVec 8 := lowByte (s.reg .r1)

/-- The effective address of `[Rs+R0]`: the base is an ordinary read, the index the dedicated one (R53, R300). -/
def State.indexedAddr (s : State) (b : Reg) : Word := s.reg b + s.dedicatedR0

/-- `events[e]`, the level as this step samples it (R32). -/
def State.event (s : State) (e : BitVec 3) : Bool := s.now.events.getLsbD e.toNat

end Sys2Proof.Machine
end

