-- ==== Sys2Proof/Machine/Flags.lean ====
section
/-! DEFINITION. The flag helpers of R10, the arithmetic of R160 to R168, the shifts of R175, and the fourteen
conditions of R196. -/

namespace Sys2Proof.Machine

/-- The mathematical integer `i` is outside the signed 16-bit range: the V rule of R10. -/
def signedOverflow (i : Int) : Bool := decide (i < -32768 ∨ 32767 < i)

/-- `setZN` (R10) with the given C and V. -/
def flagsZN (r : Word) (c v : Bool) : Flags := { z := r == 0#16, n := r.getLsbD 15, c := c, v := v }

/-- `logicFlags` (R10): C and V cleared. -/
def logicFlags (r : Word) : Flags := flagsZN r false false

/-- The result of an addition, modulo 65536 (R10). -/
def addResult (a b : Word) : Word := BitVec.ofNat 16 (a.toNat + b.toNat)

/-- The flags of `addFlags` (R10): C is the carry out of bit 15. -/
def addFlags (a b : Word) : Flags :=
  flagsZN (addResult a b) (decide (65536 ≤ a.toNat + b.toNat)) (signedOverflow (a.toInt + b.toInt))

/-- The result of `a - b`, modulo 65536 (R10). -/
def subResult (a b : Word) : Word := BitVec.ofInt 16 ((a.toNat : Int) - (b.toNat : Int))

/-- The flags of `subFlags` (R10): C is the borrow. -/
def subFlags (a b : Word) : Flags :=
  flagsZN (subResult a b) (decide (a.toNat < b.toNat)) (signedOverflow (a.toInt - b.toInt))

/-- `negCarry` under `NEG_ABS_CARRY` (R166, R167, D13). -/
def negCarry (mode : NegAbsCarry) (a : Word) : Bool :=
  match mode with
  | .borrow => a != 0#16
  | .other => Config.negCarry a

/-- `absCarryNonNeg` under `NEG_ABS_CARRY` (R166, D13). -/
def absCarryNonNeg (mode : NegAbsCarry) (a : Word) : Bool :=
  match mode with
  | .borrow => false
  | .other => Config.absCarryNonNeg a

/-- The flags of `neg` (R167): V exactly for 0x8000, whose negation is not representable. -/
def negFlags (mode : NegAbsCarry) (a : Word) : Flags :=
  flagsZN (subResult 0 a) (negCarry mode a) (a == 0x8000#16)

/-- The result of `abs` (R166): 0x8000 stays 0x8000. -/
def absResult (a : Word) : Word := if a.getLsbD 15 then subResult 0 a else a

/-- The flags of `abs` (R166). -/
def absFlags (mode : NegAbsCarry) (a : Word) : Flags :=
  if a.getLsbD 15 then negFlags mode a else flagsZN a (absCarryNonNeg mode a) false

/-- What a shift gives: the result and the last bit shifted out (R175). -/
structure Shifted where
  result : Word
  out : Bool
  deriving DecidableEq, Repr

/-- `shl` (R175), for a count of at most 15. -/
def shl (v : Word) (k : Nat) : Shifted :=
  if k = 0 then { result := v, out := false }
  else { result := BitVec.ofNat 16 (v.toNat * 2 ^ k), out := v.getLsbD (16 - k) }

/-- `shr` (R175). -/
def shr (v : Word) (k : Nat) : Shifted :=
  if k = 0 then { result := v, out := false }
  else { result := BitVec.ofNat 16 (v.toNat / 2 ^ k), out := v.getLsbD (k - 1) }

/-- `sar` (R175): the quotient of the signed value, rounded toward minus infinity, so that the sign is preserved. -/
def sar (v : Word) (k : Nat) : Shifted :=
  if k = 0 then { result := v, out := false }
  else { result := BitVec.ofInt 16 (v.toInt / 2 ^ k), out := v.getLsbD (k - 1) }

/-- `shiftFlags` (R175): C is the last bit shifted out, 0 for a count of 0; V is cleared. -/
def shiftFlags (r : Shifted) : Flags := flagsZN r.result r.out false

/-! ### The conditions of R196, in the table's order -/

/-- gtu (R197). -/
def condGtu (f : Flags) : Bool := !f.c && !f.z
/-- geu, iob0 (R198). -/
def condGeu (f : Flags) : Bool := !f.c
/-- eq, z (R199). -/
def condEq (f : Flags) : Bool := f.z
/-- novf (R200). -/
def condNovf (f : Flags) : Bool := !f.v
/-- pos (R201). -/
def condPos (f : Flags) : Bool := !f.n
/-- ges (R202). -/
def condGes (f : Flags) : Bool := (f.n && f.v) || (!f.n && !f.v)
/-- gts (R203). -/
def condGts (f : Flags) : Bool := ((f.n && f.v) || (!f.n && !f.v)) && !f.z
/-- leu (R204). -/
def condLeu (f : Flags) : Bool := f.c || f.z
/-- ltu, iob1 (R205). -/
def condLtu (f : Flags) : Bool := f.c
/-- neq, nz (R206). -/
def condNeq (f : Flags) : Bool := !f.z
/-- ovf (R207). -/
def condOvf (f : Flags) : Bool := f.v
/-- neg (R208). -/
def condNeg (f : Flags) : Bool := f.n
/-- lts (R209). -/
def condLts (f : Flags) : Bool := (f.n && !f.v) || (!f.n && f.v)
/-- les (R210). -/
def condLes (f : Flags) : Bool := (f.n && !f.v) || (!f.n && f.v) || f.z

end Sys2Proof.Machine
end

