-- ==== Sys2Proof/Machine/Arithmetic.lean ====
section
/-! DEFINITION. Arithmetic Operations: `add`, `cmp`, `sub`, `subr`, `abs`, `neg` (R160 to R168). -/

namespace Sys2Proof.Machine

/-- Write a result to `d` with the flags that go with it. -/
def State.resultTo (s : State) (d : Reg) (r : Word) (f : Flags) : Result := ((s.setReg d r).setFlags f).advance

/-- `add Rd, #simm` (R160). -/
def execAddImm (d : Reg) (simm : BitVec 8) (st : State) : Result :=
  st.checked prefixableClass
    (st.resultTo d (addResult (st.reg d) (st.imm8s simm)) (addFlags (st.reg d) (st.imm8s simm)))

/-- `cmp Rd, #simm` (R161): the flags of `Rd - simm` only. -/
def execCmpImm (d : Reg) (simm : BitVec 8) (st : State) : Result :=
  st.checked prefixableClass (st.setFlags (subFlags (st.reg d) (st.imm8s simm))).advance

/-- `sub Rd, Rs` (R162). -/
def execSubReg (d s : Reg) (st : State) : Result :=
  st.checked plainClass (st.resultTo d (subResult (st.reg d) (st.reg s)) (subFlags (st.reg d) (st.reg s)))

/-- `add Rd, Rs` (R163). -/
def execAddReg (d s : Reg) (st : State) : Result :=
  st.checked plainClass (st.resultTo d (addResult (st.reg d) (st.reg s)) (addFlags (st.reg d) (st.reg s)))

/-- `cmp Rd, Rs` (R164): the flags of `Rd - Rs` only. -/
def execCmpReg (d s : Reg) (st : State) : Result :=
  st.checked plainClass (st.setFlags (subFlags (st.reg d) (st.reg s))).advance

/-- `subr Rd, Rs` (R165): `Rs - Rd`. -/
def execSubrReg (d s : Reg) (st : State) : Result :=
  st.checked plainClass (st.resultTo d (subResult (st.reg s) (st.reg d)) (subFlags (st.reg s) (st.reg d)))

/-- `abs Rd` (R166). -/
def execAbs (d : Reg) (st : State) : Result :=
  st.checked plainClass (st.resultTo d (absResult (st.reg d)) (absFlags st.cfg.negAbsCarry (st.reg d)))

/-- `neg Rd` (R167). -/
def execNeg (d : Reg) (st : State) : Result :=
  st.checked plainClass (st.resultTo d (subResult 0 (st.reg d)) (negFlags st.cfg.negAbsCarry (st.reg d)))

end Sys2Proof.Machine
end

