-- ==== Sys2Proof/Machine/IoAccess.lean ====
section
/-! DEFINITION. I/O Word Access and I/O Bit Access: `in`, `out`, `iobclr`, `iobset`, `iobtst` (R130 to R138). -/

namespace Sys2Proof.Machine

/-- A 16-bit read of the I/O space into `d`, arming the R0 latch when `d` is R0 (R56, R31). -/
def State.inputFrom (s : State) (d : Reg) (a : Word) : Result :=
  onOk (s.ioAnswer a) fun v => ((s.logIo (.read16 a v)).setReg d v).advance (s.loadLatch d)

/-- A 16-bit write of the I/O space (R56). -/
def State.outputTo (s : State) (a v : Word) : Result :=
  onOk (s.ioAnswer a) fun _ => (s.logIo (.write16 a v)).advance

/-- `in Rd, [#addr]` (R130). -/
def execInDirect (d : Reg) (addr : BitVec 8) (st : State) : Result :=
  st.checked prefixableClass (st.inputFrom d (st.imm8u addr))

/-- `in Rd, [Rs]` (R131). -/
def execInInd (d s : Reg) (st : State) : Result :=
  st.checked plainClass (st.inputFrom d (st.reg s))

/-- `out Rd, [#addr]` (R132). -/
def execOutDirect (d : Reg) (addr : BitVec 8) (st : State) : Result :=
  st.checked prefixableClass (st.outputTo (st.imm8u addr) (st.reg d))

/-- `out Rd, [Rs]` (R133). -/
def execOutInd (d s : Reg) (st : State) : Result :=
  st.checked plainClass (st.outputTo (st.reg s) (st.reg d))

/-- `iobclr #imm, [#addr]` (R135): a bit operation of its own kind, not a read and a write. -/
def execIobclr (bit : BitVec 3) (addr : BitVec 8) (st : State) : Result :=
  st.checked prefixableClass
    (onOk (st.ioAnswer (st.imm8u addr)) fun _ => (st.logIo (.bitClr (st.imm8u addr) bit)).advance)

/-- `iobset #imm, [#addr]` (R136). -/
def execIobset (bit : BitVec 3) (addr : BitVec 8) (st : State) : Result :=
  st.checked prefixableClass
    (onOk (st.ioAnswer (st.imm8u addr)) fun _ => (st.logIo (.bitSet (st.imm8u addr) bit)).advance)

/-- `iobtst #imm, [#addr]` (R137): C is the tested bit; Z, N and V keep their values. -/
def execIobtst (bit : BitVec 3) (addr : BitVec 8) (st : State) : Result :=
  st.checked prefixableClass
    (onOk (st.ioAnswer (st.imm8u addr)) fun v =>
      ((st.logIo (.bitTest (st.imm8u addr) bit (v.getLsbD bit.toNat))).setFlags
        { st.flags with c := v.getLsbD bit.toNat }).advance)

end Sys2Proof.Machine
end

