-- ==== Sys2Proof/Machine/Logical.lean ====
section
/-! DEFINITION. Logical Operations: `and`, `or`, `xor`, `tst`, `inv` (R145 to R154). -/

namespace Sys2Proof.Machine

/-- Write a logical result to `d`, with `logicFlags`. -/
def State.logicTo (s : State) (d : Reg) (r : Word) : Result := ((s.setReg d r).setFlags (logicFlags r)).advance

/-- `and Rd, #imm` (R145). -/
def execAndImm (d : Reg) (imm : BitVec 8) (st : State) : Result :=
  st.checked prefixableClass (st.logicTo d (st.reg d &&& st.imm8u imm))

/-- `or Rd, #imm` (R146). -/
def execOrImm (d : Reg) (imm : BitVec 8) (st : State) : Result :=
  st.checked prefixableClass (st.logicTo d (st.reg d ||| st.imm8u imm))

/-- `xor Rd, #imm` (R147). -/
def execXorImm (d : Reg) (imm : BitVec 8) (st : State) : Result :=
  st.checked prefixableClass (st.logicTo d (st.reg d ^^^ st.imm8u imm))

/-- `tst Rd, #imm` (R148): the flags only. -/
def execTstImm (d : Reg) (imm : BitVec 8) (st : State) : Result :=
  st.checked prefixableClass (st.setFlags (logicFlags (st.reg d &&& st.imm8u imm))).advance

/-- `and Rd, Rs` (R149). -/
def execAndReg (d s : Reg) (st : State) : Result :=
  st.checked plainClass (st.logicTo d (st.reg d &&& st.reg s))

/-- `or Rd, Rs` (R150). -/
def execOrReg (d s : Reg) (st : State) : Result :=
  st.checked plainClass (st.logicTo d (st.reg d ||| st.reg s))

/-- `xor Rd, Rs` (R151). -/
def execXorReg (d s : Reg) (st : State) : Result :=
  st.checked plainClass (st.logicTo d (st.reg d ^^^ st.reg s))

/-- `tst Rd, Rs` (R152): the flags only. -/
def execTstReg (d s : Reg) (st : State) : Result :=
  st.checked plainClass (st.setFlags (logicFlags (st.reg d &&& st.reg s))).advance

/-- `inv Rd` (R153). -/
def execInv (d : Reg) (st : State) : Result :=
  st.checked plainClass (st.logicTo d (~~~st.reg d))

end Sys2Proof.Machine
end

