-- ==== Sys2Proof/Machine/Loop.lean ====
section
/-! DEFINITION. Loop Flow Control: `loop` sets up the zero-overhead loop (R220 to R226); the loop-end rule is
`State.loopEnd`. -/

namespace Sys2Proof.Machine

/-- Start a loop of `n` iterations that ends at `pc + rel`, overwriting one that is active (R223). -/
def State.startLoop (s : State) (n : BitVec 8) (rel : BitVec 8) : Result :=
  if rel.toInt ≤ 0 then .fault .loopEndNotAfter
  else State.advance { s with lc := n, ls := s.nextPc, le := s.pc + sext rel }

/-- `loop R1, rel` (R220). -/
def execLoopR1 (rel : BitVec 8) (st : State) : Result :=
  st.checked plainClass
    (if st.r1Count = 0#8 then .fault .loopCountZero else st.startLoop st.r1Count rel)

/-- `loop #n, rel` (R221). -/
def execLoopImm (nnn : BitVec 3) (rel : BitVec 8) (st : State) : Result :=
  st.checked plainClass (st.startLoop (loopCount nnn) rel)

end Sys2Proof.Machine
end

