-- ==== Sys2Proof/Machine/MemoryAccess.lean ====
section
/-! DEFINITION. Memory Word Access: `ld` and `st` in their four addressing modes (R120 to R128). -/

namespace Sys2Proof.Machine

/-- Load the word at `ea` into `d`, arming the R0 latch when `d` is R0; `after` makes the mode's further register
write. The latch takes R0 as it was before the instruction (R31). -/
def State.loadFrom (s : State) (d : Reg) (ea : Word) (after : State → State) : Result :=
  onOk (s.memRead ea) fun v => (after (s.setReg d v)).advance (s.loadLatch d)

/-- Store `v` at `ea`; `after` makes the mode's further register write. -/
def State.storeTo (s : State) (ea v : Word) (after : State → State) : Result :=
  onOk (s.memWrite ea v) fun t => (after t).advance

/-- `ld Rd, [#addr]` (R120). -/
def execLdDirect (d : Reg) (addr : BitVec 10) (st : State) : Result :=
  st.checked prefixableClass (st.loadFrom d (st.imm10u addr) id)

/-- `ld Rd, [Rs]` (R121). -/
def execLdInd (d s : Reg) (st : State) : Result :=
  st.checked plainClass (st.loadFrom d (st.reg s) id)

/-- `ld Rd, [Rs++]` (R122): `d = s` is refused by the rule itself. -/
def execLdPostInc (d s : Reg) (st : State) : Result :=
  st.checked plainClass
    (if d = s then .fault .ldPostIncSameReg
    else st.loadFrom d (st.reg s) fun t => t.setReg s (st.reg s + 1))

/-- `ld Rd, [Rs+R0]` (R123): dedicated use of R0. -/
def execLdIndexed (d s : Reg) (st : State) : Result :=
  st.checked plainClass (st.loadFrom d (st.indexedAddr s) id)

/-- `st Rd, [#addr]` (R124). -/
def execStDirect (d : Reg) (addr : BitVec 10) (st : State) : Result :=
  st.checked prefixableClass (st.storeTo (st.imm10u addr) (st.reg d) id)

/-- `st Rd, [Rs]` (R125). -/
def execStInd (d s : Reg) (st : State) : Result :=
  st.checked plainClass (st.storeTo (st.reg s) (st.reg d) id)

/-- `st Rd, [Rs++]` (R126): the value stored is the one before the increment, also for `d = s`. -/
def execStPostInc (d s : Reg) (st : State) : Result :=
  st.checked plainClass (st.storeTo (st.reg s) (st.reg d) fun t => t.setReg s (st.reg s + 1))

/-- `st Rd, [Rs+R0]` (R127): dedicated use of R0 as the index only. -/
def execStIndexed (d s : Reg) (st : State) : Result :=
  st.checked plainClass (st.storeTo (st.indexedAddr s) (st.reg d) id)

end Sys2Proof.Machine
end

