-- ==== Sys2Proof/Machine/Misc.lean ====
section
/-! DEFINITION. Miscellaneous: `nop` and `pfix` (R240, R241). -/

namespace Sys2Proof.Machine

/-- `nop` (R240): nothing but the common tail. -/
def execNop (st : State) : Result :=
  st.checked plainClass st.advance

/-- `pfix #imm` (R241): the one instruction that sets the prefix latch; `flowClass` bars it from the loop end. -/
def execPfix (imm : BitVec 8) (st : State) : Result :=
  st.checked flowClass (.next (st.retire st.nextPc (some imm)))

end Sys2Proof.Machine
end

