-- ==== Sys2Proof/Machine/Power.lean ====
section
/-! DEFINITION. Power Management: `wev0`, `wev1`, `sleep` (R230 to R234). -/

namespace Sys2Proof.Machine

/-- Complete when the awaited level is there; else hold: nothing changes and the instruction is tried again (R40 item
6). -/
def State.waitFor (s : State) (reached : Bool) : Result := .next (if reached then s.retire s.nextPc else s)

/-- `wev0 #ev` (R230). -/
def execWev0 (ev : BitVec 3) (st : State) : Result :=
  st.checked plainClass (st.waitFor (!st.event ev))

/-- `wev1 #ev` (R231). -/
def execWev1 (ev : BitVec 3) (st : State) : Result :=
  st.checked plainClass (st.waitFor (st.event ev))

/-- `sleep` (R232): it takes the place of the common tail. -/
def execSleep (st : State) : Result :=
  st.checked plainClass
    (if st.stack ≠ [] then .fault .sleepStackNotEmpty
    else if st.lc ≠ 0#8 then .fault .sleepLoopActive
    else .next st.enterStandby)

end Sys2Proof.Machine
end

