-- ==== Sys2Proof/Machine/ProgramFlow.lean ====
section
/-! DEFINITION. Program Flow Control: jumps, calls, return, branches (R190 to R214). None may be the last instruction
of an active loop. -/

namespace Sys2Proof.Machine

/-- End an instruction that goes on at `t`. -/
def State.goTo (s : State) (t : Word) : Result := .next (s.retire t)

/-- Call `t`: push the address after the call (R28), then go there. -/
def State.call (s : State) (t : Word) : Result := onOk (s.push s.nextPc) fun u => u.goTo t

/-- A relative branch, taken or not (R92, R196). -/
def State.branchIf (s : State) (taken : Bool) (rel : BitVec 8) : Result :=
  s.checked flowClass (s.goTo (if taken then s.branchTarget rel else s.nextPc))

/-- `jmp addr` (R190). -/
def execJmp (addr : BitVec 10) (st : State) : Result :=
  st.checked jumpClass (st.goTo (st.imm10u addr))

/-- `jsr addr` (R191). -/
def execJsr (addr : BitVec 10) (st : State) : Result :=
  st.checked jumpClass (st.call (st.imm10u addr))

/-- `jmp R0` (R192): dedicated use of R0. -/
def execJmpR0 (st : State) : Result :=
  st.checked flowClass (st.goTo st.dedicatedR0)

/-- `jsr R0` (R193): dedicated use of R0. -/
def execJsrR0 (st : State) : Result :=
  st.checked flowClass (st.call st.dedicatedR0)

/-- `rts` (R194). -/
def execRts (st : State) : Result :=
  st.checked flowClass (onOk st.pop fun p => p.2.goTo p.1)

/-- `bra rel` (R195). -/
def execBra (rel : BitVec 8) (st : State) : Result := st.branchIf true rel

/-- `bgtu rel` (R197). -/
def execBgtu (rel : BitVec 8) (st : State) : Result := st.branchIf (condGtu st.flags) rel

/-- `bgeu rel` (R198). -/
def execBgeu (rel : BitVec 8) (st : State) : Result := st.branchIf (condGeu st.flags) rel

/-- `beq rel` (R199). -/
def execBeq (rel : BitVec 8) (st : State) : Result := st.branchIf (condEq st.flags) rel

/-- `bnovf rel` (R200). -/
def execBnovf (rel : BitVec 8) (st : State) : Result := st.branchIf (condNovf st.flags) rel

/-- `bpos rel` (R201). -/
def execBpos (rel : BitVec 8) (st : State) : Result := st.branchIf (condPos st.flags) rel

/-- `bges rel` (R202). -/
def execBges (rel : BitVec 8) (st : State) : Result := st.branchIf (condGes st.flags) rel

/-- `bgts rel` (R203). -/
def execBgts (rel : BitVec 8) (st : State) : Result := st.branchIf (condGts st.flags) rel

/-- `bleu rel` (R204). -/
def execBleu (rel : BitVec 8) (st : State) : Result := st.branchIf (condLeu st.flags) rel

/-- `bltu rel` (R205). -/
def execBltu (rel : BitVec 8) (st : State) : Result := st.branchIf (condLtu st.flags) rel

/-- `bneq rel` (R206). -/
def execBneq (rel : BitVec 8) (st : State) : Result := st.branchIf (condNeq st.flags) rel

/-- `bovf rel` (R207). -/
def execBovf (rel : BitVec 8) (st : State) : Result := st.branchIf (condOvf st.flags) rel

/-- `bneg rel` (R208). -/
def execBneg (rel : BitVec 8) (st : State) : Result := st.branchIf (condNeg st.flags) rel

/-- `blts rel` (R209). -/
def execBlts (rel : BitVec 8) (st : State) : Result := st.branchIf (condLts st.flags) rel

/-- `bles rel` (R210). -/
def execBles (rel : BitVec 8) (st : State) : Result := st.branchIf (condLes st.flags) rel

/-- `bev0 #ev, rel` (R211): taken when the event's level is 0. -/
def execBev0 (ev : BitVec 3) (rel : BitVec 8) (st : State) : Result := st.branchIf (!st.event ev) rel

/-- `bev1 #ev, rel` (R212): taken when the event's level is 1. -/
def execBev1 (ev : BitVec 3) (rel : BitVec 8) (st : State) : Result := st.branchIf (st.event ev) rel

end Sys2Proof.Machine
end

