-- ==== Sys2Proof/Machine/RegisterAccess.lean ====
section
/-! DEFINITION. Register Access: `ld Rd, #simm` and `ld Rd, Rs` (R140, R141). -/

namespace Sys2Proof.Machine

/-- `ld Rd, #simm` (R140): no flag, and no R0 latch. -/
def execLdImm (d : Reg) (simm : BitVec 10) (st : State) : Result :=
  st.checked prefixableClass (st.setReg d (st.imm10s simm)).advance

/-- `ld Rd, Rs` (R141). -/
def execLdReg (d s : Reg) (st : State) : Result :=
  st.checked plainClass (st.setReg d (st.reg s)).advance

end Sys2Proof.Machine
end

