-- ==== Sys2Proof/Machine/Shift.lean ====
section
/-! DEFINITION. Shift Operations: `lsl`, `lsr`, `asr`, by a register and by an immediate (R175 to R182). -/

namespace Sys2Proof.Machine

/-- Write a shifted value to `d`, with `shiftFlags`. -/
def State.shiftTo (s : State) (d : Reg) (r : Shifted) : Result :=
  ((s.setReg d r.result).setFlags (shiftFlags r)).advance

/-- `lsl Rd, Rs` (R176). -/
def execLslReg (d s : Reg) (st : State) : Result :=
  st.checked plainClass (st.shiftTo d (shl (st.reg d) (regShiftCount (st.reg s))))

/-- `lsr Rd, Rs` (R177). -/
def execLsrReg (d s : Reg) (st : State) : Result :=
  st.checked plainClass (st.shiftTo d (shr (st.reg d) (regShiftCount (st.reg s))))

/-- `asr Rd, Rs` (R178). -/
def execAsrReg (d s : Reg) (st : State) : Result :=
  st.checked plainClass (st.shiftTo d (sar (st.reg d) (regShiftCount (st.reg s))))

/-- `lsl Rd, #imm` (R179). -/
def execLslImm (d : Reg) (imm : BitVec 3) (st : State) : Result :=
  st.checked plainClass (st.shiftTo d (shl (st.reg d) (shiftCount imm)))

/-- `lsr Rd, #imm` (R180). -/
def execLsrImm (d : Reg) (imm : BitVec 3) (st : State) : Result :=
  st.checked plainClass (st.shiftTo d (shr (st.reg d) (shiftCount imm)))

/-- `asr Rd, #imm` (R181). -/
def execAsrImm (d : Reg) (imm : BitVec 3) (st : State) : Result :=
  st.checked plainClass (st.shiftTo d (sar (st.reg d) (shiftCount imm)))

end Sys2Proof.Machine
end

