-- ==== Sys2Proof/Machine/Directive.lean ====
section
/-! DEFINITION. The data word `dw` (R242): reached by execution, it is the instruction its bits spell. -/

namespace Sys2Proof.Machine

/-- The meaning of an instruction that the decoder answers; it never answers a `dw`. -/
def execDecoded (i : Instr) (st : State) : Result :=
  match i with
  | .ldDirect d addr => execLdDirect d addr st
  | .ldInd d s => execLdInd d s st
  | .ldPostInc d s => execLdPostInc d s st
  | .ldIndexed d s => execLdIndexed d s st
  | .stDirect d addr => execStDirect d addr st
  | .stInd d s => execStInd d s st
  | .stPostInc d s => execStPostInc d s st
  | .stIndexed d s => execStIndexed d s st
  | .inDirect d addr => execInDirect d addr st
  | .inInd d s => execInInd d s st
  | .outDirect d addr => execOutDirect d addr st
  | .outInd d s => execOutInd d s st
  | .iobclr bit addr => execIobclr bit addr st
  | .iobset bit addr => execIobset bit addr st
  | .iobtst bit addr => execIobtst bit addr st
  | .ldImm d simm => execLdImm d simm st
  | .ldReg d s => execLdReg d s st
  | .andImm d imm => execAndImm d imm st
  | .orImm d imm => execOrImm d imm st
  | .xorImm d imm => execXorImm d imm st
  | .tstImm d imm => execTstImm d imm st
  | .andReg d s => execAndReg d s st
  | .orReg d s => execOrReg d s st
  | .xorReg d s => execXorReg d s st
  | .tstReg d s => execTstReg d s st
  | .inv d => execInv d st
  | .addImm d simm => execAddImm d simm st
  | .cmpImm d simm => execCmpImm d simm st
  | .subReg d s => execSubReg d s st
  | .addReg d s => execAddReg d s st
  | .cmpReg d s => execCmpReg d s st
  | .subrReg d s => execSubrReg d s st
  | .abs d => execAbs d st
  | .neg d => execNeg d st
  | .lslReg d s => execLslReg d s st
  | .lsrReg d s => execLsrReg d s st
  | .asrReg d s => execAsrReg d s st
  | .lslImm d imm => execLslImm d imm st
  | .lsrImm d imm => execLsrImm d imm st
  | .asrImm d imm => execAsrImm d imm st
  | .jmp addr => execJmp addr st
  | .jsr addr => execJsr addr st
  | .jmpR0 => execJmpR0 st
  | .jsrR0 => execJsrR0 st
  | .rts => execRts st
  | .bra rel => execBra rel st
  | .bgtu rel => execBgtu rel st
  | .bgeu rel => execBgeu rel st
  | .beq rel => execBeq rel st
  | .bnovf rel => execBnovf rel st
  | .bpos rel => execBpos rel st
  | .bges rel => execBges rel st
  | .bgts rel => execBgts rel st
  | .bleu rel => execBleu rel st
  | .bltu rel => execBltu rel st
  | .bneq rel => execBneq rel st
  | .bovf rel => execBovf rel st
  | .bneg rel => execBneg rel st
  | .blts rel => execBlts rel st
  | .bles rel => execBles rel st
  | .bev0 ev rel => execBev0 ev rel st
  | .bev1 ev rel => execBev1 ev rel st
  | .loopR1 rel => execLoopR1 rel st
  | .loopImm nnn rel => execLoopImm nnn rel st
  | .wev0 ev => execWev0 ev st
  | .wev1 ev => execWev1 ev st
  | .sleep => execSleep st
  | .nop => execNop st
  | .pfix imm => execPfix imm st
  | .dw _ => .fault .reservedEncoding

/-- `dw #imm` (R242): "whatever instruction its bits spell is executed, or `ReservedEncoding` is raised if they spell
none". -/
def execDw (imm : Word) (st : State) : Result :=
  match decode imm with
  | .ok i => execDecoded i st
  | .error _ => .fault .reservedEncoding

end Sys2Proof.Machine
end

