-- ==== Sys2Proof/Machine/Dispatch.lean ====
section
/-! DEFINITION. The meaning of every instruction, one arm per constructor. -/

namespace Sys2Proof.Machine

def exec (i : Instr) (s : State) : Host.Outcome State Fault Refusal :=
  match i with
  | .ldDirect d addr => Sys2Proof.Machine.execLdDirect d addr s
  | .ldInd d r => Sys2Proof.Machine.execLdInd d r s
  | .ldPostInc d r => Sys2Proof.Machine.execLdPostInc d r s
  | .ldIndexed d r => Sys2Proof.Machine.execLdIndexed d r s
  | .stDirect d addr => Sys2Proof.Machine.execStDirect d addr s
  | .stInd d r => Sys2Proof.Machine.execStInd d r s
  | .stPostInc d r => Sys2Proof.Machine.execStPostInc d r s
  | .stIndexed d r => Sys2Proof.Machine.execStIndexed d r s
  | .inDirect d addr => Sys2Proof.Machine.execInDirect d addr s
  | .inInd d r => Sys2Proof.Machine.execInInd d r s
  | .outDirect d addr => Sys2Proof.Machine.execOutDirect d addr s
  | .outInd d r => Sys2Proof.Machine.execOutInd d r s
  | .iobclr bit addr => Sys2Proof.Machine.execIobclr bit addr s
  | .iobset bit addr => Sys2Proof.Machine.execIobset bit addr s
  | .iobtst bit addr => Sys2Proof.Machine.execIobtst bit addr s
  | .ldImm d simm => Sys2Proof.Machine.execLdImm d simm s
  | .ldReg d r => Sys2Proof.Machine.execLdReg d r s
  | .andImm d imm => Sys2Proof.Machine.execAndImm d imm s
  | .orImm d imm => Sys2Proof.Machine.execOrImm d imm s
  | .xorImm d imm => Sys2Proof.Machine.execXorImm d imm s
  | .tstImm d imm => Sys2Proof.Machine.execTstImm d imm s
  | .andReg d r => Sys2Proof.Machine.execAndReg d r s
  | .orReg d r => Sys2Proof.Machine.execOrReg d r s
  | .xorReg d r => Sys2Proof.Machine.execXorReg d r s
  | .tstReg d r => Sys2Proof.Machine.execTstReg d r s
  | .inv d => Sys2Proof.Machine.execInv d s
  | .addImm d simm => Sys2Proof.Machine.execAddImm d simm s
  | .cmpImm d simm => Sys2Proof.Machine.execCmpImm d simm s
  | .subReg d r => Sys2Proof.Machine.execSubReg d r s
  | .addReg d r => Sys2Proof.Machine.execAddReg d r s
  | .cmpReg d r => Sys2Proof.Machine.execCmpReg d r s
  | .subrReg d r => Sys2Proof.Machine.execSubrReg d r s
  | .abs d => Sys2Proof.Machine.execAbs d s
  | .neg d => Sys2Proof.Machine.execNeg d s
  | .lslReg d r => Sys2Proof.Machine.execLslReg d r s
  | .lsrReg d r => Sys2Proof.Machine.execLsrReg d r s
  | .asrReg d r => Sys2Proof.Machine.execAsrReg d r s
  | .lslImm d imm => Sys2Proof.Machine.execLslImm d imm s
  | .lsrImm d imm => Sys2Proof.Machine.execLsrImm d imm s
  | .asrImm d imm => Sys2Proof.Machine.execAsrImm d imm s
  | .jmp addr => Sys2Proof.Machine.execJmp addr s
  | .jsr addr => Sys2Proof.Machine.execJsr addr s
  | .jmpR0 => Sys2Proof.Machine.execJmpR0 s
  | .jsrR0 => Sys2Proof.Machine.execJsrR0 s
  | .rts => Sys2Proof.Machine.execRts s
  | .bra rel => Sys2Proof.Machine.execBra rel s
  | .bgtu rel => Sys2Proof.Machine.execBgtu rel s
  | .bgeu rel => Sys2Proof.Machine.execBgeu rel s
  | .beq rel => Sys2Proof.Machine.execBeq rel s
  | .bnovf rel => Sys2Proof.Machine.execBnovf rel s
  | .bpos rel => Sys2Proof.Machine.execBpos rel s
  | .bges rel => Sys2Proof.Machine.execBges rel s
  | .bgts rel => Sys2Proof.Machine.execBgts rel s
  | .bleu rel => Sys2Proof.Machine.execBleu rel s
  | .bltu rel => Sys2Proof.Machine.execBltu rel s
  | .bneq rel => Sys2Proof.Machine.execBneq rel s
  | .bovf rel => Sys2Proof.Machine.execBovf rel s
  | .bneg rel => Sys2Proof.Machine.execBneg rel s
  | .blts rel => Sys2Proof.Machine.execBlts rel s
  | .bles rel => Sys2Proof.Machine.execBles rel s
  | .bev0 ev rel => Sys2Proof.Machine.execBev0 ev rel s
  | .bev1 ev rel => Sys2Proof.Machine.execBev1 ev rel s
  | .loopR1 rel => Sys2Proof.Machine.execLoopR1 rel s
  | .loopImm nnn rel => Sys2Proof.Machine.execLoopImm nnn rel s
  | .wev0 ev => Sys2Proof.Machine.execWev0 ev s
  | .wev1 ev => Sys2Proof.Machine.execWev1 ev s
  | .sleep => Sys2Proof.Machine.execSleep s
  | .nop => Sys2Proof.Machine.execNop s
  | .pfix imm => Sys2Proof.Machine.execPfix imm s
  | .dw imm => Sys2Proof.Machine.execDw imm s

end Sys2Proof.Machine
end

