-- ==== Sys2Proof/Machine/Step.lean ====
section
/-! DEFINITION. One step of the machine (R40, R233), placing an instruction for the next fetch, and the step that keeps
the fault record (R34). -/

namespace Sys2Proof.Machine

/-- Fetch at `pc`, decode and run: a step that executes an instruction (R40 items 1 to 7). -/
def runFetched (s : State) : Host.Outcome State Fault Refusal :=
  match s.fetch with
  | .error k => .fault k
  | .ok w =>
    match decode w with
    | .ok i => exec i s
    | .error _ => .fault .reservedEncoding

/-- One step: none is defined once a fault is recorded (R34); else the environment's part, then a step of the
processor, which in Standby is the wait for a wake-up (R233) and else executes one instruction (R40). -/
def step (s : State) : Host.Outcome State Fault Refusal :=
  match s.fault with
  | some k => .fault k
  | none =>
    match s.sample.run with
    | .standby => .next s.sample.standbyStep
    | .active => runFetched s.sample

/-- The word `w`, given as the opcode table numbers its bits, where the next step fetches. -/
def State.withFetchWord (s : State) (nbits w : Nat) : State := s.placeWord (BitVec.ofNat 16 (w % 2 ^ nbits))

/-- The step as R40 item 5 words it: a fault is recorded in the state and nothing else of the step is kept. -/
def recordStep (s : State) : State :=
  match step s with
  | .next t => t
  | .fault k => { s with fault := some k }
  | .refused _ => s

end Sys2Proof.Machine
end

