-- ==== Sys2Proof/Machine/Assembler.lean ====
section
/-! DEFINITION. The assembler as far as the source describes it (R102 to R110): operand ranges, the automatic prefix,
label arithmetic, expressions, the written form of an instruction, and the launch image. No step of the machine uses
it. -/

namespace Sys2Proof.Machine

/-- Why the assembler places nothing. -/
inductive AsmError where
  /-- "Immediate value out of range" (R106). -/
  | outOfRange
  /-- An operand that names a label with no value. -/
  | noValue
  /-- A line that is no statement of R102, R103 and R109. -/
  | notAStatement
  /-- The sizes of the statements do not settle: one that needed a prefix no longer does (log entry 31). -/
  | unsettled
  deriving DecidableEq, Repr

/-- A prefixable operand's field: its width and whether an unprefixed value is sign-extended (R91). -/
inductive OperandKind where
  | unsigned10 | signed10 | unsigned8 | signed8
  deriving DecidableEq, Repr

/-- The values an unprefixed field holds (R91, D28). -/
def OperandKind.fits (k : OperandKind) (v : Int) : Bool :=
  match k with
  | .unsigned10 => decide (0 ≤ v ∧ v ≤ 1023)
  | .signed10 => decide (-512 ≤ v ∧ v ≤ 511)
  | .unsigned8 => decide (0 ≤ v ∧ v ≤ 255)
  | .signed8 => decide (-128 ≤ v ∧ v ≤ 127)

/-- The values the assembler takes with or without a prefix (R106, D28). -/
def OperandKind.inRange (k : OperandKind) (v : Int) : Bool :=
  match k with
  | .unsigned10 | .unsigned8 => decide (0 ≤ v ∧ v ≤ 65535)
  | .signed10 | .signed8 => decide (-32768 ≤ v ∧ v ≤ 32767)

/-- The sixteen prefixable instructions (R101), without the operand that a prefix extends. -/
inductive PrefixableOp where
  | ldDirect (d : Reg) | stDirect (d : Reg) | jmp | jsr | ldImm (d : Reg)
  | inDirect (d : Reg) | outDirect (d : Reg)
  | iobclr (bit : BitVec 3) | iobset (bit : BitVec 3) | iobtst (bit : BitVec 3)
  | andImm (d : Reg) | orImm (d : Reg) | xorImm (d : Reg) | tstImm (d : Reg)
  | addImm (d : Reg) | cmpImm (d : Reg)
  deriving DecidableEq, Repr

/-- The kind of the operand that a prefix extends (R91). -/
def PrefixableOp.kind : PrefixableOp → OperandKind
  | .ldDirect _ | .stDirect _ | .jmp | .jsr => .unsigned10
  | .ldImm _ => .signed10
  | .inDirect _ | .outDirect _ | .iobclr _ | .iobset _ | .iobtst _ => .unsigned8
  | .andImm _ | .orImm _ | .xorImm _ | .tstImm _ => .unsigned8
  | .addImm _ | .cmpImm _ => .signed8

/-- The operand is an 8-bit field. -/
def OperandKind.narrow : OperandKind → Bool
  | .unsigned10 | .signed10 => false
  | .unsigned8 | .signed8 => true

/-- The instruction with its operand field; an 8-bit field is the low eight bits. -/
def PrefixableOp.instr (op : PrefixableOp) (f : BitVec 10) : Instr :=
  match op with
  | .ldDirect d => .ldDirect d f
  | .stDirect d => .stDirect d f
  | .jmp => .jmp f
  | .jsr => .jsr f
  | .ldImm d => .ldImm d f
  | .inDirect d => .inDirect d (f.extractLsb' 0 8)
  | .outDirect d => .outDirect d (f.extractLsb' 0 8)
  | .iobclr b => .iobclr b (f.extractLsb' 0 8)
  | .iobset b => .iobset b (f.extractLsb' 0 8)
  | .iobtst b => .iobtst b (f.extractLsb' 0 8)
  | .andImm d => .andImm d (f.extractLsb' 0 8)
  | .orImm d => .orImm d (f.extractLsb' 0 8)
  | .xorImm d => .xorImm d (f.extractLsb' 0 8)
  | .tstImm d => .tstImm d (f.extractLsb' 0 8)
  | .addImm d => .addImm d (f.extractLsb' 0 8)
  | .cmpImm d => .cmpImm d (f.extractLsb' 0 8)

/-- The prefix byte and the field for a 16-bit operand value: R90 undone (R107). DESIGN CHOICE (log entry 31): the bits
that R90 does not use, `field[9:8]` under `HI8_LO8` and `P[7:6]` under `HI6_LO10`, are zeros; the spec does not say
what the assembler emits there. -/
def splitOperand (mode : Pfix10Mode) (k : OperandKind) (w : Word) : Byte × BitVec 10 :=
  if k.narrow || mode == .hi8lo8 then (highByte w, (lowByte w).setWidth 10)
  else ((w.extractLsb' 10 6).setWidth 8, w.extractLsb' 0 10)

/-- A prefixable statement as the assembler places it: one instruction when the operand fits the field, and else the
prefix and the instruction (R107). -/
def assemblePrefixable (mode : Pfix10Mode) (op : PrefixableOp) (v : Int) : Except AsmError (List Instr) :=
  if op.kind.fits v then .ok [op.instr (BitVec.ofInt 10 v)]
  else if op.kind.inRange v then
    let p := splitOperand mode op.kind (BitVec.ofInt 16 v)
    .ok [.pfix p.1, op.instr p.2]
  else .error .outOfRange

/-- The `rel` of a branch to `label`, or of a `loop` whose end label is `label`, at address `pc` (R106, R108, R226). -/
def asmRel (label pc : Nat) : Except AsmError (BitVec 8) :=
  let rel : Int := (label : Int) - ((pc : Int) + 1)
  if -128 ≤ rel ∧ rel ≤ 127 then .ok (BitVec.ofInt 8 rel) else .error .outOfRange

/-- A bit number or an event number, 0 to 7 (R106). -/
def asmThreeBits (v : Int) : Except AsmError (BitVec 3) :=
  if 0 ≤ v ∧ v ≤ 7 then .ok (BitVec.ofInt 3 v) else .error .outOfRange

/-- An immediate shift count, 1 to 8, with 8 as the field 0 (R93, R106). -/
def asmShiftCount (v : Int) : Except AsmError (BitVec 3) :=
  if 1 ≤ v ∧ v ≤ 8 then .ok (BitVec.ofInt 3 v) else .error .outOfRange

/-- The `nnn` of `loop #n`: n is one of 2, 4, 8, 16, 32, 64, 128 (R94, R106). -/
def asmLoopCount (n : Int) : Except AsmError (BitVec 3) :=
  match [1, 2, 3, 4, 5, 6, 7].find? (fun x : Nat => n == 2 ^ x) with
  | some x => .ok (BitVec.ofNat 3 x)
  | none => .error .outOfRange

/-! ### Labels and expressions (R104, R105) -/

/-- The full name of a label: one that starts with "/" belongs to the most recent full label (R104). DESIGN CHOICE (log
entry 32): letter case counts in a name. -/
def fullLabel (context name : String) : String := if name.startsWith "/" then context ++ name else name

/-- An expression of R105. A literal is the integer that is written, an operator is held by its symbol. -/
inductive AsmExpr where
  | label (name : String)
  | value (v : Int)
  | unary (op : String) (e : AsmExpr)
  | binary (op : String) (a b : AsmExpr)
  deriving DecidableEq, Repr

/-- The operator symbols that the grammar of R105 lists. -/
def unarySymbols : List String := ["-", "~", "!"]

/-- The operator symbols that the grammar of R105 lists. -/
def binarySymbols : List String :=
  ["<", "<=", "==", "!=", ">", ">=", "/", "*", "+", "-", "%", "|", "||", "&", "&&", "^", "<<", ">>"]

/-- What a unary operator computes: `~` inverts all 32 bits (R106), the others a free value, since the source gives none
(log entry 32). -/
def unaryValue (op : String) (x : BitVec 32) : BitVec 32 := if op = "~" then ~~~x else Config.asmUnary op x

/-- What a binary operator computes: `&` masks, bit by bit (DEDUCED from R106, log entry 32), the others a free value. -/
def binaryValue (op : String) (x y : BitVec 32) : BitVec 32 := if op = "&" then x &&& y else Config.asmBinary op x y

/-- An exact integer as a 32-bit value (R105), or an error if it is too high or too low for one: nothing is masked out
(R106). -/
def asmInt (v : Int) : Except AsmError (BitVec 32) :=
  if -2 ^ 31 ≤ v ∧ v < 2 ^ 31 then .ok (BitVec.ofInt 32 v) else .error .outOfRange

/-- The 32-bit value of an expression (R105), or its first error: a label with no value, a number out of range, an
operator that is not the grammar's. -/
def AsmExpr.eval (labels : List (String × Nat)) (context : String) : AsmExpr → Except AsmError (BitVec 32)
  | .label n =>
    match labels.lookup (fullLabel context n) with
    | some a => asmInt a
    | none => .error .noValue
  | .value v => asmInt v
  | .unary op e =>
    if op ∈ unarySymbols then (AsmExpr.eval labels context e).map (unaryValue op) else .error .notAStatement
  | .binary op a b =>
    if op ∈ binarySymbols then
      match AsmExpr.eval labels context a, AsmExpr.eval labels context b with
      | .ok x, .ok y => .ok (binaryValue op x y)
      | .error k, _ => .error k
      | .ok _, .error k => .error k
    else .error .notAStatement

/-! ### The other spellings of R109 -/

/-- `biob0 rel`. -/
def asmBiob0 (rel : BitVec 8) : Instr := .bgeu rel
/-- `biob1 rel`. -/
def asmBiob1 (rel : BitVec 8) : Instr := .bltu rel
/-- `bz rel`. -/
def asmBz (rel : BitVec 8) : Instr := .beq rel
/-- `bnz rel`. -/
def asmBnz (rel : BitVec 8) : Instr := .bneq rel

/-! ### The launch image (R110, R290) -/

/-- AUX RAM from a launch image: each word a value or unwritten, at consecutive word addresses from `a`. -/
def imageFrom : Nat → List (Option Word) → Memory
  | _, [] => []
  | a, none :: rest => imageFrom (a + 1) rest
  | a, some w :: rest => (2 * a, lowByte w) :: (2 * a + 1, highByte w) :: imageFrom (a + 1) rest

/-- `s` with AUX RAM holding a launch image from word address 0 and no word marked (R39, D22): what an agent outside
the Sensor Controller does before the first wake-up. DESIGN CHOICE (log entry 31): of an image longer than AUX RAM the
words at and above `RAM_WORDS` are dropped with no error; the spec does not say. -/
def State.launch (s : State) (image : List (Option Word)) : State :=
  { s with ram := imageFrom 0 (image.take s.ramWords), stored := [] }

end Sys2Proof.Machine
end

