-- ==== Sys2Proof/Safety.lean ====
section
/-! DEFINITION. The terms that claims about the machine use: the invariant of its states, what an instruction leaves
unchanged, the common tail as R40 and R222 word it, and the classes of instructions that rules of the spec name. -/

namespace Sys2Proof.Machine

/-! ### The invariant -/

/-- Every byte listed is one of a word of AUX RAM (R50). -/
def State.ramInRange (s : State) : Prop := ∀ c ∈ s.ram, c.1 < 2 * s.ramWords

/-- A word marked "written by st" has a value (R52). -/
def State.marksWritten (s : State) : Prop := ∀ a ∈ s.stored, (s.ram.readWord a).isSome = true

/-- In Standby the call stack is empty, no loop is active and no latch is set (R232, R233, R290). -/
def State.standbyClear (s : State) : Prop :=
  s.run = .standby → s.stack = [] ∧ s.lc = 0#8 ∧ s.pfx = none ∧ s.r0Prev = none

/-- The invariant: AUX RAM and the marks in canonical form and inside the RAM, at most three return addresses (R28),
and Standby as `sleep` leaves it. -/
structure State.Inv (s : State) : Prop where
  ramWf : Memory.wf s.ram = true
  marksWf : Marks.wf s.stored = true
  ramInRange : s.ramInRange
  marksWritten : s.marksWritten
  stackDepth : s.stack.length ≤ 3
  standbyClear : s.standbyClear

/-! ### What stays as it was -/

/-- Every general register but those of `ds` reads as before. -/
def RegsKeptBut (ds : List Reg) (s t : State) : Prop := ∀ r, r ∉ ds → t.reg r = s.reg r

/-- Every byte of AUX RAM reads as before, and every mark is as before. -/
def RamKept (s t : State) : Prop := (∀ a, t.ram.read a = s.ram.read a) ∧ ∀ a, t.stored.has a = s.stored.has a

/-- Every byte of AUX RAM but the two of the word at `ea` reads as before, and every other word's mark is as before. -/
def RamKeptBut (ea : Word) (s t : State) : Prop :=
  (∀ a, a ≠ 2 * ea.toNat → a ≠ 2 * ea.toNat + 1 → t.ram.read a = s.ram.read a) ∧
    ∀ a, a ≠ ea.toNat → t.stored.has a = s.stored.has a

/-- The call stack, the run state, the fault record, the chip's parameters and the environment's fields are as
before: what no instruction changes but calls, returns and `sleep`. -/
def RestKept (s t : State) : Prop :=
  t.stack = s.stack ∧ t.run = s.run ∧ t.fault = s.fault ∧ t.cfg = s.cfg ∧ t.now = s.now ∧ t.inputs = s.inputs ∧
    t.tick = s.tick

/-- The common tail, item 7 of R40 with R222: the prefix and R0 latches take the given values, and `pc` becomes `next`,
but at the end of an active loop `lc` counts down and `pc` goes to `ls` until the count is out. -/
def CommonTail (next : Word) (pfx : Option Byte) (latch : Option Word) (s t : State) : Prop :=
  t.pfx = pfx ∧ t.r0Prev = latch ∧ t.ls = s.ls ∧ t.le = s.le ∧
    if s.lc ≠ 0#8 ∧ s.pc = s.le then t.lc = s.lc - 1#8 ∧ t.pc = (if s.lc = 1#8 then next else s.ls)
    else t.lc = s.lc ∧ t.pc = next

/-- The flags of a 16-bit result with the given C and V (R10, R26). -/
def FlagsOf (r : Word) (c v : Bool) (t : State) : Prop :=
  t.flags.z = decide (r = 0#16) ∧ t.flags.n = r.getLsbD 15 ∧ t.flags.c = c ∧ t.flags.v = v

/-- An instruction that wrote `v` to `d` and otherwise only flags, and went on to the next word. -/
def WroteReg (d : Reg) (v : Word) (s t : State) : Prop :=
  t.reg d = v ∧ RegsKeptBut [d] s t ∧ RamKept s t ∧ t.ioHistory = s.ioHistory ∧ RestKept s t ∧
    CommonTail (s.pc + 1) none none s t

/-- An instruction that wrote nothing but flags, and went on to the next word. -/
def WroteNoReg (s t : State) : Prop :=
  RegsKeptBut [] s t ∧ RamKept s t ∧ t.ioHistory = s.ioHistory ∧ RestKept s t ∧ CommonTail (s.pc + 1) none none s t

/-- A load that put `v` in `d` (and, with `inc`, wrote those registers too): the R0 latch holds the old R0 exactly
when R0 was loaded. -/
def LoadedReg (d : Reg) (v : Word) (inc : List Reg) (s t : State) : Prop :=
  t.reg d = v ∧ RegsKeptBut (d :: inc) s t ∧ t.flags = s.flags ∧ RamKept s t ∧ RestKept s t ∧
    CommonTail (s.pc + 1) none (if d = .r0 then some (s.reg .r0) else none) s t

/-- A store of `v` at `ea` (that, with `inc`, wrote those registers too): the word reads `v` and is marked. -/
def StoredWord (ea v : Word) (inc : List Reg) (s t : State) : Prop :=
  t.ram.readWord ea.toNat = some v ∧ t.stored.has ea.toNat = true ∧ RamKeptBut ea s t ∧ RegsKeptBut inc s t ∧
    t.flags = s.flags ∧ t.ioHistory = s.ioHistory ∧ RestKept s t ∧ CommonTail (s.pc + 1) none none s t

/-- An instruction that made the I/O access `e`, wrote no register and no RAM, and went on to the next word. -/
def MadeIoAccess (e : IoEvent) (s t : State) : Prop :=
  t.ioHistory = s.ioHistory ++ [e] ∧ RegsKeptBut [] s t ∧ RamKept s t ∧ RestKept s t ∧
    CommonTail (s.pc + 1) none none s t

/-- A Program Flow Control instruction, not at the end of an active loop, that went to `target`, its stack now `st`. -/
def WentTo (target : Word) (st : List Word) (s t : State) : Prop :=
  t.pc = target ∧ t.stack = st ∧ RegsKeptBut [] s t ∧ t.flags = s.flags ∧ RamKept s t ∧
    t.ioHistory = s.ioHistory ∧ t.lc = s.lc ∧ t.ls = s.ls ∧ t.le = s.le ∧ t.pfx = none ∧ t.r0Prev = none ∧
    t.run = s.run ∧ t.fault = s.fault ∧ t.cfg = s.cfg ∧ t.now = s.now ∧ t.inputs = s.inputs ∧ t.tick = s.tick

/-- The instruction at `pc` is not the last one of an active loop. -/
abbrev NotLoopEnd (s : State) : Prop := s.lc = 0#8 ∨ s.pc ≠ s.le

/-! ### Shifts, bit by bit (R175) -/

/-- `r` and `c` are `v` shifted left by `k` and the last bit that left at bit 15. -/
def ShiftedLeft (v : Word) (k : Nat) (r : Word) (c : Bool) : Prop :=
  (∀ i < 16, r.getLsbD i = (decide (k ≤ i) && v.getLsbD (i - k))) ∧ c = (decide (k ≠ 0) && v.getLsbD (16 - k))

/-- `r` and `c` are `v` shifted right by `k`, zeros entering, and the last bit that left at bit 0. -/
def ShiftedRight (v : Word) (k : Nat) (r : Word) (c : Bool) : Prop :=
  (∀ i < 16, r.getLsbD i = v.getLsbD (i + k)) ∧ c = (decide (k ≠ 0) && v.getLsbD (k - 1))

/-- `r` and `c` are `v` shifted right by `k`, copies of bit 15 entering, and the last bit that left at bit 0. -/
def ShiftedRightSigned (v : Word) (k : Nat) (r : Word) (c : Bool) : Prop :=
  (∀ i < 16, r.getLsbD i = if i + k < 16 then v.getLsbD (i + k) else v.getLsbD 15) ∧
    c = (decide (k ≠ 0) && v.getLsbD (k - 1))

/-! ### Classes of instructions -/

/-- The general registers an instruction may write (R22). `dw` stands for whatever its word spells and `sleep` leaves
every register without a defined value: neither is in the scope of R22's list. -/
def destRegs : Instr → List Reg
  | .ldDirect d _ | .ldInd d _ | .ldIndexed d _ | .inDirect d _ | .inInd d _ | .ldImm d _ | .ldReg d _ => [d]
  | .ldPostInc d s => [d, s]
  | .stPostInc _ s => [s]
  | .andImm d _ | .orImm d _ | .xorImm d _ | .andReg d _ | .orReg d _ | .xorReg d _ | .inv d => [d]
  | .addImm d _ | .subReg d _ | .addReg d _ | .subrReg d _ | .abs d | .neg d => [d]
  | .lslReg d _ | .lsrReg d _ | .asrReg d _ | .lslImm d _ | .lsrImm d _ | .asrImm d _ => [d]
  | .stDirect .. | .stInd .. | .stIndexed .. | .outDirect .. | .outInd .. | .iobclr .. | .iobset .. | .iobtst ..
  | .tstImm .. | .tstReg .. | .cmpImm .. | .cmpReg .. | .jmp .. | .jsr .. | .jmpR0 | .jsrR0 | .rts | .bra ..
  | .bgtu .. | .bgeu .. | .beq .. | .bnovf .. | .bpos .. | .bges .. | .bgts .. | .bleu .. | .bltu .. | .bneq ..
  | .bovf .. | .bneg .. | .blts .. | .bles .. | .bev0 .. | .bev1 .. | .loopR1 .. | .loopImm .. | .wev0 .. | .wev1 ..
  | .sleep | .nop | .pfix .. | .dw .. => []

/-- What R27's table says of an instruction's flags. -/
inductive FlagRow where
  /-- `x x 0 0`: Z and N from the result, C and V cleared. -/
  | logical
  /-- `x x x x`: all four written. -/
  | arithmetic
  /-- `x x x 0`: Z, N and C written, V cleared. -/
  | shift
  /-- `- - x -`: only C written. -/
  | bitTest
  /-- `- - - -`: no flag written. -/
  | none
  deriving DecidableEq, Repr

/-- The row of R27's table that an instruction stands in. -/
def flagRow : Instr → FlagRow
  | .andImm .. | .orImm .. | .xorImm .. | .tstImm .. | .andReg .. | .orReg .. | .xorReg .. | .tstReg .. | .inv .. =>
    .logical
  | .addImm .. | .cmpImm .. | .subReg .. | .addReg .. | .cmpReg .. | .subrReg .. | .abs .. | .neg .. => .arithmetic
  | .lslReg .. | .lsrReg .. | .asrReg .. | .lslImm .. | .lsrImm .. | .asrImm .. => .shift
  | .iobtst .. => .bitTest
  | .ldDirect .. | .ldInd .. | .ldPostInc .. | .ldIndexed .. | .stDirect .. | .stInd .. | .stPostInc ..
  | .stIndexed .. | .inDirect .. | .inInd .. | .outDirect .. | .outInd .. | .iobclr .. | .iobset .. | .ldImm ..
  | .ldReg .. | .jmp .. | .jsr .. | .jmpR0 | .jsrR0 | .rts | .bra .. | .bgtu .. | .bgeu .. | .beq .. | .bnovf ..
  | .bpos .. | .bges .. | .bgts .. | .bleu .. | .bltu .. | .bneq .. | .bovf .. | .bneg .. | .blts .. | .bles ..
  | .bev0 .. | .bev1 .. | .loopR1 .. | .loopImm .. | .wev0 .. | .wev1 .. | .sleep | .nop | .pfix .. | .dw .. => .none

/-- The word of AUX RAM an instruction stores to: the address its meaning computes (R124 to R127). -/
def storeTarget (i : Instr) (s : State) : Option Word :=
  match i with
  | .stDirect _ addr => some (s.imm10u addr)
  | .stInd _ b | .stPostInc _ b => some (s.reg b)
  | .stIndexed _ b => some (s.indexedAddr b)
  | .ldDirect .. | .ldInd .. | .ldPostInc .. | .ldIndexed .. | .inDirect .. | .inInd .. | .outDirect .. | .outInd ..
  | .iobclr .. | .iobset .. | .iobtst .. | .ldImm .. | .ldReg .. | .andImm .. | .orImm .. | .xorImm .. | .tstImm ..
  | .andReg .. | .orReg .. | .xorReg .. | .tstReg .. | .inv .. | .addImm .. | .cmpImm .. | .subReg .. | .addReg ..
  | .cmpReg .. | .subrReg .. | .abs .. | .neg .. | .lslReg .. | .lsrReg .. | .asrReg .. | .lslImm .. | .lsrImm ..
  | .asrImm .. | .jmp .. | .jsr .. | .jmpR0 | .jsrR0 | .rts | .bra .. | .bgtu .. | .bgeu .. | .beq .. | .bnovf ..
  | .bpos .. | .bges .. | .bgts .. | .bleu .. | .bltu .. | .bneq .. | .bovf .. | .bneg .. | .blts .. | .bles ..
  | .bev0 .. | .bev1 .. | .loopR1 .. | .loopImm .. | .wev0 .. | .wev1 .. | .sleep | .nop | .pfix .. | .dw .. => none

/-- The instructions of Program Flow Control, which R222 bars from the end of an active loop. -/
def isFlowControl : Instr → Bool
  | .jmp .. | .jsr .. | .jmpR0 | .jsrR0 | .rts | .bra .. | .bgtu .. | .bgeu .. | .beq .. | .bnovf .. | .bpos ..
  | .bges .. | .bgts .. | .bleu .. | .bltu .. | .bneq .. | .bovf .. | .bneg .. | .blts .. | .bles .. | .bev0 ..
  | .bev1 .. => true
  | .ldDirect .. | .ldInd .. | .ldPostInc .. | .ldIndexed .. | .stDirect .. | .stInd .. | .stPostInc ..
  | .stIndexed .. | .inDirect .. | .inInd .. | .outDirect .. | .outInd .. | .iobclr .. | .iobset .. | .iobtst ..
  | .ldImm .. | .ldReg .. | .andImm .. | .orImm .. | .xorImm .. | .tstImm .. | .andReg .. | .orReg .. | .xorReg ..
  | .tstReg .. | .inv .. | .addImm .. | .cmpImm .. | .subReg .. | .addReg .. | .cmpReg .. | .subrReg .. | .abs ..
  | .neg .. | .lslReg .. | .lsrReg .. | .asrReg .. | .lslImm .. | .lsrImm .. | .asrImm .. | .loopR1 ..
  | .loopImm .. | .wev0 .. | .wev1 .. | .sleep | .nop | .pfix .. | .dw .. => false

/-- The sixteen prefixable instructions of R101. -/
def isPrefixable : Instr → Bool
  | .ldDirect .. | .stDirect .. | .inDirect .. | .outDirect .. | .iobclr .. | .iobset .. | .iobtst .. | .ldImm ..
  | .andImm .. | .orImm .. | .xorImm .. | .tstImm .. | .addImm .. | .cmpImm .. | .jmp .. | .jsr .. => true
  | .ldInd .. | .ldPostInc .. | .ldIndexed .. | .stInd .. | .stPostInc .. | .stIndexed .. | .inInd .. | .outInd ..
  | .ldReg .. | .andReg .. | .orReg .. | .xorReg .. | .tstReg .. | .inv .. | .subReg .. | .addReg .. | .cmpReg ..
  | .subrReg .. | .abs .. | .neg .. | .lslReg .. | .lsrReg .. | .asrReg .. | .lslImm .. | .lsrImm .. | .asrImm ..
  | .jmpR0 | .jsrR0 | .rts | .bra .. | .bgtu .. | .bgeu .. | .beq .. | .bnovf .. | .bpos .. | .bges .. | .bgts ..
  | .bleu .. | .bltu .. | .bneq .. | .bovf .. | .bneg .. | .blts .. | .bles .. | .bev0 .. | .bev1 .. | .loopR1 ..
  | .loopImm .. | .wev0 .. | .wev1 .. | .sleep | .nop | .pfix .. | .dw .. => false

/-- The six loaders of R0 (R31, R300). -/
def loadsR0 : Instr → Bool
  | .ldDirect d _ | .ldInd d _ | .ldPostInc d _ | .ldIndexed d _ | .inDirect d _ | .inInd d _ => d == .r0
  | .stDirect .. | .stInd .. | .stPostInc .. | .stIndexed .. | .outDirect .. | .outInd .. | .iobclr .. | .iobset ..
  | .iobtst .. | .ldImm .. | .ldReg .. | .andImm .. | .orImm .. | .xorImm .. | .tstImm .. | .andReg .. | .orReg ..
  | .xorReg .. | .tstReg .. | .inv .. | .addImm .. | .cmpImm .. | .subReg .. | .addReg .. | .cmpReg .. | .subrReg ..
  | .abs .. | .neg .. | .lslReg .. | .lsrReg .. | .asrReg .. | .lslImm .. | .lsrImm .. | .asrImm .. | .jmp ..
  | .jsr .. | .jmpR0 | .jsrR0 | .rts | .bra .. | .bgtu .. | .bgeu .. | .beq .. | .bnovf .. | .bpos .. | .bges ..
  | .bgts .. | .bleu .. | .bltu .. | .bneq .. | .bovf .. | .bneg .. | .blts .. | .bles .. | .bev0 .. | .bev1 ..
  | .loopR1 .. | .loopImm .. | .wev0 .. | .wev1 .. | .sleep | .nop | .pfix .. | .dw .. => false

/-- The instruction is a wait whose event has not the awaited level: it holds and does not complete (R230, R231). -/
def holds (i : Instr) (s : State) : Bool :=
  match i with
  | .wev0 e => s.event e
  | .wev1 e => !s.event e
  | _ => false

/-- Instructions run one after the other, stopping at the first that does not answer a next state. -/
def execList : List Instr → State → Result
  | [], s => .next s
  | i :: rest, s =>
    match exec i s with
    | .next t => execList rest t
    | .fault k => .fault k
    | .refused r => .refused r

end Sys2Proof.Machine
end

