-- ==== Sys2Proof/Certificates/Slice0/Obligations.lean ====
section
/-! DEFINITION. The statements for the provers. -/

open Sys2Proof Sys2Proof.Machine

/-! ### Encoding -/

/-- Words written out from the patterns of 30_encoding.md, one or two a format, and the instructions they are. That a
field's leftmost letter is its most significant bit, that number i is Ri, and that the bit number of `iobclr` is `w[12]`
and then `w[9:8]` are the spec's decision D7 (log entry 18). -/
def Obligations.PatternWordsDecodeToTheirInstructions : Prop :=
  decode 0b0011100100100011#16 = .ok (.ldDirect .r3 0x123#10) ∧
  decode 0b0111110001101011#16 = .ok (.stDirect .r7 0x06B#10) ∧
  decode 0b0001010000001000#16 = .ok (.jsr 0x008#10) ∧
  decode 0b0101010100110110#16 = .ok (.iobclr 5#3 0x36#8) ∧
  decode 0b1010101000000101#16 = .ok (.cmpImm .r2 5#8) ∧
  decode 0b1001110100111010#16 = .ok (.subrReg .r1 .r2) ∧
  decode 0b1101110110010000#16 = .ok (.abs .r5) ∧
  decode 0b1011110110111001#16 = .ok (.asrImm .r3 1#3) ∧
  decode 0b1101110110110001#16 = .ok (.wev1 5#3) ∧
  decode 0b1011110110110111#16 = .ok .sleep ∧
  decode 0b1100111100111101#16 = .ok (.stIndexed .r4 .r5) ∧
  decode 0b1011111000000001#16 = .ok (.bneq 1#8) ∧
  decode 0b1000011000010010#16 = .ok (.pfix 0x12#8) ∧
  decode 0b1011000111111111#16 = .ok (.bev0 3#3 0xFF#8) ∧
  decode 0b1011010100000010#16 = .ok (.loopImm 3#3 2#8) ∧
  decode 0b1111110101000111#16 = .ok .nop

/-- No bit of an encoding is dropped: every well-formed instruction, with every operand, decodes from its word. -/
def Obligations.DecodeOfEncodeIsTheInstruction : Prop :=
  ∀ i : Instr, i.wellFormed = true → decode (encode i) = .ok i

/-- Every word has at most one reading: what decodes is well-formed and encodes to the word it was read from. -/
def Obligations.EncodeOfDecodeIsTheWord : Prop :=
  ∀ (w : Word) (i : Instr), decode w = .ok i → i.wellFormed = true ∧ encode i = w

/-- The words that decode to nothing are those of the seven blocks of R99. That they raise a fault is the spec's
decision D6. -/
def Obligations.RejectedWordsAreTheReservedBlocks : Prop :=
  ∀ w : Word, decode w = .error .reservedEncoding ↔
    field w 15 1 = 1#1 ∧
      (field w 8 4 = 0b0111#4 ∨
        field w 8 4 = 0b1101#4 ∧
          (0x48 ≤ (field w 0 8).toNat ∧ (field w 0 8).toNat ≤ 0x7F ∨
            0x93 ≤ (field w 0 8).toNat ∧ (field w 0 8).toNat ≤ 0x97 ∨
            0xB2 ≤ (field w 0 8).toNat ∧ (field w 0 8).toNat ≤ 0xB6 ∨
            field w 0 8 = 0xB7#8 ∧ field w 14 1 = 1#1 ∨
            0xC0 ≤ (field w 0 8).toNat) ∨
        field w 8 4 = 0b1111#4 ∧ 0x40 ≤ (field w 0 8).toNat)

/-! ### The step -/

/-- A step that fetches an instruction's word runs that instruction in the state the environment left. -/
def Obligations.StepRunsTheDecodedInstruction : Prop :=
  ∀ (s : State) (w : Word) (i : Instr), s.fault = none → s.run = .active →
    s.sample.fetch = .ok w → decode w = .ok i → step s = exec i s.sample

/-- What stops a step before any instruction runs, in the order of R252. The faults are the spec's own decisions D2,
D6, D18 and D26, their order R252's. -/
def Obligations.FetchAndDecodeFaultsInOrder : Prop :=
  ∀ s : State, s.fault = none → s.run = .active →
    (s.ramWords ≤ s.pc.toNat → step s = .fault .memRange) ∧
    (s.pc.toNat < s.ramWords → s.stored.has s.pc.toNat = true → step s = .fault .fetchOfStoredWord) ∧
    (s.pc.toNat < s.ramWords → s.stored.has s.pc.toNat = false → s.sample.ram.readWord s.pc.toNat = none →
      step s = .fault .unwrittenRead) ∧
    ∀ w, s.pc.toNat < s.ramWords → s.stored.has s.pc.toNat = false → s.sample.ram.readWord s.pc.toNat = some w →
      decode w = .error .reservedEncoding → step s = .fault .reservedEncoding

/-- In Standby a step is the wake-up it is given, at twice the vector's number, or a wait. That any vector below
`NUM_VECTORS` may come is the spec's decision D20; that the wake-up is one step of its own is the model's (log entry
10). -/
def Obligations.StandbyStepTakesTheWakeUp : Prop :=
  ∀ s : State, s.fault = none → s.run = .standby →
    (∀ v : BitVec 3, s.sample.now.wake = some v → v.toNat < s.cfg.family.numVectors →
      ∃ t, step s = .next t ∧ t.run = .active ∧ t.pc.toNat = 2 * v.toNat ∧
        t = { s.sample with pc := t.pc, run := t.run }) ∧
    (s.sample.now.wake = none → step s = .next s.sample)

/-- A fault is recorded with no other effect of its step, and then no step changes the state any more. The record is
the spec's own device (R34, decision D19); where it is kept is the model's choice (log entry 26). -/
def Obligations.RecordedFaultIsFinal : Prop :=
  ∀ (s : State) (k : Fault), step s = .fault k →
    recordStep s = { s with fault := some k } ∧ step (recordStep s) = .fault k ∧
      recordStep (recordStep s) = recordStep s

/-- A load sees the latest of the other agents' writes to its word before its step. This is the spec's decision D17,
through the model's list of inputs (log entry 6). -/
def Obligations.LoadSeesTheLatestWriteOfAnotherAgent : Prop :=
  ∀ (s : State) (i : StepInput) (rest : List StepInput) (early late : List (Word × Word)) (a v : Word),
    s.inputs = i :: rest → i.ramWrites = early ++ (a, v) :: late → (∀ w ∈ late, w.1 ≠ a) → a.toNat < s.ramWords →
      s.sample.memRead a = .ok v

/-- The environment's part of a step changes no word that it does not list, and of the machine's own state nothing but
AUX RAM and, in Standby, the marks of the words it writes. The list of inputs is the model's choice (log entry 6), the
marks its reading of R68 (log entry 11). -/
def Obligations.EnvironmentWritesOnlyWhatItLists : Prop :=
  ∀ s : State,
    (∀ a : Nat, (∀ w ∈ s.sample.now.ramWrites, w.1.toNat ≠ a) →
      s.sample.ram.readWord a = s.ram.readWord a ∧ s.sample.stored.has a = s.stored.has a) ∧
    (s.run = .active → s.sample.stored = s.stored) ∧
    s.sample.regs = s.regs ∧ s.sample.pc = s.pc ∧ s.sample.flags = s.flags ∧ s.sample.stack = s.stack ∧
    s.sample.lc = s.lc ∧ s.sample.ls = s.ls ∧ s.sample.le = s.le ∧ s.sample.pfx = s.pfx ∧
    s.sample.r0Prev = s.r0Prev ∧ s.sample.run = s.run ∧ s.sample.fault = s.fault ∧
    s.sample.ioHistory = s.ioHistory ∧ s.sample.cfg = s.cfg

/-- The invariant of the machine's states holds after every step from every state in which it holds. The canonical
forms are the model's (log entry 7); that Standby is clear rests on the spec's decision D21. -/
def Obligations.StepKeepsTheStateInvariant : Prop :=
  ∀ s t : State, s.Inv → step s = .next t → t.Inv

/-- The state after reset: the invariant, and the start values of R39, which are the spec's own decisions D22 (and D19
for the fault record). One clause is the model's choice and no start value of R39: that no word of AUX RAM has a value
(log entries 7 and 10), where R39 has the open parameter `LaunchImage`. -/
def Obligations.ResetHoldsTheInvariantAndTheStartValues : Prop :=
  State.reset.Inv ∧ State.reset.run = .standby ∧ State.reset.stack = [] ∧ State.reset.lc = 0#8 ∧
    State.reset.pfx = none ∧ State.reset.r0Prev = none ∧ State.reset.fault = none ∧
    (∀ a, State.reset.stored.has a = false) ∧ ∀ a, State.reset.ram.readWord a = none

/-- No step changes the chip, and each adds at most one access to the I/O history and takes nothing from it. That the
chip's parameters and the inputs stand in the state is the model's choice (log entries 4 and 6). -/
def Obligations.StepKeepsTheChipAndExtendsTheIoHistory : Prop :=
  ∀ s t : State, step s = .next t →
    t.cfg = s.cfg ∧ t.fault = s.fault ∧ t.tick = s.tick + 1 ∧ t.inputs = s.inputs.tail ∧
      ∃ es : List IoEvent, es.length ≤ 1 ∧ t.ioHistory = s.ioHistory ++ es

/-! ### Rules over all instructions -/

/-- No instruction writes a general register other than those R22 names for it. -/
def Obligations.OnlyDestinationRegistersChange : Prop :=
  ∀ (i : Instr) (s t : State), i ≠ .sleep → (∀ w, i ≠ .dw w) → exec i s = .next t →
    RegsKeptBut (destRegs i) s t

/-- What R27's table says is kept or cleared is kept or cleared. -/
def Obligations.FlagsNotWrittenAreKeptAndClearedFlagsAreClear : Prop :=
  ∀ (i : Instr) (s t : State), i ≠ .sleep → (∀ w, i ≠ .dw w) → exec i s = .next t →
    (flagRow i = .none → t.flags = s.flags) ∧
    (flagRow i = .bitTest → t.flags.z = s.flags.z ∧ t.flags.n = s.flags.n ∧ t.flags.v = s.flags.v) ∧
    (flagRow i = .logical → t.flags.c = false ∧ t.flags.v = false) ∧
    (flagRow i = .shift → t.flags.v = false)

/-- Every byte of AUX RAM outside the word an instruction stores to reads as before, and every other word's mark is as
before. That `sleep` keeps AUX RAM is the spec's decision D21, and that it keeps the marks the model's choice (log entry
28). -/
def Obligations.OnlyTheStoredWordChanges : Prop :=
  ∀ (i : Instr) (s t : State), (∀ w, i ≠ .dw w) → exec i s = .next t →
    (storeTarget i s = none → RamKept s t) ∧ ∀ ea, storeTarget i s = some ea → RamKeptBut ea s t

/-- Apart from Program Flow Control, `sleep`, a wait that holds and the end of an active loop, the next instruction is
the one in the next word; at the end of an active loop the loop rule decides (a `loop` there starts anew). The loop
rule is the spec's decision D9. -/
def Obligations.NextInstructionOutsideFlowControl : Prop :=
  ∀ (i : Instr) (s t : State), isFlowControl i = false → i ≠ .sleep → (∀ w, i ≠ .dw w) → holds i s = false →
    exec i s = .next t →
    (NotLoopEnd s → t.pc = s.pc + 1) ∧
    (¬ NotLoopEnd s → (∀ r, i ≠ .loopR1 r) → (∀ n r, i ≠ .loopImm n r) →
      t.lc = s.lc - 1#8 ∧ t.pc = if s.lc = 1#8 then s.pc + 1 else s.ls)

/-- The prefix lasts for one instruction: every instruction that completes leaves none, but `pfix`, which leaves its
own. -/
def Obligations.OnlyPfixLeavesAPrefix : Prop :=
  ∀ (i : Instr) (s t : State), (∀ w, i ≠ .dw w) → holds i s = false → exec i s = .next t →
    (∀ imm, i = .pfix imm → t.pfx = some imm) ∧ ((∀ imm, i ≠ .pfix imm) → t.pfx = none)

/-- The R0 latch holds the old R0 after each of the six loads of R0, and nothing after every other instruction. The
extent of the hazard is the spec's decision D15. -/
def Obligations.OnlyLoadsOfR0LeaveTheR0Latch : Prop :=
  ∀ (i : Instr) (s t : State), (∀ w, i ≠ .dw w) → holds i s = false → exec i s = .next t →
    t.r0Prev = if loadsR0 i = true then some (s.reg .r0) else none

/-- A pending prefix faults before every instruction that is not one of the sixteen. The fault is the spec's decision
D5. -/
def Obligations.PrefixBeforeAnyOtherInstructionFaults : Prop :=
  ∀ (i : Instr) (s : State), (∀ w, i ≠ .dw w) → s.pfx.isSome = true → isPrefixable i = false →
    exec i s = .fault .prefixMisuse

/-- A Program Flow Control instruction, taken or not, or a `pfix` at the end of an active loop faults. The fault is
the spec's decision D10. -/
def Obligations.FlowControlAtTheLoopEndFaults : Prop :=
  ∀ (i : Instr) (s : State), (isFlowControl i = true ∨ ∃ imm, i = .pfix imm) → ¬ NotLoopEnd s →
    (s.pfx = none ∨ isPrefixable i = true) → exec i s = .fault .loopEndFlowControl

/-- Every instruction has its meaning: neither it nor a step is ever refused. A property of the model. -/
def Obligations.NoInstructionIsRefused : Prop :=
  (∀ (i : Instr) (s : State) (r : Refusal), exec i s ≠ .refused r) ∧ ∀ (s : State) (r : Refusal), step s ≠ .refused r

/-! ### Memory word access -/

/-- The loads without an increment complete on every word with a value. -/
def Obligations.LoadsBringTheirWord : Prop :=
  ∀ (d b : Reg) (addr : BitVec 10) (s : State) (v : Word),
    ((s.imm10u addr).toNat < s.ramWords → s.ram.readWord (s.imm10u addr).toNat = some v →
      ∃ t, exec (.ldDirect d addr) s = .next t ∧ t.ioHistory = s.ioHistory ∧ LoadedReg d v [] s t) ∧
    (s.pfx = none → (s.reg b).toNat < s.ramWords → s.ram.readWord (s.reg b).toNat = some v →
      ∃ t, exec (.ldInd d b) s = .next t ∧ t.ioHistory = s.ioHistory ∧ LoadedReg d v [] s t) ∧
    (s.pfx = none → (s.reg b + s.r0Prev.getD (s.reg .r0)).toNat < s.ramWords →
      s.ram.readWord (s.reg b + s.r0Prev.getD (s.reg .r0)).toNat = some v →
      ∃ t, exec (.ldIndexed d b) s = .next t ∧ t.ioHistory = s.ioHistory ∧ LoadedReg d v [] s t)

/-- The post-increment load takes the word at the old address and adds one to the address register; with one register
for both it faults. The fault is the spec's decision D14. -/
def Obligations.PostIncrementLoadBringsTheWordAndIncrements : Prop :=
  (∀ (d b : Reg) (s : State) (v : Word), s.pfx = none → d ≠ b → (s.reg b).toNat < s.ramWords →
    s.ram.readWord (s.reg b).toNat = some v →
    ∃ t, exec (.ldPostInc d b) s = .next t ∧ t.ioHistory = s.ioHistory ∧ t.reg b = s.reg b + 1 ∧
      LoadedReg d v [b] s t) ∧
  ∀ (d : Reg) (s : State), s.pfx = none → exec (.ldPostInc d d) s = .fault .ldPostIncSameReg

/-- The stores without an increment complete on every word of AUX RAM. -/
def Obligations.StoresPutTheirWord : Prop :=
  ∀ (d b : Reg) (addr : BitVec 10) (s : State),
    ((s.imm10u addr).toNat < s.ramWords →
      ∃ t, exec (.stDirect d addr) s = .next t ∧ StoredWord (s.imm10u addr) (s.reg d) [] s t) ∧
    (s.pfx = none → (s.reg b).toNat < s.ramWords →
      ∃ t, exec (.stInd d b) s = .next t ∧ StoredWord (s.reg b) (s.reg d) [] s t) ∧
    (s.pfx = none → (s.reg b + s.r0Prev.getD (s.reg .r0)).toNat < s.ramWords →
      ∃ t, exec (.stIndexed d b) s = .next t ∧
        StoredWord (s.reg b + s.r0Prev.getD (s.reg .r0)) (s.reg d) [] s t)

/-- The post-increment store puts the data register as it was before the increment, also when it is the address
register. That it stores the old value is the spec's decision D14. -/
def Obligations.PostIncrementStorePutsTheOldValueAndIncrements : Prop :=
  ∀ (d b : Reg) (s : State), s.pfx = none → (s.reg b).toNat < s.ramWords →
    ∃ t, exec (.stPostInc d b) s = .next t ∧ t.reg b = s.reg b + 1 ∧ StoredWord (s.reg b) (s.reg d) [b] s t

/-- Loads and stores outside AUX RAM fault, and so do loads of a word with no value. The faults are the spec's
decisions D2 and D26. -/
def Obligations.AccessesOutsideRamAndUnwrittenLoadsFault : Prop :=
  ∀ (d b : Reg) (addr : BitVec 10) (s : State),
    (s.ramWords ≤ (s.imm10u addr).toNat →
      exec (.ldDirect d addr) s = .fault .memRange ∧ exec (.stDirect d addr) s = .fault .memRange) ∧
    (s.pfx = none → s.ramWords ≤ (s.reg b).toNat →
      exec (.ldInd d b) s = .fault .memRange ∧ exec (.stInd d b) s = .fault .memRange ∧
      exec (.stPostInc d b) s = .fault .memRange ∧ (d ≠ b → exec (.ldPostInc d b) s = .fault .memRange)) ∧
    (s.pfx = none → s.ramWords ≤ (s.indexedAddr b).toNat →
      exec (.ldIndexed d b) s = .fault .memRange ∧ exec (.stIndexed d b) s = .fault .memRange) ∧
    ((s.imm10u addr).toNat < s.ramWords → s.ram.readWord (s.imm10u addr).toNat = none →
      exec (.ldDirect d addr) s = .fault .unwrittenRead) ∧
    (s.pfx = none → (s.reg b).toNat < s.ramWords → s.ram.readWord (s.reg b).toNat = none →
      exec (.ldInd d b) s = .fault .unwrittenRead ∧ (d ≠ b → exec (.ldPostInc d b) s = .fault .unwrittenRead)) ∧
    (s.pfx = none → (s.indexedAddr b).toNat < s.ramWords → s.ram.readWord (s.indexedAddr b).toNat = none →
      exec (.ldIndexed d b) s = .fault .unwrittenRead)

/-! ### I/O access -/

/-- `in` and `out` at an aligned address that the environment answers complete with that one access. The answer is the
environment's (decision D16, log entry 6). -/
def Obligations.WordIoAccessesComplete : Prop :=
  ∀ (d b : Reg) (addr : BitVec 8) (s : State) (v : Word), s.now.io = .mapped v →
    (((s.imm8u addr).toNat ≤ 255 ∨ (s.imm8u addr).toNat % 2 = 0) →
      (∃ t, exec (.inDirect d addr) s = .next t ∧ t.ioHistory = s.ioHistory ++ [.read16 (s.imm8u addr) v] ∧
        LoadedReg d v [] s t) ∧
      ∃ t, exec (.outDirect d addr) s = .next t ∧ t.flags = s.flags ∧
        MadeIoAccess (.write16 (s.imm8u addr) (s.reg d)) s t) ∧
    (s.pfx = none → ((s.reg b).toNat ≤ 255 ∨ (s.reg b).toNat % 2 = 0) →
      (∃ t, exec (.inInd d b) s = .next t ∧ t.ioHistory = s.ioHistory ++ [.read16 (s.reg b) v] ∧
        LoadedReg d v [] s t) ∧
      ∃ t, exec (.outInd d b) s = .next t ∧ t.flags = s.flags ∧ MadeIoAccess (.write16 (s.reg b) (s.reg d)) s t)

/-- The bit accesses at an aligned address that the environment answers complete; `iobtst` puts the bit in C and keeps
the other flags. The answer is the environment's (decision D16, log entry 6). -/
def Obligations.BitIoAccessesComplete : Prop :=
  ∀ (bit : BitVec 3) (addr : BitVec 8) (s : State) (v : Word), s.now.io = .mapped v →
    ((s.imm8u addr).toNat ≤ 255 ∨ (s.imm8u addr).toNat % 2 = 0) →
    (∃ t, exec (.iobclr bit addr) s = .next t ∧ t.flags = s.flags ∧ MadeIoAccess (.bitClr (s.imm8u addr) bit) s t) ∧
    (∃ t, exec (.iobset bit addr) s = .next t ∧ t.flags = s.flags ∧ MadeIoAccess (.bitSet (s.imm8u addr) bit) s t) ∧
    ∃ t, exec (.iobtst bit addr) s = .next t ∧ t.flags.c = v.getLsbD bit.toNat ∧ t.flags.z = s.flags.z ∧
      t.flags.n = s.flags.n ∧ t.flags.v = s.flags.v ∧
      MadeIoAccess (.bitTest (s.imm8u addr) bit (v.getLsbD bit.toNat)) s t

/-- Every I/O access at an odd address at or above 256 faults, and so does every aligned one that is not answered. The
faults are the spec's decisions D16 and D30. -/
def Obligations.UnalignedAndUnmappedIoAccessesFault : Prop :=
  ∀ (d b : Reg) (bit : BitVec 3) (addr : BitVec 8) (s : State),
    (∀ i ∈ [Instr.inDirect d addr, .outDirect d addr, .iobclr bit addr, .iobset bit addr, .iobtst bit addr],
      (256 ≤ (s.imm8u addr).toNat → (s.imm8u addr).toNat % 2 = 1 → exec i s = .fault .ioUnaligned) ∧
      (((s.imm8u addr).toNat ≤ 255 ∨ (s.imm8u addr).toNat % 2 = 0) → s.now.io = .unmapped →
        exec i s = .fault .ioUnmapped)) ∧
    (s.pfx = none → ∀ i ∈ [Instr.inInd d b, .outInd d b],
      (256 ≤ (s.reg b).toNat → (s.reg b).toNat % 2 = 1 → exec i s = .fault .ioUnaligned) ∧
      (((s.reg b).toNat ≤ 255 ∨ (s.reg b).toNat % 2 = 0) → s.now.io = .unmapped → exec i s = .fault .ioUnmapped))

/-- What the direct I/O instructions do to a plain storage register, and to every other one. Kept as events of their
own by decision D16. That two addresses are two registers is the model's choice (log entry 24). -/
def Obligations.PlainIoRegistersFollowTheOperations : Prop :=
  ∀ (d : Reg) (bit : BitVec 3) (addr : BitVec 8) (a init : Word) (s t : State),
    (exec (.outDirect d addr) s = .next t →
      plainReg t.ioHistory a init = if a = s.imm8u addr then s.reg d else plainReg s.ioHistory a init) ∧
    (exec (.iobset bit addr) s = .next t → ∀ k < 16, (plainReg t.ioHistory a init).getLsbD k =
      if a = s.imm8u addr ∧ k = bit.toNat then true else (plainReg s.ioHistory a init).getLsbD k) ∧
    (exec (.iobclr bit addr) s = .next t → ∀ k < 16, (plainReg t.ioHistory a init).getLsbD k =
      if a = s.imm8u addr ∧ k = bit.toNat then false else (plainReg s.ioHistory a init).getLsbD k) ∧
    (exec (.iobtst bit addr) s = .next t → plainReg t.ioHistory a init = plainReg s.ioHistory a init) ∧
    (exec (.inDirect d addr) s = .next t → plainReg t.ioHistory a init = plainReg s.ioHistory a init)

/-! ### Register access, logic, arithmetic, shifts -/

/-- The loads of an immediate and of a register complete and write no flag. -/
def Obligations.RegisterLoadsComplete : Prop :=
  ∀ (d b : Reg) (simm : BitVec 10) (s : State),
    (∃ t, exec (.ldImm d simm) s = .next t ∧ t.flags = s.flags ∧ WroteReg d (s.imm10s simm) s t) ∧
    (s.pfx = none → ∃ t, exec (.ldReg d b) s = .next t ∧ t.flags = s.flags ∧ WroteReg d (s.reg b) s t)

/-- The logical instructions that write a register: the result bit by bit, Z and N from it, C and V clear. -/
def Obligations.LogicalResultsAndFlags : Prop :=
  ∀ (d b : Reg) (imm : BitVec 8) (s : State),
    (∃ t, exec (.andImm d imm) s = .next t ∧ WroteReg d (s.reg d &&& s.imm8u imm) s t ∧
      FlagsOf (s.reg d &&& s.imm8u imm) false false t) ∧
    (∃ t, exec (.orImm d imm) s = .next t ∧ WroteReg d (s.reg d ||| s.imm8u imm) s t ∧
      FlagsOf (s.reg d ||| s.imm8u imm) false false t) ∧
    (∃ t, exec (.xorImm d imm) s = .next t ∧ WroteReg d (s.reg d ^^^ s.imm8u imm) s t ∧
      FlagsOf (s.reg d ^^^ s.imm8u imm) false false t) ∧
    (s.pfx = none →
      (∃ t, exec (.andReg d b) s = .next t ∧ WroteReg d (s.reg d &&& s.reg b) s t ∧
        FlagsOf (s.reg d &&& s.reg b) false false t) ∧
      (∃ t, exec (.orReg d b) s = .next t ∧ WroteReg d (s.reg d ||| s.reg b) s t ∧
        FlagsOf (s.reg d ||| s.reg b) false false t) ∧
      (∃ t, exec (.xorReg d b) s = .next t ∧ WroteReg d (s.reg d ^^^ s.reg b) s t ∧
        FlagsOf (s.reg d ^^^ s.reg b) false false t) ∧
      ∃ t, exec (.inv d) s = .next t ∧ WroteReg d (~~~ s.reg d) s t ∧ FlagsOf (~~~ s.reg d) false false t)

/-- `tst` writes the flags of the AND and no register. -/
def Obligations.TestsWriteFlagsOnly : Prop :=
  ∀ (d b : Reg) (imm : BitVec 8) (s : State),
    (∃ t, exec (.tstImm d imm) s = .next t ∧ WroteNoReg s t ∧ FlagsOf (s.reg d &&& s.imm8u imm) false false t) ∧
    (s.pfx = none →
      ∃ t, exec (.tstReg d b) s = .next t ∧ WroteNoReg s t ∧ FlagsOf (s.reg d &&& s.reg b) false false t)

/-- `add`: the sum modulo 65536, C the carry out of bit 15, V the signed overflow. -/
def Obligations.AddResultsAndFlags : Prop :=
  ∀ (d b : Reg) (simm : BitVec 8) (s : State),
    (∃ t, exec (.addImm d simm) s = .next t ∧ WroteReg d (s.reg d + s.imm8s simm) s t ∧
      FlagsOf (s.reg d + s.imm8s simm) (decide (65536 ≤ (s.reg d).toNat + (s.imm8s simm).toNat))
        (decide ((s.reg d + s.imm8s simm).toInt ≠ (s.reg d).toInt + (s.imm8s simm).toInt)) t) ∧
    (s.pfx = none → ∃ t, exec (.addReg d b) s = .next t ∧ WroteReg d (s.reg d + s.reg b) s t ∧
      FlagsOf (s.reg d + s.reg b) (decide (65536 ≤ (s.reg d).toNat + (s.reg b).toNat))
        (decide ((s.reg d + s.reg b).toInt ≠ (s.reg d).toInt + (s.reg b).toInt)) t)

/-- `sub` and `subr`: the difference modulo 65536, C the borrow, V the signed overflow. -/
def Obligations.SubtractResultsAndFlags : Prop :=
  ∀ (d b : Reg) (s : State), s.pfx = none →
    (∃ t, exec (.subReg d b) s = .next t ∧ WroteReg d (s.reg d - s.reg b) s t ∧
      FlagsOf (s.reg d - s.reg b) (decide ((s.reg d).toNat < (s.reg b).toNat))
        (decide ((s.reg d - s.reg b).toInt ≠ (s.reg d).toInt - (s.reg b).toInt)) t) ∧
    ∃ t, exec (.subrReg d b) s = .next t ∧ WroteReg d (s.reg b - s.reg d) s t ∧
      FlagsOf (s.reg b - s.reg d) (decide ((s.reg b).toNat < (s.reg d).toNat))
        (decide ((s.reg b - s.reg d).toInt ≠ (s.reg b).toInt - (s.reg d).toInt)) t

/-- `cmp`: the flags of the subtraction and no register. -/
def Obligations.ComparesWriteFlagsOnly : Prop :=
  ∀ (d b : Reg) (simm : BitVec 8) (s : State),
    (∃ t, exec (.cmpImm d simm) s = .next t ∧ WroteNoReg s t ∧
      FlagsOf (s.reg d - s.imm8s simm) (decide ((s.reg d).toNat < (s.imm8s simm).toNat))
        (decide ((s.reg d - s.imm8s simm).toInt ≠ (s.reg d).toInt - (s.imm8s simm).toInt)) t) ∧
    (s.pfx = none → ∃ t, exec (.cmpReg d b) s = .next t ∧ WroteNoReg s t ∧
      FlagsOf (s.reg d - s.reg b) (decide ((s.reg d).toNat < (s.reg b).toNat))
        (decide ((s.reg d - s.reg b).toInt ≠ (s.reg d).toInt - (s.reg b).toInt)) t)

/-- `neg` and `abs`: V exactly for 0x8000; C by the chip's `NEG_ABS_CARRY`, which in the default makes `neg` the
subtraction from zero and clears C after `abs` of a non-negative value. C is the spec's open parameter (decision D13,
log entry 17). -/
def Obligations.NegateAndAbsoluteResultsAndFlags : Prop :=
  ∀ (d : Reg) (s : State), s.pfx = none →
    (∃ t, exec (.neg d) s = .next t ∧ WroteReg d (-(s.reg d)) s t ∧
      FlagsOf (-(s.reg d)) (negCarry s.cfg.negAbsCarry (s.reg d)) (decide (s.reg d = 0x8000#16)) t ∧
      (s.cfg.negAbsCarry = .borrow → t.flags.c = decide (s.reg d ≠ 0#16))) ∧
    ∃ t, exec (.abs d) s = .next t ∧
      WroteReg d (if (s.reg d).toInt < 0 then -(s.reg d) else s.reg d) s t ∧
      FlagsOf (if (s.reg d).toInt < 0 then -(s.reg d) else s.reg d)
        (if (s.reg d).toInt < 0 then negCarry s.cfg.negAbsCarry (s.reg d)
          else absCarryNonNeg s.cfg.negAbsCarry (s.reg d))
        (decide (s.reg d = 0x8000#16)) t ∧
      (s.cfg.negAbsCarry = .borrow → t.flags.c = decide ((s.reg d).toInt < 0))

/-- The shifts by a register: the result bit by bit, C the last bit shifted out or 0, V clear; only the low four bits of
the count register count. -/
def Obligations.RegisterShiftsBitByBit : Prop :=
  ∀ (d b : Reg) (s : State), s.pfx = none →
    (∃ t r c, exec (.lslReg d b) s = .next t ∧ WroteReg d r s t ∧ FlagsOf r c false t ∧
      ShiftedLeft (s.reg d) ((s.reg b).toNat % 16) r c) ∧
    (∃ t r c, exec (.lsrReg d b) s = .next t ∧ WroteReg d r s t ∧ FlagsOf r c false t ∧
      ShiftedRight (s.reg d) ((s.reg b).toNat % 16) r c) ∧
    ∃ t r c, exec (.asrReg d b) s = .next t ∧ WroteReg d r s t ∧ FlagsOf r c false t ∧
      ShiftedRightSigned (s.reg d) ((s.reg b).toNat % 16) r c

/-- The shifts by an immediate, the field 0 standing for 8. -/
def Obligations.ImmediateShiftsBitByBit : Prop :=
  ∀ (d : Reg) (imm : BitVec 3) (s : State), s.pfx = none →
    (∃ t r c, exec (.lslImm d imm) s = .next t ∧ WroteReg d r s t ∧ FlagsOf r c false t ∧
      ShiftedLeft (s.reg d) (if imm = 0#3 then 8 else imm.toNat) r c) ∧
    (∃ t r c, exec (.lsrImm d imm) s = .next t ∧ WroteReg d r s t ∧ FlagsOf r c false t ∧
      ShiftedRight (s.reg d) (if imm = 0#3 then 8 else imm.toNat) r c) ∧
    ∃ t r c, exec (.asrImm d imm) s = .next t ∧ WroteReg d r s t ∧ FlagsOf r c false t ∧
      ShiftedRightSigned (s.reg d) (if imm = 0#3 then 8 else imm.toNat) r c

/-- The counts that the shifts can be given: 1 to 8 by an immediate, 0 not among them; 0 to 15 by a register, its low
four bits. -/
def Obligations.ShiftCountsThatCanBeGiven : Prop :=
  (∀ imm : BitVec 3, shiftCount imm = if imm = 0#3 then 8 else imm.toNat) ∧
  (∀ k : Nat, (∃ imm : BitVec 3, shiftCount imm = k) ↔ 1 ≤ k ∧ k ≤ 8) ∧
  (∀ v : Word, regShiftCount v = v.toNat % 16) ∧ ∀ k : Nat, (∃ v : Word, regShiftCount v = k) ↔ k ≤ 15

/-! ### Program flow control -/

/-- After a compare of registers the conditions compare the operands, unsigned or signed, as their names say. -/
def Obligations.ConditionsAfterACompareCompareTheOperands : Prop :=
  ∀ (d b : Reg) (s t : State), exec (.cmpReg d b) s = .next t →
    condGtu t.flags = decide ((s.reg b).toNat < (s.reg d).toNat) ∧
    condGeu t.flags = decide ((s.reg b).toNat ≤ (s.reg d).toNat) ∧
    condEq t.flags = decide (s.reg d = s.reg b) ∧
    condGes t.flags = decide ((s.reg b).toInt ≤ (s.reg d).toInt) ∧
    condGts t.flags = decide ((s.reg b).toInt < (s.reg d).toInt) ∧
    condLeu t.flags = decide ((s.reg d).toNat ≤ (s.reg b).toNat) ∧
    condLtu t.flags = decide ((s.reg d).toNat < (s.reg b).toNat) ∧
    condNeq t.flags = decide (s.reg d ≠ s.reg b) ∧
    condLts t.flags = decide ((s.reg d).toInt < (s.reg b).toInt) ∧
    condLes t.flags = decide ((s.reg d).toInt ≤ (s.reg b).toInt)

/-- Each conditional branch is taken on its condition of R196's table, spelled out over the flags, and else goes on. -/
def Obligations.ConditionalBranchesFollowTheConditionsTable : Prop :=
  ∀ (rel : BitVec 8) (s : State), s.pfx = none → NotLoopEnd s →
    ∀ p ∈ [(Instr.bgtu rel, !s.flags.c && !s.flags.z), (.bgeu rel, !s.flags.c), (.beq rel, s.flags.z),
        (.bnovf rel, !s.flags.v), (.bpos rel, !s.flags.n), (.bges rel, s.flags.n == s.flags.v),
        (.bgts rel, s.flags.n == s.flags.v && !s.flags.z), (.bleu rel, s.flags.c || s.flags.z),
        (.bltu rel, s.flags.c), (.bneq rel, !s.flags.z), (.bovf rel, s.flags.v), (.bneg rel, s.flags.n),
        (.blts rel, s.flags.n != s.flags.v), (.bles rel, (s.flags.n != s.flags.v) || s.flags.z)],
      ∃ t, exec p.1 s = .next t ∧
        WentTo (if p.2 = true then s.pc + 1 + rel.signExtend 16 else s.pc + 1) s.stack s t

/-- `bra` (R195): the word `1000.1110.rrrr.rrrr`; it goes to `pc + 1 + rel`, itself for `rel = -1`, and reads and
writes no flag. -/
def Obligations.BranchAlwaysGoesToItsTarget : Prop :=
  (∀ rel : BitVec 8, decode (0b10001110#8 ++ rel) = .ok (.bra rel)) ∧
  ∀ (rel : BitVec 8) (s : State), s.pfx = none → NotLoopEnd s →
    ∃ t, exec (.bra rel) s = .next t ∧ WentTo (s.pc + 1 + rel.signExtend 16) s.stack s t ∧
      (rel = 0xFF#8 → t.pc = s.pc)

/-- `bev0` and `bev1` branch on the level of their event. -/
def Obligations.EventBranchesFollowTheEventLevel : Prop :=
  ∀ (ev : BitVec 3) (rel : BitVec 8) (s : State), s.pfx = none → NotLoopEnd s →
    (∃ t, exec (.bev0 ev rel) s = .next t ∧
      WentTo (if s.now.events.getLsbD ev.toNat = false then s.pc + 1 + rel.signExtend 16 else s.pc + 1) s.stack s t) ∧
    ∃ t, exec (.bev1 ev rel) s = .next t ∧
      WentTo (if s.now.events.getLsbD ev.toNat = true then s.pc + 1 + rel.signExtend 16 else s.pc + 1) s.stack s t

/-- The jumps: to the address, prefixed or not, and to what a dedicated use of R0 reads. -/
def Obligations.JumpsGoToTheirTarget : Prop :=
  ∀ (addr : BitVec 10) (s : State), NotLoopEnd s →
    (∃ t, exec (.jmp addr) s = .next t ∧ WentTo (s.imm10u addr) s.stack s t) ∧
    (s.pfx = none → ∃ t, exec .jmpR0 s = .next t ∧ WentTo (s.r0Prev.getD (s.reg .r0)) s.stack s t)

/-- The calls push the address after the call word; a fourth nested one faults. The fault is the spec's decision D12. -/
def Obligations.CallsPushTheReturnAddress : Prop :=
  ∀ (addr : BitVec 10) (s : State), NotLoopEnd s →
    (s.stack.length < 3 →
      (∃ t, exec (.jsr addr) s = .next t ∧ WentTo (s.imm10u addr) ((s.pc + 1) :: s.stack) s t) ∧
      (s.pfx = none →
        ∃ t, exec .jsrR0 s = .next t ∧ WentTo (s.r0Prev.getD (s.reg .r0)) ((s.pc + 1) :: s.stack) s t)) ∧
    (3 ≤ s.stack.length →
      exec (.jsr addr) s = .fault .stackOverflow ∧ (s.pfx = none → exec .jsrR0 s = .fault .stackOverflow))

/-- `rts` goes to the most recent return address and takes it off the stack; on an empty stack it faults. The fault is
the spec's decision D12. -/
def Obligations.ReturnPopsTheMostRecentAddress : Prop :=
  ∀ s : State, s.pfx = none → NotLoopEnd s →
    (∀ v rest, s.stack = v :: rest → ∃ t, exec .rts s = .next t ∧ WentTo v rest s t) ∧
    (s.stack = [] → exec .rts s = .fault .stackUnderflow)

/-- A call and the return from it, wherever the return stands outside a loop's end, lead to the word after the call with
the stack as it was. -/
def Obligations.CallThenReturnGoesBack : Prop :=
  ∀ (addr : BitVec 10) (p : Word) (s t : State), exec (.jsr addr) s = .next t → NotLoopEnd { t with pc := p } →
    ∃ u, exec .rts { t with pc := p } = .next u ∧
      u.pc = s.pc + 1 ∧ u.stack = s.stack ∧ u.regs = s.regs ∧ u.flags = s.flags ∧ u.ram = s.ram

/-- The R0 hazard: right after any of the six loads of R0 from memory or I/O a jump through R0 goes to the previous R0,
and with one `nop` between them to the new one. Its extent is the spec's decision D15. -/
def Obligations.JumpRightAfterALoadOfR0UsesThePreviousR0 : Prop :=
  ∀ (i : Instr) (s t : State), loadsR0 i = true → exec i s = .next t → NotLoopEnd t →
    (∃ u, exec .jmpR0 t = .next u ∧ u.pc = s.reg .r0 ∧ u.reg .r0 = t.reg .r0) ∧
    ∀ u, exec .nop t = .next u → NotLoopEnd u → ∃ v, exec .jmpR0 u = .next v ∧ v.pc = t.reg .r0

/-! ### Loop -/

/-- `loop` sets the count, the first and the last address of the body; a second one overwrites an active loop. The
count of `loop #n` is the spec's decision D8. -/
def Obligations.LoopSetsTheLoopRegisters : Prop :=
  ∀ (rel : BitVec 8) (nnn : BitVec 3) (s : State), s.pfx = none → 0 < rel.toInt →
    ((s.reg .r1).toNat % 256 ≠ 0 →
      ∃ t, exec (.loopR1 rel) s = .next t ∧ t.lc.toNat = (s.reg .r1).toNat % 256 ∧ t.ls = s.pc + 1 ∧
        t.le = s.pc + rel.signExtend 16 ∧ t.pc = s.pc + 1 ∧ t.pfx = none ∧ t.r0Prev = none ∧ t.flags = s.flags ∧
        t.ioHistory = s.ioHistory ∧ RegsKeptBut [] s t ∧ RamKept s t ∧ RestKept s t) ∧
    (nnn ≠ 0#3 →
      ∃ t, exec (.loopImm nnn rel) s = .next t ∧ t.lc.toNat = 2 ^ nnn.toNat ∧ t.ls = s.pc + 1 ∧
        t.le = s.pc + rel.signExtend 16 ∧ t.pc = s.pc + 1 ∧ t.pfx = none ∧ t.r0Prev = none ∧ t.flags = s.flags ∧
        t.ioHistory = s.ioHistory ∧ RegsKeptBut [] s t ∧ RamKept s t ∧ RestKept s t)

/-- The misuses of `loop`: a count of zero first, then an end that is not after it. The faults are the spec's decision
D10. -/
def Obligations.LoopMisusesFault : Prop :=
  ∀ (rel : BitVec 8) (nnn : BitVec 3) (s : State), s.pfx = none →
    ((s.reg .r1).toNat % 256 = 0 → exec (.loopR1 rel) s = .fault .loopCountZero) ∧
    ((s.reg .r1).toNat % 256 ≠ 0 → rel.toInt ≤ 0 → exec (.loopR1 rel) s = .fault .loopEndNotAfter) ∧
    (rel.toInt ≤ 0 → exec (.loopImm nnn rel) s = .fault .loopEndNotAfter)

/-- A one-word loop body that completes runs exactly n times, whether `loop R1` or `loop #n` sets the count: after each
of the first n - 1 runs execution is back at its start with the count one less, and after the n-th the loop is over and
execution is at the word after it. A body that is itself a `loop` starts a new loop, a wait that holds does not complete,
and a data word is the instruction it spells: these three are not bodies here. A body of one `nop` always completes. The
mechanism is the spec's decision D9, the count of `loop #n` D8. -/
def Obligations.LoopRunsItsBodyExactlyNTimes : Prop :=
  ∀ (l : Instr) (n : Nat) (s t : State),
    (l = .loopR1 1#8 ∧ n = (s.reg .r1).toNat % 256 ∨ ∃ nnn, nnn ≠ 0#3 ∧ l = .loopImm nnn 1#8 ∧ n = 2 ^ nnn.toNat) →
    exec l s = .next t →
    (∀ i : Instr, (∀ r, i ≠ .loopR1 r) → (∀ m r, i ≠ .loopImm m r) → (∀ w, i ≠ .dw w) → holds i t = false →
      (∀ k < n, ∀ u, execList (List.replicate k i) t = .next u →
        u.pc = s.pc + 1 ∧ u.lc.toNat = n - k ∧ u.ls = s.pc + 1 ∧ u.le = s.pc + 1) ∧
      ∀ u, execList (List.replicate n i) t = .next u → u.pc = s.pc + 2 ∧ u.lc = 0#8) ∧
    ∃ u, execList (List.replicate n .nop) t = .next u ∧ u.pc = s.pc + 2 ∧ u.lc = 0#8 ∧
      u.regs = s.regs ∧ u.flags = s.flags ∧ u.ram = s.ram

/-! ### Power management, miscellaneous -/

/-- The waits complete at the awaited level, also at the end of a loop, and else hold with nothing changed. That
nothing else ends a wait is the spec's decision D24. -/
def Obligations.WaitsCompleteAtTheirLevelAndElseHold : Prop :=
  ∀ (ev : BitVec 3) (s : State), s.pfx = none →
    (s.now.events.getLsbD ev.toNat = false →
      (∃ t, exec (.wev0 ev) s = .next t ∧ t.flags = s.flags ∧ WroteNoReg s t) ∧ exec (.wev1 ev) s = .next s) ∧
    (s.now.events.getLsbD ev.toNat = true →
      (∃ t, exec (.wev1 ev) s = .next t ∧ t.flags = s.flags ∧ WroteNoReg s t) ∧ exec (.wev0 ev) s = .next s)

/-- `sleep` with no return address stacked and no loop active enters Standby and keeps AUX RAM; of registers, flags and
`pc` nothing is said. That AUX RAM is kept and the two latches are clear is the spec's decision D21. That the marks, the
loop addresses and the I/O history keep their values too is the model's choice (log entry 28). -/
def Obligations.SleepEntersStandby : Prop :=
  ∀ s : State, s.pfx = none → s.stack = [] → s.lc = 0#8 →
    ∃ t, exec .sleep s = .next t ∧ t.run = .standby ∧ t.stack = [] ∧ t.lc = 0#8 ∧ t.ls = s.ls ∧ t.le = s.le ∧
      t.pfx = none ∧ t.r0Prev = none ∧ RamKept s t ∧ t.ioHistory = s.ioHistory ∧ t.fault = s.fault ∧
      t.cfg = s.cfg ∧ t.now = s.now ∧ t.inputs = s.inputs ∧ t.tick = s.tick

/-- The misuses of `sleep`: a stacked return address first, then an active loop. The faults are the spec's decision
D21. -/
def Obligations.SleepMisusesFault : Prop :=
  ∀ s : State, s.pfx = none →
    (s.stack ≠ [] → exec .sleep s = .fault .sleepStackNotEmpty) ∧
    (s.stack = [] → s.lc ≠ 0#8 → exec .sleep s = .fault .sleepLoopActive)

/-- `nop` changes nothing but what the common tail does; `pfix` leaves its operand in the prefix latch. -/
def Obligations.NopAndPfixComplete : Prop :=
  ∀ (imm : BitVec 8) (s : State), s.pfx = none →
    (∃ t, exec .nop s = .next t ∧ t.flags = s.flags ∧ WroteNoReg s t) ∧
    (NotLoopEnd s → ∃ t, exec (.pfix imm) s = .next t ∧ t.flags = s.flags ∧ RegsKeptBut [] s t ∧ RamKept s t ∧
      t.ioHistory = s.ioHistory ∧ RestKept s t ∧ CommonTail (s.pc + 1) (some imm) none s t)

/-- The operand of a prefixable instruction, as a number: the field alone, extended, or joined with the prefix. How
they are joined is the spec's decision D4 (log entry 16). -/
def Obligations.PrefixJoinsTheImmediateField : Prop :=
  ∀ (s : State) (f : BitVec 8) (g : BitVec 10),
    (s.pfx = none → (s.imm8u f).toNat = f.toNat ∧ (s.imm8s f).toInt = f.toInt ∧
      (s.imm10u g).toNat = g.toNat ∧ (s.imm10s g).toInt = g.toInt) ∧
    ∀ p : Byte, s.pfx = some p →
      (s.imm8u f).toNat = p.toNat * 256 + f.toNat ∧ s.imm8s f = s.imm8u f ∧ s.imm10s g = s.imm10u g ∧
      (s.cfg.pfix10 = .hi8lo8 → (s.imm10u g).toNat = p.toNat * 256 + g.toNat % 256) ∧
      (s.cfg.pfix10 = .hi6lo10 → (s.imm10u g).toNat = p.toNat % 64 * 1024 + g.toNat)

/-- What the assembler places for `ld Rd, #v`, with the prefix it adds when it must, loads `v`; a `v` that does not
fit 16 signed bits is an error. That -32768 to 32767 are taken and when a prefix is added is the spec's decision D28;
that 32768 to 65535 is an error is the model's choice (log entry 31), since D28 says that it is not known. -/
def Obligations.AssembledLoadLoadsItsValue : Prop :=
  ∀ (d : Reg) (v : Int) (s : State), s.pfx = none → NotLoopEnd s →
    (-32768 ≤ v → v ≤ 32767 → ∃ is t, assemblePrefixable s.cfg.pfix10 (.ldImm d) v = .ok is ∧
      (is.length = 1 ↔ -512 ≤ v ∧ v ≤ 511) ∧ execList is s = .next t ∧ (t.reg d).toInt = v) ∧
    (v < -32768 ∨ 32767 < v → assemblePrefixable s.cfg.pfix10 (.ldImm d) v = .error .outOfRange)

/-- A `dw` word that is run is the instruction its bits spell, or faults if they spell none: so one that spells `ld
Rd, #simm` loads it. That `dw` is a term with a meaning is the model's choice (log entry 25). -/
def Obligations.DataWordRunsAsTheInstructionItSpells : Prop :=
  ∀ (w : Word) (s : State),
    (∀ i, decode w = .ok i → exec (.dw w) s = exec i s) ∧
    (decode w = .error .reservedEncoding → exec (.dw w) s = .fault .reservedEncoding) ∧
    ∀ d simm, decode w = .ok (.ldImm d simm) →
      ∃ t, exec (.dw w) s = .next t ∧ t.flags = s.flags ∧ WroteReg d (s.imm10s simm) s t
end

