-- ==== Sys2Proof/Laws/Assembler.lean ====
section
/-! SUPPORT. What R105 and R106 say of assembler expressions: numbers of 32 signed bits, and the two operators with a meaning. -/

namespace Sys2Proof.Machine

@[simp] theorem unaryValue_invert (x : BitVec 32) : unaryValue "~" x = ~~~x := if_pos rfl

@[simp] theorem unaryValue_other {op : String} (h : op ≠ "~") (x : BitVec 32) :
    unaryValue op x = Config.asmUnary op x := if_neg h

@[simp] theorem binaryValue_mask (x y : BitVec 32) : binaryValue "&" x y = x &&& y := if_pos rfl

@[simp] theorem binaryValue_other {op : String} (h : op ≠ "&") (x y : BitVec 32) :
    binaryValue op x y = Config.asmBinary op x y := if_neg h

/-- A number has a value exactly when 32 signed bits hold it, and the value is that number. -/
theorem asmInt_ok {v : Int} {x : BitVec 32} : asmInt v = .ok x ↔ (-2 ^ 31 ≤ v ∧ v < 2 ^ 31) ∧ x.toInt = v := by
  unfold asmInt
  split
  · rename_i h
    have hv : (BitVec.ofInt 32 v).toInt = v := by rw [BitVec.toInt_ofInt]; simp only [Int.bmod]; omega
    simp only [Except.ok.injEq, h, true_and, and_self]
    exact ⟨fun hx => hx ▸ hv, fun hx => BitVec.eq_of_toInt_eq (hv.trans hx.symm)⟩
  · rename_i h
    constructor
    · intro hx; cases hx
    · intro hx; exact absurd hx.1 h

/-- An inverted expression has a value exactly when the expression has one. -/
theorem AsmExpr.eval_invert (labels : List (String × Nat)) (context : String) (e : AsmExpr) :
    AsmExpr.eval labels context (.unary "~" e) = (AsmExpr.eval labels context e).map (~~~ ·) := by
  rw [AsmExpr.eval, if_pos (by decide), funext unaryValue_invert]

end Sys2Proof.Machine
end

