-- ==== Sys2Proof/Laws/Decode.lean ====
section
/-! SUPPORT. The fields of a packed word (R82 to R89): what the decoder reads is what the encoder placed. -/

namespace Sys2Proof

@[simp] theorem Reg.ofBits_bits (r : Reg) : Reg.ofBits r.bits = r := by cases r <;> rfl

@[simp] theorem Reg.bits_ofBits (b : BitVec 3) : (Reg.ofBits b).bits = b := by
  revert b; decide

theorem Reg.bits_inj {r q : Reg} (h : r.bits = q.bits) : r = q := by
  rw [← Reg.ofBits_bits r, h, Reg.ofBits_bits]

/-! ### Formats D10 and J10 -/

@[simp] theorem field_packD10_15_15 (d : BitVec 3) (op2 : BitVec 2) (f10 : BitVec 10) :
    field (packD10 d op2 f10) 15 1 = 0#1 := by
  apply BitVec.eq_of_getLsbD_eq; intro i hi
  interval_cases i <;> simp [field, packD10, place]

@[simp] theorem field_packD10_14_12 (d : BitVec 3) (op2 : BitVec 2) (f10 : BitVec 10) :
    field (packD10 d op2 f10) 12 3 = d := by
  apply BitVec.eq_of_getLsbD_eq; intro i hi
  interval_cases i <;> simp [field, packD10, place]

@[simp] theorem field_packD10_14_13 (d : BitVec 3) (op2 : BitVec 2) (f10 : BitVec 10) :
    field (packD10 d op2 f10) 13 2 = d.extractLsb' 1 2 := by
  apply BitVec.eq_of_getLsbD_eq; intro i hi
  interval_cases i <;> simp [field, packD10, place]

@[simp] theorem field_packD10_12_12 (d : BitVec 3) (op2 : BitVec 2) (f10 : BitVec 10) :
    field (packD10 d op2 f10) 12 1 = d.extractLsb' 0 1 := by
  apply BitVec.eq_of_getLsbD_eq; intro i hi
  interval_cases i <;> simp [field, packD10, place]

@[simp] theorem field_packD10_11_10 (d : BitVec 3) (op2 : BitVec 2) (f10 : BitVec 10) :
    field (packD10 d op2 f10) 10 2 = op2 := by
  apply BitVec.eq_of_getLsbD_eq; intro i hi
  interval_cases i <;> simp [field, packD10, place]

@[simp] theorem field_packD10_9_0 (d : BitVec 3) (op2 : BitVec 2) (f10 : BitVec 10) :
    field (packD10 d op2 f10) 0 10 = f10 := by
  apply BitVec.eq_of_getLsbD_eq; intro i hi
  interval_cases i <;> simp [field, packD10, place]

/-! ### Format B -/

@[simp] theorem field_packB_15_15 (op : BitVec 2) (imm : BitVec 3) (addr : BitVec 8) :
    field (packB op imm addr) 15 1 = 0#1 := by
  apply BitVec.eq_of_getLsbD_eq; intro i hi
  interval_cases i <;> simp [field, packB, place]

@[simp] theorem field_packB_14_13 (op : BitVec 2) (imm : BitVec 3) (addr : BitVec 8) :
    field (packB op imm addr) 13 2 = op := by
  apply BitVec.eq_of_getLsbD_eq; intro i hi
  interval_cases i <;> simp [field, packB, place]

@[simp] theorem field_packB_11_10 (op : BitVec 2) (imm : BitVec 3) (addr : BitVec 8) :
    field (packB op imm addr) 10 2 = 0b01#2 := by
  apply BitVec.eq_of_getLsbD_eq; intro i hi
  interval_cases i <;> simp [field, packB, place]

@[simp] theorem field_packB_7_0 (op : BitVec 2) (imm : BitVec 3) (addr : BitVec 8) :
    field (packB op imm addr) 0 8 = addr := by
  apply BitVec.eq_of_getLsbD_eq; intro i hi
  interval_cases i <;> simp [field, packB, place]

@[simp] theorem fieldBit_packB (op : BitVec 2) (imm : BitVec 3) (addr : BitVec 8) : fieldBit (packB op imm addr) = imm := by
  apply BitVec.eq_of_getLsbD_eq; intro i hi
  interval_cases i <;> simp [fieldBit, field, packB, place]

/-! ### Formats I8, EV and L -/

@[simp] theorem field_packI8_15_15 (d : BitVec 3) (op4 : BitVec 4) (f8 : BitVec 8) :
    field (packI8 d op4 f8) 15 1 = 1#1 := by
  apply BitVec.eq_of_getLsbD_eq; intro i hi
  interval_cases i <;> simp [field, packI8, place]

@[simp] theorem field_packI8_14_12 (d : BitVec 3) (op4 : BitVec 4) (f8 : BitVec 8) :
    field (packI8 d op4 f8) 12 3 = d := by
  apply BitVec.eq_of_getLsbD_eq; intro i hi
  interval_cases i <;> simp [field, packI8, place]

@[simp] theorem field_packI8_11_8 (d : BitVec 3) (op4 : BitVec 4) (f8 : BitVec 8) :
    field (packI8 d op4 f8) 8 4 = op4 := by
  apply BitVec.eq_of_getLsbD_eq; intro i hi
  interval_cases i <;> simp [field, packI8, place]

@[simp] theorem field_packI8_7_0 (d : BitVec 3) (op4 : BitVec 4) (f8 : BitVec 8) :
    field (packI8 d op4 f8) 0 8 = f8 := by
  apply BitVec.eq_of_getLsbD_eq; intro i hi
  interval_cases i <;> simp [field, packI8, place]

/-! ### The 1101 group and format M -/

@[simp] theorem field_packM_15_15 (d : BitVec 3) (op4 : BitVec 4) (op5 : BitVec 5) (s : BitVec 3) :
    field (packM d op4 op5 s) 15 1 = 1#1 := by
  apply BitVec.eq_of_getLsbD_eq; intro i hi
  interval_cases i <;> simp [field, packM, place]

@[simp] theorem field_packM_14_12 (d : BitVec 3) (op4 : BitVec 4) (op5 : BitVec 5) (s : BitVec 3) :
    field (packM d op4 op5 s) 12 3 = d := by
  apply BitVec.eq_of_getLsbD_eq; intro i hi
  interval_cases i <;> simp [field, packM, place]

@[simp] theorem field_packM_11_8 (d : BitVec 3) (op4 : BitVec 4) (op5 : BitVec 5) (s : BitVec 3) :
    field (packM d op4 op5 s) 8 4 = op4 := by
  apply BitVec.eq_of_getLsbD_eq; intro i hi
  interval_cases i <;> simp [field, packM, place]

@[simp] theorem field_packM_7_3 (d : BitVec 3) (op4 : BitVec 4) (op5 : BitVec 5) (s : BitVec 3) :
    field (packM d op4 op5 s) 3 5 = op5 := by
  apply BitVec.eq_of_getLsbD_eq; intro i hi
  interval_cases i <;> simp [field, packM, place]

@[simp] theorem field_packM_2_0 (d : BitVec 3) (op4 : BitVec 4) (op5 : BitVec 5) (s : BitVec 3) :
    field (packM d op4 op5 s) 0 3 = s := by
  apply BitVec.eq_of_getLsbD_eq; intro i hi
  interval_cases i <;> simp [field, packM, place]

/-! ### Formats BR and P -/

@[simp] theorem field_packBR_15_15 (cc : BitVec 4) (rel : BitVec 8) :
    field (packBR cc rel) 15 1 = 1#1 := by
  apply BitVec.eq_of_getLsbD_eq; intro i hi
  interval_cases i <;> simp [field, packBR, place]

@[simp] theorem field_packBR_14_12 (cc : BitVec 4) (rel : BitVec 8) :
    field (packBR cc rel) 12 3 = cc.extractLsb' 1 3 := by
  apply BitVec.eq_of_getLsbD_eq; intro i hi
  interval_cases i <;> simp [field, packBR, place]

@[simp] theorem field_packBR_7_0 (cc : BitVec 4) (rel : BitVec 8) :
    field (packBR cc rel) 0 8 = rel := by
  apply BitVec.eq_of_getLsbD_eq; intro i hi
  interval_cases i <;> simp [field, packBR, place]

@[simp] theorem field_packBR_11_8 (cc : BitVec 4) (rel : BitVec 8) :
    field (packBR cc rel) 8 4 = (cc.extractLsb' 0 1).setWidth 4 <<< 3 ||| 0b110#4 := by
  apply BitVec.eq_of_getLsbD_eq; intro i hi
  interval_cases i <;> simp [field, packBR, place]

/-- What is read from a word of two bytes is what is read from the word. -/
theorem decodeBytes_of_word (w : Word) : decodeBytes [lowByte w, highByte w] = decode w := by
  have h : wordOfBytes (lowByte w) (highByte w) = w := by
    apply BitVec.eq_of_getLsbD_eq; intro i hi
    interval_cases i <;> simp [wordOfBytes, place, lowByte, highByte]
  simp [decodeBytes, h]

end Sys2Proof
end

