-- ==== Sys2Proof/Laws/Memory.lean ====
section
/-! SUPPORT. Read after write, and the canonical form, for bytes, words and marks. -/

namespace Sys2Proof.Machine

@[simp] theorem Memory.read_write_same (m : Memory) (a : Nat) (v : Byte) : (m.write a v).read a = some v := by
  induction m with
  | nil => simp [Memory.write, Memory.read]
  | cons c m ih =>
    obtain ⟨b, w⟩ := c
    unfold Memory.write
    split
    · simp [Memory.read]
    · split
      · simp [Memory.read]
      · rename_i h
        rw [Memory.read, if_neg (Ne.symm h)]
        exact ih

theorem Memory.read_write_other (m : Memory) {a b : Nat} (v : Byte) (h : b ≠ a) :
    (m.write a v).read b = m.read b := by
  induction m with
  | nil => simp [Memory.write, Memory.read, Ne.symm h]
  | cons c m ih =>
    obtain ⟨x, w⟩ := c
    unfold Memory.write
    split
    · simp [Memory.read, Ne.symm h]
    · split
      · subst x; simp [Memory.read, Ne.symm h]
      · simp [Memory.read, ih]

theorem Memory.read_write (m : Memory) (a b : Nat) (v : Byte) :
    (m.write a v).read b = if b = a then some v else m.read b := by
  split
  · subst b; simp
  · exact m.read_write_other v ‹_›

theorem Memory.above_write {m : Memory} {x a : Nat} (v : Byte) (hx : x < a) (hm : Memory.above x m = true) :
    Memory.above x (m.write a v) = true := by
  induction m with
  | nil => simp [Memory.write, Memory.above, hx]
  | cons c m ih =>
    obtain ⟨b, w⟩ := c
    simp only [Memory.above, List.all_cons, Bool.and_eq_true, decide_eq_true_eq] at hm ih ⊢
    unfold Memory.write
    split
    · simp [hx, hm.1]; simpa using hm.2
    · split
      · simp [hx]; simpa using hm.2
      · simp only [List.all_cons, Bool.and_eq_true, decide_eq_true_eq]
        exact ⟨hm.1, ih hm.2⟩

theorem Memory.above_mono {m : Memory} {x y : Nat} (h : x < y) (hm : Memory.above y m = true) :
    Memory.above x m = true := by
  simp only [Memory.above, List.all_eq_true, decide_eq_true_eq] at hm ⊢
  exact fun c hc => Nat.lt_trans h (hm c hc)

/-- A write of a byte keeps the canonical form. -/
theorem Memory.wf_write {m : Memory} (a : Nat) (v : Byte) (hm : Memory.wf m = true) :
    Memory.wf (m.write a v) = true := by
  induction m with
  | nil => simp [Memory.write, Memory.wf, Memory.above]
  | cons c m ih =>
    obtain ⟨b, w⟩ := c
    have hm' := hm
    simp only [Memory.wf, Bool.and_eq_true] at hm
    unfold Memory.write
    split
    · rename_i h
      simp only [Memory.wf, Bool.and_eq_true]
      refine ⟨?_, hm.1, hm.2⟩
      simp only [Memory.above, List.all_cons, Bool.and_eq_true, decide_eq_true_eq]
      exact ⟨h, Memory.above_mono h hm.1⟩
    · split
      · subst b; exact hm'
      · simp only [Memory.wf, Bool.and_eq_true]
        exact ⟨Memory.above_write v (by omega) hm.1, ih hm.2⟩

/-- A write of a word keeps the canonical form. -/
theorem Memory.wf_writeWord {m : Memory} (a : Nat) (v : Word) (hm : Memory.wf m = true) :
    Memory.wf (m.writeWord a v) = true :=
  Memory.wf_write _ _ (Memory.wf_write _ _ hm)

/-- Every byte after the write of a word. -/
theorem Memory.read_writeWord (m : Memory) (a b : Nat) (v : Word) :
    (m.writeWord a v).read b =
      if b = 2 * a then some (lowByte v) else if b = 2 * a + 1 then some (highByte v) else m.read b := by
  simp only [Memory.writeWord, Memory.read_write]
  by_cases h : b = 2 * a + 1
  · subst h; simp
  · simp [h]

theorem wordOfBytes_low_high (v : Word) : wordOfBytes (lowByte v) (highByte v) = v := by
  apply BitVec.eq_of_getLsbD_eq
  intro i hi
  interval_cases i <;> simp [wordOfBytes, place, lowByte, highByte]

/-- Every word after the write of a word. -/
theorem Memory.readWord_writeWord (m : Memory) (a b : Nat) (v : Word) :
    (m.writeWord a v).readWord b = if b = a then some v else m.readWord b := by
  simp only [Memory.readWord, Memory.read_writeWord]
  by_cases h : b = a
  · subst h; simp [wordOfBytes_low_high]
  · have h1 : 2 * b ≠ 2 * a := by omega
    have h2 : 2 * b ≠ 2 * a + 1 := by omega
    have h3 : 2 * b + 1 ≠ 2 * a := by omega
    have h4 : 2 * b + 1 ≠ 2 * a + 1 := by omega
    simp only [h, h1, h2, h3, h4, if_false]

theorem Marks.mem_add (m : Marks) (a b : Nat) : b ∈ Marks.add m a ↔ b = a ∨ b ∈ m := by
  induction m with
  | nil => simp [Marks.add]
  | cons x m ih =>
    unfold Marks.add
    split
    · simp
    · split
      · subst x; simp
      · simp [ih]; tauto

/-- Which words are marked after a mark is put on one. -/
theorem Marks.has_add (m : Marks) (a b : Nat) : (Marks.add m a).has b = (b == a || m.has b) := by
  rw [Bool.eq_iff_iff]
  simp [Marks.has, Marks.mem_add]

/-- Which words are marked after the mark is taken off one. -/
theorem Marks.has_remove (m : Marks) (a b : Nat) : (Marks.remove m a).has b = (b != a && m.has b) := by
  rw [Bool.eq_iff_iff]
  simp [Marks.has, Marks.remove, and_comm]

/-- Marking keeps the canonical form. -/
theorem Marks.wf_add {m : Marks} (a : Nat) (hm : Marks.wf m = true) : Marks.wf (Marks.add m a) = true := by
  induction m with
  | nil => simp [Marks.add, Marks.wf]
  | cons x m ih =>
    have hm' := hm
    simp only [Marks.wf, Bool.and_eq_true, List.all_eq_true, decide_eq_true_eq] at hm ih
    unfold Marks.add
    split
    · rename_i h
      simp only [Marks.wf, Bool.and_eq_true, List.all_eq_true, decide_eq_true_eq]
      refine ⟨?_, hm.1, hm.2⟩
      intro b hb
      rcases List.mem_cons.mp hb with rfl | hb
      · exact h
      · exact Nat.lt_trans h (hm.1 b hb)
    · split
      · exact hm'
      · simp only [Marks.wf, Bool.and_eq_true, List.all_eq_true, decide_eq_true_eq]
        refine ⟨?_, ih hm.2⟩
        intro b hb
        rcases (Marks.mem_add m a b).mp hb with rfl | hb
        · omega
        · exact hm.1 b hb

/-- Taking a mark off keeps the canonical form. -/
theorem Marks.wf_remove {m : Marks} (a : Nat) (hm : Marks.wf m = true) : Marks.wf (Marks.remove m a) = true := by
  induction m with
  | nil => simp [Marks.remove, Marks.wf]
  | cons x m ih =>
    simp only [Marks.wf, Bool.and_eq_true, List.all_eq_true, decide_eq_true_eq] at hm
    have ih := ih hm.2
    simp only [Marks.remove] at ih
    simp only [Marks.remove, List.filter_cons]
    split
    · simp only [Marks.wf, Bool.and_eq_true, List.all_eq_true, decide_eq_true_eq]
      exact ⟨fun b hb => hm.1 b (List.mem_filter.mp hb).1, ih⟩
    · exact ih

end Sys2Proof.Machine
end

