-- ==== Sys2Proof/Laws/State.lean ====
section
/-! SUPPORT. One lemma per field of State and per update of it, so that no proof unfolds a record update. -/

namespace Sys2Proof.Machine

/-! ### `State.setReg` -/

@[simp] theorem State.setReg_regs (s : State) (r : Reg) (v : Word) : (s.setReg r v).regs = s.regs.set r v := rfl
@[simp] theorem State.setReg_pc (s : State) (r : Reg) (v : Word) : (s.setReg r v).pc = s.pc := rfl
@[simp] theorem State.setReg_flags (s : State) (r : Reg) (v : Word) : (s.setReg r v).flags = s.flags := rfl
@[simp] theorem State.setReg_stack (s : State) (r : Reg) (v : Word) : (s.setReg r v).stack = s.stack := rfl
@[simp] theorem State.setReg_lc (s : State) (r : Reg) (v : Word) : (s.setReg r v).lc = s.lc := rfl
@[simp] theorem State.setReg_ls (s : State) (r : Reg) (v : Word) : (s.setReg r v).ls = s.ls := rfl
@[simp] theorem State.setReg_le (s : State) (r : Reg) (v : Word) : (s.setReg r v).le = s.le := rfl
@[simp] theorem State.setReg_pfx (s : State) (r : Reg) (v : Word) : (s.setReg r v).pfx = s.pfx := rfl
@[simp] theorem State.setReg_r0Prev (s : State) (r : Reg) (v : Word) : (s.setReg r v).r0Prev = s.r0Prev := rfl
@[simp] theorem State.setReg_run (s : State) (r : Reg) (v : Word) : (s.setReg r v).run = s.run := rfl
@[simp] theorem State.setReg_fault (s : State) (r : Reg) (v : Word) : (s.setReg r v).fault = s.fault := rfl
@[simp] theorem State.setReg_ram (s : State) (r : Reg) (v : Word) : (s.setReg r v).ram = s.ram := rfl
@[simp] theorem State.setReg_stored (s : State) (r : Reg) (v : Word) : (s.setReg r v).stored = s.stored := rfl
@[simp] theorem State.setReg_ioHistory (s : State) (r : Reg) (v : Word) :
    (s.setReg r v).ioHistory = s.ioHistory := rfl
@[simp] theorem State.setReg_cfg (s : State) (r : Reg) (v : Word) : (s.setReg r v).cfg = s.cfg := rfl
@[simp] theorem State.setReg_now (s : State) (r : Reg) (v : Word) : (s.setReg r v).now = s.now := rfl
@[simp] theorem State.setReg_inputs (s : State) (r : Reg) (v : Word) : (s.setReg r v).inputs = s.inputs := rfl
@[simp] theorem State.setReg_tick (s : State) (r : Reg) (v : Word) : (s.setReg r v).tick = s.tick := rfl

/-! ### `State.setFlags` -/

@[simp] theorem State.setFlags_regs (s : State) (f : Flags) : (s.setFlags f).regs = s.regs := rfl
@[simp] theorem State.setFlags_pc (s : State) (f : Flags) : (s.setFlags f).pc = s.pc := rfl
@[simp] theorem State.setFlags_flags (s : State) (f : Flags) : (s.setFlags f).flags = f := rfl
@[simp] theorem State.setFlags_stack (s : State) (f : Flags) : (s.setFlags f).stack = s.stack := rfl
@[simp] theorem State.setFlags_lc (s : State) (f : Flags) : (s.setFlags f).lc = s.lc := rfl
@[simp] theorem State.setFlags_ls (s : State) (f : Flags) : (s.setFlags f).ls = s.ls := rfl
@[simp] theorem State.setFlags_le (s : State) (f : Flags) : (s.setFlags f).le = s.le := rfl
@[simp] theorem State.setFlags_pfx (s : State) (f : Flags) : (s.setFlags f).pfx = s.pfx := rfl
@[simp] theorem State.setFlags_r0Prev (s : State) (f : Flags) : (s.setFlags f).r0Prev = s.r0Prev := rfl
@[simp] theorem State.setFlags_run (s : State) (f : Flags) : (s.setFlags f).run = s.run := rfl
@[simp] theorem State.setFlags_fault (s : State) (f : Flags) : (s.setFlags f).fault = s.fault := rfl
@[simp] theorem State.setFlags_ram (s : State) (f : Flags) : (s.setFlags f).ram = s.ram := rfl
@[simp] theorem State.setFlags_stored (s : State) (f : Flags) : (s.setFlags f).stored = s.stored := rfl
@[simp] theorem State.setFlags_ioHistory (s : State) (f : Flags) : (s.setFlags f).ioHistory = s.ioHistory := rfl
@[simp] theorem State.setFlags_cfg (s : State) (f : Flags) : (s.setFlags f).cfg = s.cfg := rfl
@[simp] theorem State.setFlags_now (s : State) (f : Flags) : (s.setFlags f).now = s.now := rfl
@[simp] theorem State.setFlags_inputs (s : State) (f : Flags) : (s.setFlags f).inputs = s.inputs := rfl
@[simp] theorem State.setFlags_tick (s : State) (f : Flags) : (s.setFlags f).tick = s.tick := rfl

/-! ### `State.storeWord` -/

@[simp] theorem State.storeWord_regs (s : State) (a v : Word) : (s.storeWord a v).regs = s.regs := rfl
@[simp] theorem State.storeWord_pc (s : State) (a v : Word) : (s.storeWord a v).pc = s.pc := rfl
@[simp] theorem State.storeWord_flags (s : State) (a v : Word) : (s.storeWord a v).flags = s.flags := rfl
@[simp] theorem State.storeWord_stack (s : State) (a v : Word) : (s.storeWord a v).stack = s.stack := rfl
@[simp] theorem State.storeWord_lc (s : State) (a v : Word) : (s.storeWord a v).lc = s.lc := rfl
@[simp] theorem State.storeWord_ls (s : State) (a v : Word) : (s.storeWord a v).ls = s.ls := rfl
@[simp] theorem State.storeWord_le (s : State) (a v : Word) : (s.storeWord a v).le = s.le := rfl
@[simp] theorem State.storeWord_pfx (s : State) (a v : Word) : (s.storeWord a v).pfx = s.pfx := rfl
@[simp] theorem State.storeWord_r0Prev (s : State) (a v : Word) : (s.storeWord a v).r0Prev = s.r0Prev := rfl
@[simp] theorem State.storeWord_run (s : State) (a v : Word) : (s.storeWord a v).run = s.run := rfl
@[simp] theorem State.storeWord_fault (s : State) (a v : Word) : (s.storeWord a v).fault = s.fault := rfl
@[simp] theorem State.storeWord_ram (s : State) (a v : Word) :
    (s.storeWord a v).ram = s.ram.writeWord a.toNat v := rfl
@[simp] theorem State.storeWord_stored (s : State) (a v : Word) :
    (s.storeWord a v).stored = s.stored.add a.toNat := rfl
@[simp] theorem State.storeWord_ioHistory (s : State) (a v : Word) : (s.storeWord a v).ioHistory = s.ioHistory := rfl
@[simp] theorem State.storeWord_cfg (s : State) (a v : Word) : (s.storeWord a v).cfg = s.cfg := rfl
@[simp] theorem State.storeWord_now (s : State) (a v : Word) : (s.storeWord a v).now = s.now := rfl
@[simp] theorem State.storeWord_inputs (s : State) (a v : Word) : (s.storeWord a v).inputs = s.inputs := rfl
@[simp] theorem State.storeWord_tick (s : State) (a v : Word) : (s.storeWord a v).tick = s.tick := rfl

/-! ### `State.logIo` -/

@[simp] theorem State.logIo_regs (s : State) (e : IoEvent) : (s.logIo e).regs = s.regs := rfl
@[simp] theorem State.logIo_pc (s : State) (e : IoEvent) : (s.logIo e).pc = s.pc := rfl
@[simp] theorem State.logIo_flags (s : State) (e : IoEvent) : (s.logIo e).flags = s.flags := rfl
@[simp] theorem State.logIo_stack (s : State) (e : IoEvent) : (s.logIo e).stack = s.stack := rfl
@[simp] theorem State.logIo_lc (s : State) (e : IoEvent) : (s.logIo e).lc = s.lc := rfl
@[simp] theorem State.logIo_ls (s : State) (e : IoEvent) : (s.logIo e).ls = s.ls := rfl
@[simp] theorem State.logIo_le (s : State) (e : IoEvent) : (s.logIo e).le = s.le := rfl
@[simp] theorem State.logIo_pfx (s : State) (e : IoEvent) : (s.logIo e).pfx = s.pfx := rfl
@[simp] theorem State.logIo_r0Prev (s : State) (e : IoEvent) : (s.logIo e).r0Prev = s.r0Prev := rfl
@[simp] theorem State.logIo_run (s : State) (e : IoEvent) : (s.logIo e).run = s.run := rfl
@[simp] theorem State.logIo_fault (s : State) (e : IoEvent) : (s.logIo e).fault = s.fault := rfl
@[simp] theorem State.logIo_ram (s : State) (e : IoEvent) : (s.logIo e).ram = s.ram := rfl
@[simp] theorem State.logIo_stored (s : State) (e : IoEvent) : (s.logIo e).stored = s.stored := rfl
@[simp] theorem State.logIo_ioHistory (s : State) (e : IoEvent) : (s.logIo e).ioHistory = s.ioHistory ++ [e] := rfl
@[simp] theorem State.logIo_cfg (s : State) (e : IoEvent) : (s.logIo e).cfg = s.cfg := rfl
@[simp] theorem State.logIo_now (s : State) (e : IoEvent) : (s.logIo e).now = s.now := rfl
@[simp] theorem State.logIo_inputs (s : State) (e : IoEvent) : (s.logIo e).inputs = s.inputs := rfl
@[simp] theorem State.logIo_tick (s : State) (e : IoEvent) : (s.logIo e).tick = s.tick := rfl

/-! ### `State.enterStandby` -/

@[simp] theorem State.enterStandby_regs (s : State) : (s.enterStandby).regs = standbyRegs s.tick := rfl
@[simp] theorem State.enterStandby_pc (s : State) : (s.enterStandby).pc = Config.standbyPc s.tick := rfl
@[simp] theorem State.enterStandby_flags (s : State) : (s.enterStandby).flags = standbyFlags s.tick := rfl
@[simp] theorem State.enterStandby_stack (s : State) : (s.enterStandby).stack = s.stack := rfl
@[simp] theorem State.enterStandby_lc (s : State) : (s.enterStandby).lc = s.lc := rfl
@[simp] theorem State.enterStandby_ls (s : State) : (s.enterStandby).ls = s.ls := rfl
@[simp] theorem State.enterStandby_le (s : State) : (s.enterStandby).le = s.le := rfl
@[simp] theorem State.enterStandby_pfx (s : State) : (s.enterStandby).pfx = none := rfl
@[simp] theorem State.enterStandby_r0Prev (s : State) : (s.enterStandby).r0Prev = none := rfl
@[simp] theorem State.enterStandby_run (s : State) : (s.enterStandby).run = .standby := rfl
@[simp] theorem State.enterStandby_fault (s : State) : (s.enterStandby).fault = s.fault := rfl
@[simp] theorem State.enterStandby_ram (s : State) : (s.enterStandby).ram = s.ram := rfl
@[simp] theorem State.enterStandby_stored (s : State) : (s.enterStandby).stored = s.stored := rfl
@[simp] theorem State.enterStandby_ioHistory (s : State) : (s.enterStandby).ioHistory = s.ioHistory := rfl
@[simp] theorem State.enterStandby_cfg (s : State) : (s.enterStandby).cfg = s.cfg := rfl
@[simp] theorem State.enterStandby_now (s : State) : (s.enterStandby).now = s.now := rfl
@[simp] theorem State.enterStandby_inputs (s : State) : (s.enterStandby).inputs = s.inputs := rfl
@[simp] theorem State.enterStandby_tick (s : State) : (s.enterStandby).tick = s.tick := rfl

/-! ### `State.wakeAt` -/

@[simp] theorem State.wakeAt_regs (s : State) (v : BitVec 3) : (s.wakeAt v).regs = s.regs := rfl
@[simp] theorem State.wakeAt_pc (s : State) (v : BitVec 3) :
    (s.wakeAt v).pc = BitVec.ofNat 16 (2 * (v.toNat % s.cfg.family.numVectors)) := rfl
@[simp] theorem State.wakeAt_flags (s : State) (v : BitVec 3) : (s.wakeAt v).flags = s.flags := rfl
@[simp] theorem State.wakeAt_stack (s : State) (v : BitVec 3) : (s.wakeAt v).stack = s.stack := rfl
@[simp] theorem State.wakeAt_lc (s : State) (v : BitVec 3) : (s.wakeAt v).lc = s.lc := rfl
@[simp] theorem State.wakeAt_ls (s : State) (v : BitVec 3) : (s.wakeAt v).ls = s.ls := rfl
@[simp] theorem State.wakeAt_le (s : State) (v : BitVec 3) : (s.wakeAt v).le = s.le := rfl
@[simp] theorem State.wakeAt_pfx (s : State) (v : BitVec 3) : (s.wakeAt v).pfx = s.pfx := rfl
@[simp] theorem State.wakeAt_r0Prev (s : State) (v : BitVec 3) : (s.wakeAt v).r0Prev = s.r0Prev := rfl
@[simp] theorem State.wakeAt_run (s : State) (v : BitVec 3) : (s.wakeAt v).run = .active := rfl
@[simp] theorem State.wakeAt_fault (s : State) (v : BitVec 3) : (s.wakeAt v).fault = s.fault := rfl
@[simp] theorem State.wakeAt_ram (s : State) (v : BitVec 3) : (s.wakeAt v).ram = s.ram := rfl
@[simp] theorem State.wakeAt_stored (s : State) (v : BitVec 3) : (s.wakeAt v).stored = s.stored := rfl
@[simp] theorem State.wakeAt_ioHistory (s : State) (v : BitVec 3) : (s.wakeAt v).ioHistory = s.ioHistory := rfl
@[simp] theorem State.wakeAt_cfg (s : State) (v : BitVec 3) : (s.wakeAt v).cfg = s.cfg := rfl
@[simp] theorem State.wakeAt_now (s : State) (v : BitVec 3) : (s.wakeAt v).now = s.now := rfl
@[simp] theorem State.wakeAt_inputs (s : State) (v : BitVec 3) : (s.wakeAt v).inputs = s.inputs := rfl
@[simp] theorem State.wakeAt_tick (s : State) (v : BitVec 3) : (s.wakeAt v).tick = s.tick := rfl

/-! ### `State.loopEnd` -/

@[simp] theorem State.loopEnd_regs (s : State) (n : Word) : (s.loopEnd n).regs = s.regs := by
  unfold State.loopEnd; split <;> rfl
@[simp] theorem State.loopEnd_flags (s : State) (n : Word) : (s.loopEnd n).flags = s.flags := by
  unfold State.loopEnd; split <;> rfl
@[simp] theorem State.loopEnd_stack (s : State) (n : Word) : (s.loopEnd n).stack = s.stack := by
  unfold State.loopEnd; split <;> rfl
@[simp] theorem State.loopEnd_ls (s : State) (n : Word) : (s.loopEnd n).ls = s.ls := by
  unfold State.loopEnd; split <;> rfl
@[simp] theorem State.loopEnd_le (s : State) (n : Word) : (s.loopEnd n).le = s.le := by
  unfold State.loopEnd; split <;> rfl
@[simp] theorem State.loopEnd_pfx (s : State) (n : Word) : (s.loopEnd n).pfx = s.pfx := by
  unfold State.loopEnd; split <;> rfl
@[simp] theorem State.loopEnd_r0Prev (s : State) (n : Word) : (s.loopEnd n).r0Prev = s.r0Prev := by
  unfold State.loopEnd; split <;> rfl
@[simp] theorem State.loopEnd_run (s : State) (n : Word) : (s.loopEnd n).run = s.run := by
  unfold State.loopEnd; split <;> rfl
@[simp] theorem State.loopEnd_fault (s : State) (n : Word) : (s.loopEnd n).fault = s.fault := by
  unfold State.loopEnd; split <;> rfl
@[simp] theorem State.loopEnd_ram (s : State) (n : Word) : (s.loopEnd n).ram = s.ram := by
  unfold State.loopEnd; split <;> rfl
@[simp] theorem State.loopEnd_stored (s : State) (n : Word) : (s.loopEnd n).stored = s.stored := by
  unfold State.loopEnd; split <;> rfl
@[simp] theorem State.loopEnd_ioHistory (s : State) (n : Word) : (s.loopEnd n).ioHistory = s.ioHistory := by
  unfold State.loopEnd; split <;> rfl
@[simp] theorem State.loopEnd_cfg (s : State) (n : Word) : (s.loopEnd n).cfg = s.cfg := by
  unfold State.loopEnd; split <;> rfl
@[simp] theorem State.loopEnd_now (s : State) (n : Word) : (s.loopEnd n).now = s.now := by
  unfold State.loopEnd; split <;> rfl
@[simp] theorem State.loopEnd_inputs (s : State) (n : Word) : (s.loopEnd n).inputs = s.inputs := by
  unfold State.loopEnd; split <;> rfl
@[simp] theorem State.loopEnd_tick (s : State) (n : Word) : (s.loopEnd n).tick = s.tick := by
  unfold State.loopEnd; split <;> rfl

/-! ### `State.retire` -/

@[simp] theorem State.retire_regs (s : State) (n : Word) (p : Option Byte) (l : Option Word) :
    (s.retire n p l).regs = s.regs := by
  simp [State.retire]
@[simp] theorem State.retire_flags (s : State) (n : Word) (p : Option Byte) (l : Option Word) :
    (s.retire n p l).flags = s.flags := by
  simp [State.retire]
@[simp] theorem State.retire_stack (s : State) (n : Word) (p : Option Byte) (l : Option Word) :
    (s.retire n p l).stack = s.stack := by
  simp [State.retire]
@[simp] theorem State.retire_ls (s : State) (n : Word) (p : Option Byte) (l : Option Word) :
    (s.retire n p l).ls = s.ls := by
  simp [State.retire]
@[simp] theorem State.retire_le (s : State) (n : Word) (p : Option Byte) (l : Option Word) :
    (s.retire n p l).le = s.le := by
  simp [State.retire]
@[simp] theorem State.retire_pfx (s : State) (n : Word) (p : Option Byte) (l : Option Word) :
    (s.retire n p l).pfx = p := by
  simp [State.retire]
@[simp] theorem State.retire_r0Prev (s : State) (n : Word) (p : Option Byte) (l : Option Word) :
    (s.retire n p l).r0Prev = l := by
  simp [State.retire]
@[simp] theorem State.retire_run (s : State) (n : Word) (p : Option Byte) (l : Option Word) :
    (s.retire n p l).run = s.run := by
  simp [State.retire]
@[simp] theorem State.retire_fault (s : State) (n : Word) (p : Option Byte) (l : Option Word) :
    (s.retire n p l).fault = s.fault := by
  simp [State.retire]
@[simp] theorem State.retire_ram (s : State) (n : Word) (p : Option Byte) (l : Option Word) :
    (s.retire n p l).ram = s.ram := by
  simp [State.retire]
@[simp] theorem State.retire_stored (s : State) (n : Word) (p : Option Byte) (l : Option Word) :
    (s.retire n p l).stored = s.stored := by
  simp [State.retire]
@[simp] theorem State.retire_ioHistory (s : State) (n : Word) (p : Option Byte) (l : Option Word) :
    (s.retire n p l).ioHistory = s.ioHistory := by
  simp [State.retire]
@[simp] theorem State.retire_cfg (s : State) (n : Word) (p : Option Byte) (l : Option Word) :
    (s.retire n p l).cfg = s.cfg := by
  simp [State.retire]
@[simp] theorem State.retire_now (s : State) (n : Word) (p : Option Byte) (l : Option Word) :
    (s.retire n p l).now = s.now := by
  simp [State.retire]
@[simp] theorem State.retire_inputs (s : State) (n : Word) (p : Option Byte) (l : Option Word) :
    (s.retire n p l).inputs = s.inputs := by
  simp [State.retire]
@[simp] theorem State.retire_tick (s : State) (n : Word) (p : Option Byte) (l : Option Word) :
    (s.retire n p l).tick = s.tick := by
  simp [State.retire]

/-! ### `State.agentWrite` -/

@[simp] theorem State.agentWrite_regs (s : State) (w : Word × Word) : (s.agentWrite w).regs = s.regs := by
  unfold State.agentWrite; split <;> rfl
@[simp] theorem State.agentWrite_pc (s : State) (w : Word × Word) : (s.agentWrite w).pc = s.pc := by
  unfold State.agentWrite; split <;> rfl
@[simp] theorem State.agentWrite_flags (s : State) (w : Word × Word) : (s.agentWrite w).flags = s.flags := by
  unfold State.agentWrite; split <;> rfl
@[simp] theorem State.agentWrite_stack (s : State) (w : Word × Word) : (s.agentWrite w).stack = s.stack := by
  unfold State.agentWrite; split <;> rfl
@[simp] theorem State.agentWrite_lc (s : State) (w : Word × Word) : (s.agentWrite w).lc = s.lc := by
  unfold State.agentWrite; split <;> rfl
@[simp] theorem State.agentWrite_ls (s : State) (w : Word × Word) : (s.agentWrite w).ls = s.ls := by
  unfold State.agentWrite; split <;> rfl
@[simp] theorem State.agentWrite_le (s : State) (w : Word × Word) : (s.agentWrite w).le = s.le := by
  unfold State.agentWrite; split <;> rfl
@[simp] theorem State.agentWrite_pfx (s : State) (w : Word × Word) : (s.agentWrite w).pfx = s.pfx := by
  unfold State.agentWrite; split <;> rfl
@[simp] theorem State.agentWrite_r0Prev (s : State) (w : Word × Word) : (s.agentWrite w).r0Prev = s.r0Prev := by
  unfold State.agentWrite; split <;> rfl
@[simp] theorem State.agentWrite_run (s : State) (w : Word × Word) : (s.agentWrite w).run = s.run := by
  unfold State.agentWrite; split <;> rfl
@[simp] theorem State.agentWrite_fault (s : State) (w : Word × Word) : (s.agentWrite w).fault = s.fault := by
  unfold State.agentWrite; split <;> rfl
@[simp] theorem State.agentWrite_ioHistory (s : State) (w : Word × Word) :
    (s.agentWrite w).ioHistory = s.ioHistory := by
  unfold State.agentWrite; split <;> rfl
@[simp] theorem State.agentWrite_cfg (s : State) (w : Word × Word) : (s.agentWrite w).cfg = s.cfg := by
  unfold State.agentWrite; split <;> rfl
@[simp] theorem State.agentWrite_now (s : State) (w : Word × Word) : (s.agentWrite w).now = s.now := by
  unfold State.agentWrite; split <;> rfl
@[simp] theorem State.agentWrite_inputs (s : State) (w : Word × Word) : (s.agentWrite w).inputs = s.inputs := by
  unfold State.agentWrite; split <;> rfl
@[simp] theorem State.agentWrite_tick (s : State) (w : Word × Word) : (s.agentWrite w).tick = s.tick := by
  unfold State.agentWrite; split <;> rfl

/-! ### `State.sample`: the environment changes AUX RAM and the marks, and the model's own fields -/

theorem agentWrites_keep {α : Type} (f : State → α) (hf : ∀ s w, f (State.agentWrite s w) = f s) (ws : List (Word × Word)) :
    ∀ s : State, f (ws.foldl State.agentWrite s) = f s := by
  induction ws with
  | nil => intro s; rfl
  | cons w ws ih => intro s; rw [List.foldl_cons, ih, hf]

@[simp] theorem State.sample_regs (s : State) : s.sample.regs = s.regs :=
  agentWrites_keep State.regs (fun _ _ => by simp) _ _
@[simp] theorem State.sample_pc (s : State) : s.sample.pc = s.pc :=
  agentWrites_keep State.pc (fun _ _ => by simp) _ _
@[simp] theorem State.sample_flags (s : State) : s.sample.flags = s.flags :=
  agentWrites_keep State.flags (fun _ _ => by simp) _ _
@[simp] theorem State.sample_stack (s : State) : s.sample.stack = s.stack :=
  agentWrites_keep State.stack (fun _ _ => by simp) _ _
@[simp] theorem State.sample_lc (s : State) : s.sample.lc = s.lc :=
  agentWrites_keep State.lc (fun _ _ => by simp) _ _
@[simp] theorem State.sample_ls (s : State) : s.sample.ls = s.ls :=
  agentWrites_keep State.ls (fun _ _ => by simp) _ _
@[simp] theorem State.sample_le (s : State) : s.sample.le = s.le :=
  agentWrites_keep State.le (fun _ _ => by simp) _ _
@[simp] theorem State.sample_pfx (s : State) : s.sample.pfx = s.pfx :=
  agentWrites_keep State.pfx (fun _ _ => by simp) _ _
@[simp] theorem State.sample_r0Prev (s : State) : s.sample.r0Prev = s.r0Prev :=
  agentWrites_keep State.r0Prev (fun _ _ => by simp) _ _
@[simp] theorem State.sample_run (s : State) : s.sample.run = s.run :=
  agentWrites_keep State.run (fun _ _ => by simp) _ _
@[simp] theorem State.sample_fault (s : State) : s.sample.fault = s.fault :=
  agentWrites_keep State.fault (fun _ _ => by simp) _ _
@[simp] theorem State.sample_ioHistory (s : State) : s.sample.ioHistory = s.ioHistory :=
  agentWrites_keep State.ioHistory (fun _ _ => by simp) _ _
@[simp] theorem State.sample_cfg (s : State) : s.sample.cfg = s.cfg :=
  agentWrites_keep State.cfg (fun _ _ => by simp) _ _
@[simp] theorem State.sample_now (s : State) : s.sample.now = s.nextInput :=
  agentWrites_keep State.now (fun _ _ => by simp) _ _
@[simp] theorem State.sample_inputs (s : State) : s.sample.inputs = s.inputs.tail :=
  agentWrites_keep State.inputs (fun _ _ => by simp) _ _
@[simp] theorem State.sample_tick (s : State) : s.sample.tick = s.tick + 1 :=
  agentWrites_keep State.tick (fun _ _ => by simp) _ _

end Sys2Proof.Machine
end

