-- ==== Sys2Proof/Laws/Ops.lean ====
section
/-! SUPPORT. One lemma per shared operation that says once everything it can do. -/

namespace Sys2Proof.Machine

/-! ### Registers -/

/-- Every register after the write of one. -/
theorem Regs.get_set (x : Regs) (d r : Reg) (v : Word) : (x.set d v).get r = if r = d then v else x.get r := by
  cases d <;> cases r <;> rfl

@[simp] theorem Regs.get_set_same (x : Regs) (d : Reg) (v : Word) : (x.set d v).get d = v := by
  simp [Regs.get_set]

theorem Regs.get_set_other (x : Regs) {d r : Reg} (v : Word) (h : r ≠ d) : (x.set d v).get r = x.get r := by
  simp [Regs.get_set, h]

/-- Every register read after the write of one. -/
theorem State.reg_setReg (s : State) (d r : Reg) (v : Word) : (s.setReg d v).reg r = if r = d then v else s.reg r :=
  Regs.get_set _ _ _ _

/-- Two states with the same registers read the same. -/
theorem State.reg_congr {s t : State} (h : t.regs = s.regs) (r : Reg) : t.reg r = s.reg r := by
  simp [State.reg, h]

/-! ### Results -/

/-- A primitive that may fault, and what follows it: either it faults, or what follows runs on its value. -/
theorem onOk_next {α : Type} {r : Except Fault α} {k : α → Result} {t : State} :
    onOk r k = .next t ↔ ∃ v, r = .ok v ∧ k v = .next t := by
  cases r <;> simp [onOk]

@[simp] theorem onOk_ok {α : Type} (v : α) (k : α → Result) : onOk (.ok v) k = k v := rfl
@[simp] theorem onOk_error {α : Type} (f : Fault) (k : α → Result) : onOk (.error f) k = .fault f := rfl

/-- The checks before an instruction: it runs exactly when no prefix is misplaced and no end of a loop forbids it. -/
theorem State.checked_next {s t : State} {k : InstrClass} {body : Result} :
    s.checked k body = .next t ↔
      (s.pfx = none ∨ k.takesPfix = true) ∧ (s.atLoopEnd = false ∨ k.notAtLoopEnd = false) ∧ body = .next t := by
  unfold State.checked
  cases s.pfx <;> cases s.atLoopEnd <;> cases k.takesPfix <;> cases k.notAtLoopEnd <;> simp

/-- Where the checks pass, the instruction is its own rule. -/
theorem State.checked_pass {s : State} {k : InstrClass} {body : Result} (hp : s.pfx = none ∨ k.takesPfix = true)
    (hl : s.atLoopEnd = false ∨ k.notAtLoopEnd = false) : s.checked k body = body := by
  unfold State.checked
  rcases hp with hp | hp <;> rcases hl with hl | hl <;> simp [hp, hl]

/-- A misplaced prefix faults first. -/
theorem State.checked_prefixMisuse {s : State} {k : InstrClass} {body : Result} (hp : s.pfx.isSome = true)
    (hk : k.takesPfix = false) : s.checked k body = .fault .prefixMisuse := by
  simp [State.checked, hp, hk]

/-- Then the end of an active loop. -/
theorem State.checked_loopEnd {s : State} {k : InstrClass} {body : Result} (hp : s.pfx = none ∨ k.takesPfix = true)
    (hl : s.atLoopEnd = true) (hk : k.notAtLoopEnd = true) : s.checked k body = .fault .loopEndFlowControl := by
  unfold State.checked
  rcases hp with hp | hp <;> simp [hp, hl, hk]

/-- The checks never refuse. -/
theorem State.checked_not_refused {s : State} {k : InstrClass} {body : Result} {r : Refusal}
    (h : body ≠ .refused r) : s.checked k body ≠ .refused r := by
  unfold State.checked
  split
  · simp
  · split
    · simp
    · exact h

theorem onOk_not_refused {α : Type} {x : Except Fault α} {k : α → Result} {r : Refusal}
    (h : ∀ v, k v ≠ .refused r) : onOk x k ≠ .refused r := by
  cases x <;> simp [onOk, h]

/-! ### The common tail -/

/-- The tail at the end of an active loop, and elsewhere. -/
theorem State.loopEnd_spec (s : State) (next : Word) :
    (s.loopEnd next).lc = (if s.atLoopEnd = true then s.lc - 1 else s.lc) ∧
      (s.loopEnd next).pc = if s.atLoopEnd = true ∧ s.lc - 1 ≠ 0#8 then s.ls else next := by
  unfold State.loopEnd
  by_cases h : s.atLoopEnd = true <;> simp [h]

/-- The loop counter and `pc` after the common tail. -/
theorem State.retire_spec (s : State) (next : Word) (p : Option Byte) (l : Option Word) :
    (s.retire next p l).lc = (if s.atLoopEnd = true then s.lc - 1 else s.lc) ∧
      (s.retire next p l).pc = if s.atLoopEnd = true ∧ s.lc - 1 ≠ 0#8 then s.ls else next :=
  State.loopEnd_spec { s with pfx := p, r0Prev := l } next

/-- `atLoopEnd` as R222 words it. -/
theorem State.atLoopEnd_iff (s : State) : s.atLoopEnd = true ↔ s.lc ≠ 0#8 ∧ s.pc = s.le := by
  simp [State.atLoopEnd]

@[simp] theorem State.retire_reg (s : State) (next : Word) (p : Option Byte) (l : Option Word) (r : Reg) :
    (s.retire next p l).reg r = s.reg r := State.reg_congr (State.retire_regs ..) r

@[simp] theorem State.advance_next (s t : State) (l : Option Word) :
    s.advance l = .next t ↔ s.retire s.nextPc none l = t := by
  simp [State.advance]

@[simp] theorem State.goTo_next (s t : State) (a : Word) : s.goTo a = .next t ↔ s.retire a = t := by
  simp [State.goTo]

/-! ### AUX RAM -/

/-- A load: the word's value, or the reason there is none. -/
theorem State.memRead_cases (s : State) (a : Word) :
    (a.toNat < s.ramWords ∧ ∃ v, s.ram.readWord a.toNat = some v ∧ s.memRead a = .ok v) ∨
      (a.toNat < s.ramWords ∧ s.ram.readWord a.toNat = none ∧ s.memRead a = .error .unwrittenRead) ∨
      (s.ramWords ≤ a.toNat ∧ s.memRead a = .error .memRange) := by
  unfold State.memRead
  by_cases h : s.ramWords ≤ a.toNat
  · simp [h]
  · cases s.ram.readWord a.toNat <;> simp [h, Nat.lt_of_not_le h]

theorem State.memRead_ok {s : State} {a v : Word} :
    s.memRead a = .ok v ↔ a.toNat < s.ramWords ∧ s.ram.readWord a.toNat = some v := by
  rcases s.memRead_cases a with ⟨h, w, hw, hr⟩ | ⟨h, hw, hr⟩ | ⟨h, hr⟩
  · simp [h, hw, hr]
  · simp [hw, hr]
  · simp [hr, Nat.not_lt.mpr h]

/-- A store changes AUX RAM and the marks, inside AUX RAM. -/
theorem State.memWrite_ok {s t : State} {a v : Word} :
    s.memWrite a v = .ok t ↔ a.toNat < s.ramWords ∧ s.storeWord a v = t := by
  unfold State.memWrite
  by_cases h : s.ramWords ≤ a.toNat
  · simp [h, Nat.not_lt.mpr h]
  · simp [h, Nat.lt_of_not_le h]

/-- A fetch: the word's value, or the first of the three reasons of R252. -/
theorem State.fetch_ok {s : State} {w : Word} :
    s.fetch = .ok w ↔
      s.pc.toNat < s.ramWords ∧ s.stored.has s.pc.toNat = false ∧ s.ram.readWord s.pc.toNat = some w := by
  unfold State.fetch
  by_cases h : s.ramWords ≤ s.pc.toNat
  · simp [h, Nat.not_lt.mpr h]
  · cases s.stored.has s.pc.toNat <;> cases s.ram.readWord s.pc.toNat <;> simp [h, Nat.lt_of_not_le h]

/-- Everything a load instruction's own rule can do when it goes on. -/
theorem State.loadFrom_next {s t : State} {d : Reg} {ea : Word} {after : State → State}
    (h : s.loadFrom d ea after = .next t) :
    ∃ v, ea.toNat < s.ramWords ∧ s.ram.readWord ea.toNat = some v ∧
      t = (after (s.setReg d v)).retire (after (s.setReg d v)).nextPc none (s.loadLatch d) := by
  obtain ⟨v, hr, hk⟩ := onOk_next.mp h
  obtain ⟨hb, hw⟩ := State.memRead_ok.mp hr
  exact ⟨v, hb, hw, ((State.advance_next _ _ _).mp hk).symm⟩

/-- Everything a store instruction's own rule can do when it goes on. -/
theorem State.storeTo_next {s t : State} {ea v : Word} {after : State → State}
    (h : s.storeTo ea v after = .next t) :
    ea.toNat < s.ramWords ∧ t = (after (s.storeWord ea v)).retire (after (s.storeWord ea v)).nextPc := by
  obtain ⟨u, hr, hk⟩ := onOk_next.mp h
  obtain ⟨hb, rfl⟩ := State.memWrite_ok.mp hr
  exact ⟨hb, ((State.advance_next _ _ _).mp hk).symm⟩

/-! ### I/O -/

theorem ioAddrOk_iff (a : Word) : ioAddrOk a = true ↔ a.toNat ≤ 255 ∨ a.toNat % 2 = 0 := by
  have h : a.getLsbD 0 = decide (a.toNat % 2 = 1) := by
    simp [BitVec.getLsbD, Nat.testBit_zero]
  simp only [ioAddrOk, h, Bool.or_eq_true, decide_eq_true_eq, Bool.not_eq_true', decide_eq_false_iff_not]
  omega

/-- An I/O access is answered exactly at an allowed address that the environment has. -/
theorem State.ioAnswer_ok {s : State} {a v : Word} :
    s.ioAnswer a = .ok v ↔ (a.toNat ≤ 255 ∨ a.toNat % 2 = 0) ∧ s.now.io = .mapped v := by
  rw [← ioAddrOk_iff]
  unfold State.ioAnswer
  cases ioAddrOk a <;> cases s.now.io <;> simp

/-- Everything a 16-bit read of the I/O space can do when it goes on. -/
theorem State.inputFrom_next {s t : State} {d : Reg} {a : Word} (h : s.inputFrom d a = .next t) :
    ∃ v, s.ioAnswer a = .ok v ∧
      t = ((s.logIo (.read16 a v)).setReg d v).retire ((s.logIo (.read16 a v)).setReg d v).nextPc none
        (s.loadLatch d) := by
  obtain ⟨v, hr, hk⟩ := onOk_next.mp h
  exact ⟨v, hr, ((State.advance_next _ _ _).mp hk).symm⟩

/-- Everything a 16-bit write of the I/O space can do when it goes on. -/
theorem State.outputTo_next {s t : State} {a v : Word} (h : s.outputTo a v = .next t) :
    (∃ x, s.ioAnswer a = .ok x) ∧
      t = (s.logIo (.write16 a v)).retire (s.logIo (.write16 a v)).nextPc := by
  obtain ⟨x, hr, hk⟩ := onOk_next.mp h
  exact ⟨⟨x, hr⟩, ((State.advance_next _ _ _).mp hk).symm⟩

/-- The history after one more access leaves a plain register as that access does (R57). -/
theorem plainReg_append (history : List IoEvent) (e : IoEvent) (a init : Word) :
    plainReg (history ++ [e]) a init =
      if e.addr = a then e.plainWrite (plainReg history a init) else plainReg history a init := by
  simp [plainReg]

/-! ### Stack, calls, loops -/

/-- A push succeeds to a depth of three. -/
theorem State.push_ok {s t : State} {v : Word} :
    s.push v = .ok t ↔ s.stack.length < 3 ∧ { s with stack := v :: s.stack } = t := by
  unfold State.push
  by_cases h : 3 ≤ s.stack.length
  · simp [h, Nat.not_lt.mpr h]
  · simp [h, Nat.lt_of_not_le h]

/-- A pop gives the most recent entry. -/
theorem State.pop_ok {s t : State} {v : Word} :
    s.pop = .ok (v, t) ↔ ∃ rest, s.stack = v :: rest ∧ { s with stack := rest } = t := by
  unfold State.pop
  cases h : s.stack with
  | nil => simp
  | cons w rest => simp

/-- Everything a call can do when it goes on. -/
theorem State.call_next {s t : State} {a : Word} :
    s.call a = .next t ↔
      s.stack.length < 3 ∧ State.retire { s with stack := s.nextPc :: s.stack } a = t := by
  unfold State.call
  rw [onOk_next]
  constructor
  · rintro ⟨u, hu, ht⟩
    obtain ⟨hl, rfl⟩ := State.push_ok.mp hu
    exact ⟨hl, by simpa using ht⟩
  · rintro ⟨hl, ht⟩
    exact ⟨_, State.push_ok.mpr ⟨hl, rfl⟩, by simpa using ht⟩

/-- Everything a relative branch can do when it goes on. -/
theorem State.branchIf_next {s t : State} {taken : Bool} {rel : BitVec 8} :
    s.branchIf taken rel = .next t ↔
      s.pfx = none ∧ s.atLoopEnd = false ∧
        s.retire (if taken = true then s.branchTarget rel else s.nextPc) = t := by
  unfold State.branchIf
  rw [State.checked_next]
  simp [flowClass]

/-- Everything the start of a loop can do when it goes on. -/
theorem State.startLoop_next {s t : State} {n rel : BitVec 8} :
    s.startLoop n rel = .next t ↔
      0 < rel.toInt ∧ State.retire { s with lc := n, ls := s.nextPc, le := s.pc + sext rel } s.nextPc = t := by
  unfold State.startLoop
  by_cases h : rel.toInt ≤ 0
  · simp [h, Int.not_lt.mpr h]
  · simp [h, Int.lt_of_not_ge h, State.nextPc]

/-! ### The environment -/

/-- One write of another agent: the word it names, and its mark in Standby. -/
theorem State.agentWrite_spec (s : State) (w : Word × Word) :
    (s.ramWords ≤ w.1.toNat → s.agentWrite w = s) ∧
      (w.1.toNat < s.ramWords → (s.agentWrite w).ram = s.ram.writeWord w.1.toNat w.2 ∧
        (s.agentWrite w).stored = if s.run = .standby then s.stored.remove w.1.toNat else s.stored) := by
  unfold State.agentWrite
  constructor
  · intro h; simp [h]
  · intro h; simp [Nat.not_le.mpr h]

@[simp] theorem State.sample_ramWords (s : State) : s.sample.ramWords = s.ramWords := by simp [State.ramWords]

/-- The input of the next step, for the two forms of the list. -/
theorem State.nextInput_spec (s : State) :
    (∀ i rest, s.inputs = i :: rest → s.nextInput = i) ∧ (s.inputs = [] → s.nextInput = freeInput s.tick) := by
  unfold State.nextInput
  exact ⟨fun i rest h => by rw [h]; rfl, fun h => by rw [h]; rfl⟩

@[simp] theorem State.placeWord_nextInput (s : State) (w : Word) :
    (s.placeWord w).nextInput = { s.nextInput with ramWrites := [] } := rfl

/-- The step after a word was placed fetches that word, whatever the inputs are. -/
theorem State.placeWord_fetch (s : State) (w : Word) : (s.placeWord w).sample.fetch = .ok w := by
  have hs : (s.placeWord w).sample.ram = (s.placeWord w).ram ∧
      (s.placeWord w).sample.stored = (s.placeWord w).stored := ⟨rfl, rfl⟩
  rw [State.fetch_ok, State.sample_ramWords, State.sample_pc, hs.1, hs.2]
  refine ⟨?_, by simp [State.placeWord, Marks.has_remove], by simp [State.placeWord, Memory.readWord_writeWord]⟩
  show (if s.ramWords ≤ s.pc.toNat then (0 : Word) else s.pc).toNat < s.ramWords
  split
  · unfold State.ramWords Family.ramWords; cases s.cfg.family <;> decide
  · omega

/-- Packages the induction over another agent's writes: what one write keeps, all of them keep. -/
theorem agentWrites_invariant (P : State → Prop) (h : ∀ s w, P s → P (s.agentWrite w)) (ws : List (Word × Word)) :
    ∀ s, P s → P (ws.foldl State.agentWrite s) := by
  induction ws with
  | nil => exact fun s hs => hs
  | cons w ws ih => exact fun s hs => ih _ (h s w hs)

/-- The wake-up, or the wait for one. -/
theorem State.standbyStep_cases (s : State) :
    (∃ v, s.now.wake = some v ∧ s.standbyStep = s.wakeAt v) ∨ (s.now.wake = none ∧ s.standbyStep = s) := by
  unfold State.standbyStep
  cases s.now.wake <;> simp

end Sys2Proof.Machine
end

