-- ==== Sys2Proof/Laws/Exec.lean ====
section
/-! SUPPORT. What any instruction can do when it goes on, said once: six shapes of the next state. -/

namespace Sys2Proof.Machine

/-- The shapes of an instruction's next state. -/
inductive Effect (s t : State) : Prop where
  /-- Registers, flags and at most one I/O access, then the common tail. -/
  | wrote (r : Regs) (f : Flags) (io : List IoEvent) (n : Word) (p : Option Byte) (l : Option Word)
      (hio : io.length ≤ 1)
      (ht : t = State.retire { s with regs := r, flags := f, ioHistory := s.ioHistory ++ io } n p l)
  /-- One word stored inside AUX RAM, and registers. -/
  | stored (a v : Word) (r : Regs) (ha : a.toNat < s.ramWords)
      (ht : t = State.retire { s.storeWord a v with regs := r } s.nextPc)
  /-- A call or a return. -/
  | stacked (st : List Word) (n : Word) (hst : st.length ≤ max 3 s.stack.length)
      (ht : t = State.retire { s with stack := st } n)
  /-- The start of a loop. -/
  | looped (lc : BitVec 8) (ls le : Word)
      (ht : t = State.retire { s with lc := lc, ls := ls, le := le } s.nextPc)
  /-- A wait that holds. -/
  | held (ht : t = s)
  /-- `sleep`. -/
  | slept (hs : s.stack = []) (hl : s.lc = 0#8) (hp : s.pfx = none) (ht : t = s.enterStandby)

theorem effect_of_wrote {s t : State} (u : State) (n : Word) (p : Option Byte) (l : Option Word)
    (hu : u = { s with regs := u.regs, flags := u.flags, ioHistory := s.ioHistory }) (ht : u.retire n p l = t) :
    Effect s t :=
  .wrote u.regs u.flags [] n p l (by simp) (by rw [← ht, hu]; simp)

theorem effect_of_access {s t : State} (u : State) (e : IoEvent) (n : Word) (p : Option Byte) (l : Option Word)
    (hu : u = { s with regs := u.regs, flags := u.flags, ioHistory := s.ioHistory ++ [e] })
    (ht : t = u.retire n p l) : Effect s t :=
  .wrote u.regs u.flags [e] n p l (by simp) (by rw [ht, hu])

theorem effect_of_load {s t : State} {d : Reg} {ea : Word} {k : InstrClass}
    (h : s.checked k (s.loadFrom d ea id) = .next t) : Effect s t := by
  obtain ⟨_, _, h⟩ := State.checked_next.mp h
  obtain ⟨v, _, _, rfl⟩ := State.loadFrom_next h
  exact effect_of_wrote (s.setReg d v) _ _ _ rfl rfl

theorem effect_of_store {s t : State} {ea v : Word} {k : InstrClass}
    (h : s.checked k (s.storeTo ea v id) = .next t) : Effect s t := by
  obtain ⟨_, _, h⟩ := State.checked_next.mp h
  obtain ⟨ha, rfl⟩ := State.storeTo_next h
  exact .stored ea v s.regs ha rfl

theorem effect_of_input {s t : State} {d : Reg} {a : Word} {k : InstrClass}
    (h : s.checked k (s.inputFrom d a) = .next t) : Effect s t := by
  obtain ⟨_, _, h⟩ := State.checked_next.mp h
  obtain ⟨v, _, rfl⟩ := State.inputFrom_next h
  exact effect_of_access ((s.logIo (.read16 a v)).setReg d v) _ _ _ _ rfl rfl

theorem effect_of_output {s t : State} {a v : Word} {k : InstrClass}
    (h : s.checked k (s.outputTo a v) = .next t) : Effect s t := by
  obtain ⟨_, _, h⟩ := State.checked_next.mp h
  obtain ⟨_, rfl⟩ := State.outputTo_next h
  exact effect_of_access (s.logIo (.write16 a v)) _ _ _ _ rfl rfl

/-- An instruction whose own rule writes registers and flags only. -/
theorem effect_of_advance {s t : State} {k : InstrClass} (u : State) {l : Option Word}
    (hu : u = { s with regs := u.regs, flags := u.flags, ioHistory := s.ioHistory })
    (h : s.checked k (u.advance l) = .next t) : Effect s t := by
  obtain ⟨_, _, h⟩ := State.checked_next.mp h
  exact effect_of_wrote u _ _ _ hu ((State.advance_next _ _ _).mp h)

theorem effect_of_goTo {s t : State} {k : InstrClass} {a : Word} (h : s.checked k (s.goTo a) = .next t) :
    Effect s t := by
  obtain ⟨_, _, h⟩ := State.checked_next.mp h
  exact effect_of_wrote s _ _ _ rfl ((State.goTo_next _ _ _).mp h)

theorem effect_of_call {s t : State} {k : InstrClass} {a : Word} (h : s.checked k (s.call a) = .next t) :
    Effect s t := by
  obtain ⟨_, _, h⟩ := State.checked_next.mp h
  obtain ⟨hl, rfl⟩ := State.call_next.mp h
  exact .stacked (s.nextPc :: s.stack) a (by simp only [List.length_cons]; omega) rfl

theorem effect_of_branch {s t : State} {b : Bool} {rel : BitVec 8} (h : s.branchIf b rel = .next t) : Effect s t :=
  effect_of_goTo h

theorem effect_of_startLoop {s t : State} {n rel : BitVec 8} (h : s.startLoop n rel = .next t) : Effect s t := by
  obtain ⟨_, rfl⟩ := State.startLoop_next.mp h
  exact .looped n s.nextPc (s.pc + sext rel) rfl

theorem effect_of_wait {s t : State} {k : InstrClass} {b : Bool} (h : s.checked k (s.waitFor b) = .next t) :
    Effect s t := by
  obtain ⟨_, _, h⟩ := State.checked_next.mp h
  unfold State.waitFor at h
  cases b
  · exact .held (by simpa using h.symm)
  · exact effect_of_wrote s _ _ _ rfl (by simpa using h)

/-- Everything an instruction that the decoder answers can do when it goes on. -/
theorem execDecoded_effect {i : Instr} {s t : State} (h : execDecoded i s = .next t) : Effect s t := by
  cases i with
  | ldDirect | ldInd | ldIndexed => exact effect_of_load h
  | ldPostInc d b =>
    obtain ⟨_, _, h⟩ := State.checked_next.mp h
    split at h
    · cases h
    · obtain ⟨v, _, _, rfl⟩ := State.loadFrom_next h
      exact effect_of_wrote ((s.setReg d v).setReg b (s.reg b + 1)) _ _ _ rfl rfl
  | stDirect | stInd | stIndexed => exact effect_of_store h
  | stPostInc d b =>
    obtain ⟨_, _, h⟩ := State.checked_next.mp h
    obtain ⟨ha, rfl⟩ := State.storeTo_next h
    exact .stored (s.reg b) (s.reg d) (s.regs.set b (s.reg b + 1)) ha rfl
  | inDirect | inInd => exact effect_of_input h
  | outDirect | outInd => exact effect_of_output h
  | iobclr bit addr =>
    obtain ⟨_, _, h⟩ := State.checked_next.mp h
    obtain ⟨_, _, h⟩ := onOk_next.mp h
    exact effect_of_access (s.logIo (.bitClr (s.imm8u addr) bit)) _ _ _ _ rfl ((State.advance_next _ _ _).mp h).symm
  | iobset bit addr =>
    obtain ⟨_, _, h⟩ := State.checked_next.mp h
    obtain ⟨_, _, h⟩ := onOk_next.mp h
    exact effect_of_access (s.logIo (.bitSet (s.imm8u addr) bit)) _ _ _ _ rfl ((State.advance_next _ _ _).mp h).symm
  | iobtst bit addr =>
    obtain ⟨_, _, h⟩ := State.checked_next.mp h
    obtain ⟨v, _, h⟩ := onOk_next.mp h
    exact effect_of_access ((s.logIo (.bitTest (s.imm8u addr) bit (v.getLsbD bit.toNat))).setFlags
      { s.flags with c := v.getLsbD bit.toNat }) _ _ _ _ rfl ((State.advance_next _ _ _).mp h).symm
  | ldImm | ldReg | andImm | orImm | xorImm | tstImm | andReg | orReg | xorReg | tstReg | inv | addImm | cmpImm
  | subReg | addReg | cmpReg | subrReg | abs | neg | lslReg | lsrReg | asrReg | lslImm | lsrImm | asrImm | nop =>
    exact effect_of_advance _ rfl h
  | jmp | jmpR0 => exact effect_of_goTo h
  | jsr | jsrR0 => exact effect_of_call h
  | rts =>
    obtain ⟨_, _, h⟩ := State.checked_next.mp h
    obtain ⟨⟨v, u⟩, hp, h⟩ := onOk_next.mp h
    obtain ⟨rest, hs, rfl⟩ := State.pop_ok.mp hp
    exact .stacked rest v (by rw [hs, List.length_cons]; omega) ((State.goTo_next _ _ _).mp h).symm
  | bra | bgtu | bgeu | beq | bnovf | bpos | bges | bgts | bleu | bltu | bneq | bovf | bneg | blts | bles | bev0
  | bev1 => exact effect_of_branch h
  | loopR1 =>
    obtain ⟨_, _, h⟩ := State.checked_next.mp h
    split at h
    · cases h
    · exact effect_of_startLoop h
  | loopImm =>
    obtain ⟨_, _, h⟩ := State.checked_next.mp h
    exact effect_of_startLoop h
  | wev0 | wev1 => exact effect_of_wait h
  | sleep =>
    obtain ⟨hp, _, h⟩ := State.checked_next.mp h
    split at h
    · cases h
    · split at h
      · cases h
      · rename_i h1 h2
        exact .slept (by simpa using h1) (by simpa using h2) (by simpa [plainClass] using hp) (by simpa using h.symm)
  | pfix imm =>
    obtain ⟨_, _, h⟩ := State.checked_next.mp h
    exact effect_of_wrote s _ _ _ rfl (by simpa using h)
  | dw => cases h

/-- Everything but a data word is run as the decoder's instruction is. -/
theorem exec_eq_execDecoded (i : Instr) (s : State) (h : ∀ w, i ≠ .dw w) : exec i s = execDecoded i s := by
  cases i with
  | dw w => exact absurd rfl (h w)
  | _ => rfl

/-- Everything an instruction can do when it goes on. -/
theorem exec_effect {i : Instr} {s t : State} (h : exec i s = .next t) : Effect s t := by
  by_cases hi : ∃ w, i = .dw w
  · obtain ⟨w, rfl⟩ := hi
    have h : execDw w s = .next t := h
    unfold execDw at h
    split at h
    · exact execDecoded_effect h
    · cases h
  · rw [exec_eq_execDecoded i s fun w hw => hi ⟨w, hw⟩] at h
    exact execDecoded_effect h

/-- Everything a step can do when it goes on: a wait for a wake-up, the wake-up, or an instruction. -/
theorem step_cases {s t : State} (h : step s = .next t) :
    s.fault = none ∧
      ((s.run = .standby ∧ t = s.sample.standbyStep) ∨
        (s.run = .active ∧ ∃ w i, s.sample.fetch = .ok w ∧ decode w = .ok i ∧ exec i s.sample = .next t)) := by
  unfold step at h
  split at h
  · cases h
  · rename_i hf
    refine ⟨hf, ?_⟩
    rw [State.sample_run] at h
    split at h
    · rename_i hr
      exact .inl ⟨hr, by simpa using h.symm⟩
    · rename_i hr
      refine .inr ⟨hr, ?_⟩
      unfold runFetched at h
      split at h
      · cases h
      · rename_i w hw
        split at h
        · rename_i i hi
          exact ⟨w, i, hw, hi, h⟩
        · cases h

end Sys2Proof.Machine
end

