-- ==== Sys2Proof/Laws/Frames.lean ====
section
/-! SUPPORT. The frame predicates of Safety for the states that the shared operations build. -/

namespace Sys2Proof.Machine

/-- Away from the end of an active loop, in the words of Safety and of the machine. -/
theorem notLoopEnd_iff (s : State) : NotLoopEnd s ↔ s.atLoopEnd = false := by
  rw [← Bool.not_eq_true, State.atLoopEnd_iff]
  unfold NotLoopEnd
  tauto

/-- The tail after writes that left the loop registers and `pc` alone. -/
theorem commonTail_retire {s u : State} (hpc : u.pc = s.pc) (hlc : u.lc = s.lc) (hls : u.ls = s.ls)
    (hle : u.le = s.le) (next : Word) (p : Option Byte) (l : Option Word) :
    CommonTail next p l s (u.retire next p l) := by
  have hend : u.atLoopEnd = s.atLoopEnd := by simp [State.atLoopEnd, hpc, hlc, hle]
  obtain ⟨h1, h2⟩ := u.retire_spec next p l
  rw [hend, hlc] at h1
  rw [hend, hlc, hls] at h2
  refine ⟨by simp, by simp, by simp [hls], by simp [hle], ?_⟩
  by_cases h : s.atLoopEnd = true
  · rw [if_pos ((State.atLoopEnd_iff s).mp h)]
    rw [if_pos h] at h1
    refine ⟨h1, ?_⟩
    by_cases h' : s.lc = 1#8
    · simp [h2, h', h]
    · have hne : s.lc - 1 ≠ 0#8 := fun hc => h' (by bv_omega)
      rw [h2, if_pos ⟨h, hne⟩, if_neg h']
  · rw [if_neg (fun hc => h ((State.atLoopEnd_iff s).mpr hc))]
    rw [if_neg h] at h1
    exact ⟨h1, by simp [h2, h]⟩

/-- The tail away from the end of an active loop. -/
theorem retire_pc_of_notLoopEnd {u : State} (h : u.atLoopEnd = false) (next : Word) (p : Option Byte)
    (l : Option Word) : (u.retire next p l).pc = next ∧ (u.retire next p l).lc = u.lc := by
  obtain ⟨h1, h2⟩ := u.retire_spec next p l
  simp [h1, h2, h]

/-- The frame of an instruction that wrote one register and flags. -/
theorem wroteReg_retire (s : State) (d : Reg) (v : Word) (f : Flags) :
    WroteReg d v s (((s.setReg d v).setFlags f).retire ((s.setReg d v).setFlags f).nextPc) := by
  refine ⟨?_, ?_, ?_, by simp, ?_, commonTail_retire rfl rfl rfl rfl _ _ _⟩
  · simp [State.reg]
  · intro r hr
    have h : r ≠ d := by simpa using hr
    simp [State.reg, Regs.get_set_other _ _ h]
  · exact ⟨fun a => by simp, fun a => by simp⟩
  · simp [RestKept]

/-- The frame of an instruction that wrote one register and no flag. -/
theorem wroteReg_retire_flags (s : State) (d : Reg) (v : Word) :
    WroteReg d v s ((s.setReg d v).retire (s.setReg d v).nextPc) :=
  wroteReg_retire s d v s.flags

/-- The frame of an instruction that wrote flags only. -/
theorem wroteNoReg_retire (s : State) (f : Flags) :
    WroteNoReg s ((s.setFlags f).retire (s.setFlags f).nextPc) := by
  refine ⟨?_, ?_, by simp, ?_, commonTail_retire rfl rfl rfl rfl _ _ _⟩
  · exact fun r _ => by simp [State.reg]
  · exact ⟨fun a => by simp, fun a => by simp⟩
  · simp [RestKept]

/-- Z and N of a result with the given C and V. -/
theorem flagsOf_flagsZN (r : Word) (c v : Bool) {t : State} (h : t.flags = flagsZN r c v) : FlagsOf r c v t := by
  unfold FlagsOf
  rw [h]
  exact ⟨by simp [flagsZN, beq_eq_decide], rfl, rfl, rfl⟩

/-- The frame of a jump. -/
theorem wentTo_retire {s : State} (h : NotLoopEnd s) (target : Word) (st : List Word) :
    WentTo target st s (State.retire { s with stack := st } target) := by
  have h' : State.atLoopEnd { s with stack := st } = false := (notLoopEnd_iff s).mp h
  obtain ⟨hpc, hlc⟩ := retire_pc_of_notLoopEnd h' target none none
  refine ⟨hpc, by simp, ?_, by simp, ⟨fun a => by simp, fun a => by simp⟩, by simp, hlc, ?_⟩
  · exact fun r _ => by simp [State.reg]
  · simp

/-! ### Arithmetic, as the words of a machine word's ring -/

theorem addResult_eq (a b : Word) : addResult a b = a + b := by
  apply BitVec.eq_of_toNat_eq; simp [addResult]

theorem subResult_eq (a b : Word) : subResult a b = a - b := by
  apply BitVec.eq_of_toNat_eq
  have ha := a.isLt
  have hb := b.isLt
  rw [subResult, BitVec.toNat_ofInt, BitVec.toNat_sub]
  omega

/-- V of an addition: the sum as signed numbers is not the signed value of the result. -/
theorem signedOverflow_add (a b : Word) :
    signedOverflow (a.toInt + b.toInt) = decide ((a + b).toInt ≠ a.toInt + b.toInt) := by
  have ha := a.toInt_lt; have ha' := a.le_toInt; have hb := b.toInt_lt; have hb' := b.le_toInt
  rw [signedOverflow, decide_eq_decide, BitVec.toInt_add]
  simp only [Int.bmod] at *
  omega

/-- V of a subtraction, in the same words. -/
theorem signedOverflow_sub (a b : Word) :
    signedOverflow (a.toInt - b.toInt) = decide ((a - b).toInt ≠ a.toInt - b.toInt) := by
  have ha := a.toInt_lt; have ha' := a.le_toInt; have hb := b.toInt_lt; have hb' := b.le_toInt
  rw [signedOverflow, decide_eq_decide, BitVec.toInt_sub]
  simp only [Int.bmod] at *
  omega

end Sys2Proof.Machine
end

