-- ==== Sys2Proof/Laws/PerInstr.lean ====
section
/-! SUPPORT. What holds of every instruction as syntax, one lemma per constructor: its word stands in its row of the
opcode table. -/

namespace Sys2Proof.Laws

/-- The mask of an instruction's row in the opcode table: the bits that its pattern fixes. -/
def OpcodeRow.mask : Instr → Word
  | .ldDirect .. | .stDirect .. | .ldImm .. =>
    0x8C00#16
  | .ldInd .. | .ldPostInc .. | .ldIndexed .. | .stInd .. | .stPostInc .. | .stIndexed .. | .inInd .. |
    .outInd .. | .ldReg .. | .andReg .. | .orReg .. | .xorReg .. | .tstReg .. | .subReg .. | .addReg .. |
    .cmpReg .. | .subrReg .. | .lslReg .. | .lsrReg .. | .asrReg .. | .lslImm .. | .lsrImm .. | .asrImm .. =>
    0x8FF8#16
  | .inDirect .. | .outDirect .. | .andImm .. | .orImm .. | .xorImm .. | .tstImm .. | .addImm .. | .cmpImm ..
    | .bev0 .. | .bev1 .. | .loopImm .. =>
    0x8F00#16
  | .iobclr .. | .iobset .. | .iobtst .. =>
    0xEC00#16
  | .inv .. | .abs .. | .neg .. | .wev0 .. | .wev1 .. =>
    0x8FFF#16
  | .jmp .. | .jsr .. =>
    0xFC00#16
  | .jmpR0 | .jsrR0 | .rts | .sleep | .nop =>
    0xFFFF#16
  | .bra .. | .bgtu .. | .bgeu .. | .beq .. | .bnovf .. | .bpos .. | .bges .. | .bgts .. | .bleu .. | .bltu ..
    | .bneq .. | .bovf .. | .bneg .. | .blts .. | .bles .. | .loopR1 .. | .pfix .. =>
    0xFF00#16
  | .dw .. =>
    0x0000#16

/-- The match of an instruction's row in the opcode table: the values of the bits that its pattern fixes. -/
def OpcodeRow.pattern : Instr → Word
  | .ldDirect .. => 0x0800#16
  | .ldInd .. => 0x8F08#16
  | .ldPostInc .. => 0x8F10#16
  | .ldIndexed .. => 0x8F18#16
  | .stDirect .. => 0x0C00#16
  | .stInd .. => 0x8F28#16
  | .stPostInc .. => 0x8F30#16
  | .stIndexed .. => 0x8F38#16
  | .inDirect .. => 0x8900#16
  | .inInd .. => 0x8F00#16
  | .outDirect .. => 0x8B00#16
  | .outInd .. => 0x8F20#16
  | .iobclr .. => 0x4400#16
  | .iobset .. => 0x6400#16
  | .iobtst .. => 0x2400#16
  | .ldImm .. => 0x0000#16
  | .ldReg .. => 0x8D40#16
  | .andImm .. => 0x8000#16
  | .orImm .. => 0x8200#16
  | .xorImm .. => 0x8400#16
  | .tstImm .. => 0x8C00#16
  | .andReg .. => 0x8D00#16
  | .orReg .. => 0x8D08#16
  | .xorReg .. => 0x8D10#16
  | .tstReg .. => 0x8D30#16
  | .inv .. => 0x8D92#16
  | .addImm .. => 0x8800#16
  | .cmpImm .. => 0x8A00#16
  | .subReg .. => 0x8D18#16
  | .addReg .. => 0x8D20#16
  | .cmpReg .. => 0x8D28#16
  | .subrReg .. => 0x8D38#16
  | .abs .. => 0x8D90#16
  | .neg .. => 0x8D91#16
  | .lslReg .. => 0x8D80#16
  | .lsrReg .. => 0x8D88#16
  | .asrReg .. => 0x8D98#16
  | .lslImm .. => 0x8DA0#16
  | .lsrImm .. => 0x8DA8#16
  | .asrImm .. => 0x8DB8#16
  | .jmp .. => 0x0400#16
  | .jsr .. => 0x1400#16
  | .jmpR0 => 0x8DB7#16
  | .jsrR0 => 0x9DB7#16
  | .rts => 0xADB7#16
  | .bra .. => 0x8E00#16
  | .bgtu .. => 0x9600#16
  | .bgeu .. => 0xA600#16
  | .beq .. => 0xB600#16
  | .bnovf .. => 0xC600#16
  | .bpos .. => 0xD600#16
  | .bges .. => 0xE600#16
  | .bgts .. => 0xF600#16
  | .bleu .. => 0x9E00#16
  | .bltu .. => 0xAE00#16
  | .bneq .. => 0xBE00#16
  | .bovf .. => 0xCE00#16
  | .bneg .. => 0xDE00#16
  | .blts .. => 0xEE00#16
  | .bles .. => 0xFE00#16
  | .bev0 .. => 0x8100#16
  | .bev1 .. => 0x8300#16
  | .loopR1 .. => 0x8500#16
  | .loopImm .. => 0x8500#16
  | .wev0 .. => 0x8DB0#16
  | .wev1 .. => 0x8DB1#16
  | .sleep => 0xBDB7#16
  | .nop => 0xFD47#16
  | .pfix .. => 0x8600#16
  | .dw .. => 0x0000#16

/-- The word of `i` matches the row of the opcode table that `i` stands for. -/
def OpcodeRow.Statement (i : Instr) : Prop := encode i &&& OpcodeRow.mask i = OpcodeRow.pattern i

/-! ### The fixed bits of each format, whatever its fields hold -/

theorem packD10_fixed (d : BitVec 3) (op2 : BitVec 2) (f : BitVec 10) :
    packD10 d op2 f &&& 0x8C00#16 = place op2 10 := by
  apply BitVec.eq_of_getLsbD_eq; intro i hi
  interval_cases i <;> simp [packD10, place]

theorem packJ10_fixed (d : BitVec 3) (op2 : BitVec 2) (f : BitVec 10) :
    packD10 d op2 f &&& 0xFC00#16 = place d 12 ||| place op2 10 := by
  apply BitVec.eq_of_getLsbD_eq; intro i hi
  interval_cases i <;> simp [packD10, place]

theorem packB_fixed (op : BitVec 2) (imm : BitVec 3) (addr : BitVec 8) :
    packB op imm addr &&& 0xEC00#16 = place op 13 ||| 0x0400#16 := by
  apply BitVec.eq_of_getLsbD_eq; intro i hi
  interval_cases i <;> simp [packB, place]

theorem packI8_fixed (d : BitVec 3) (op4 : BitVec 4) (f : BitVec 8) :
    packI8 d op4 f &&& 0x8F00#16 = 0x8000#16 ||| place op4 8 := by
  apply BitVec.eq_of_getLsbD_eq; intro i hi
  interval_cases i <;> simp [packI8, place]

theorem packL_fixed (d : BitVec 3) (op4 : BitVec 4) (f : BitVec 8) :
    packI8 d op4 f &&& 0xFF00#16 = 0x8000#16 ||| place d 12 ||| place op4 8 := by
  apply BitVec.eq_of_getLsbD_eq; intro i hi
  interval_cases i <;> simp [packI8, place]

theorem packM_fixed (d : BitVec 3) (op4 : BitVec 4) (op5 : BitVec 5) (s : BitVec 3) :
    packM d op4 op5 s &&& 0x8FF8#16 = 0x8000#16 ||| place op4 8 ||| place op5 3 := by
  apply BitVec.eq_of_getLsbD_eq; intro i hi
  interval_cases i <;> simp [packM, place]

theorem packR1_fixed (d : BitVec 3) (op4 : BitVec 4) (op5 : BitVec 5) (s : BitVec 3) :
    packM d op4 op5 s &&& 0x8FFF#16 = 0x8000#16 ||| place op4 8 ||| place op5 3 ||| place s 0 := by
  apply BitVec.eq_of_getLsbD_eq; intro i hi
  interval_cases i <;> simp [packM, place]

theorem packBR_fixed (cc : BitVec 4) (rel : BitVec 8) :
    packBR cc rel &&& 0xFF00#16 = 0x8600#16 ||| place cc 11 := by
  apply BitVec.eq_of_getLsbD_eq; intro i hi
  interval_cases i <;> simp [packBR, place]

/-! ### One lemma per constructor -/

theorem OpcodeRow.ldDirect (d : Reg) (addr : BitVec 10) : OpcodeRow.Statement (.ldDirect d addr) :=
  (packD10_fixed ..).trans rfl
theorem OpcodeRow.ldInd (d s : Reg) : OpcodeRow.Statement (.ldInd d s) := (packM_fixed ..).trans rfl
theorem OpcodeRow.ldPostInc (d s : Reg) : OpcodeRow.Statement (.ldPostInc d s) := (packM_fixed ..).trans rfl
theorem OpcodeRow.ldIndexed (d s : Reg) : OpcodeRow.Statement (.ldIndexed d s) := (packM_fixed ..).trans rfl
theorem OpcodeRow.stDirect (d : Reg) (addr : BitVec 10) : OpcodeRow.Statement (.stDirect d addr) :=
  (packD10_fixed ..).trans rfl
theorem OpcodeRow.stInd (d s : Reg) : OpcodeRow.Statement (.stInd d s) := (packM_fixed ..).trans rfl
theorem OpcodeRow.stPostInc (d s : Reg) : OpcodeRow.Statement (.stPostInc d s) := (packM_fixed ..).trans rfl
theorem OpcodeRow.stIndexed (d s : Reg) : OpcodeRow.Statement (.stIndexed d s) := (packM_fixed ..).trans rfl
theorem OpcodeRow.inDirect (d : Reg) (addr : BitVec 8) : OpcodeRow.Statement (.inDirect d addr) :=
  (packI8_fixed ..).trans rfl
theorem OpcodeRow.inInd (d s : Reg) : OpcodeRow.Statement (.inInd d s) := (packM_fixed ..).trans rfl
theorem OpcodeRow.outDirect (d : Reg) (addr : BitVec 8) : OpcodeRow.Statement (.outDirect d addr) :=
  (packI8_fixed ..).trans rfl
theorem OpcodeRow.outInd (d s : Reg) : OpcodeRow.Statement (.outInd d s) := (packM_fixed ..).trans rfl
theorem OpcodeRow.iobclr (bit : BitVec 3) (addr : BitVec 8) : OpcodeRow.Statement (.iobclr bit addr) :=
  (packB_fixed ..).trans rfl
theorem OpcodeRow.iobset (bit : BitVec 3) (addr : BitVec 8) : OpcodeRow.Statement (.iobset bit addr) :=
  (packB_fixed ..).trans rfl
theorem OpcodeRow.iobtst (bit : BitVec 3) (addr : BitVec 8) : OpcodeRow.Statement (.iobtst bit addr) :=
  (packB_fixed ..).trans rfl
theorem OpcodeRow.ldImm (d : Reg) (simm : BitVec 10) : OpcodeRow.Statement (.ldImm d simm) :=
  (packD10_fixed ..).trans rfl
theorem OpcodeRow.ldReg (d s : Reg) : OpcodeRow.Statement (.ldReg d s) := (packM_fixed ..).trans rfl
theorem OpcodeRow.andImm (d : Reg) (imm : BitVec 8) : OpcodeRow.Statement (.andImm d imm) :=
  (packI8_fixed ..).trans rfl
theorem OpcodeRow.orImm (d : Reg) (imm : BitVec 8) : OpcodeRow.Statement (.orImm d imm) :=
  (packI8_fixed ..).trans rfl
theorem OpcodeRow.xorImm (d : Reg) (imm : BitVec 8) : OpcodeRow.Statement (.xorImm d imm) :=
  (packI8_fixed ..).trans rfl
theorem OpcodeRow.tstImm (d : Reg) (imm : BitVec 8) : OpcodeRow.Statement (.tstImm d imm) :=
  (packI8_fixed ..).trans rfl
theorem OpcodeRow.andReg (d s : Reg) : OpcodeRow.Statement (.andReg d s) := (packM_fixed ..).trans rfl
theorem OpcodeRow.orReg (d s : Reg) : OpcodeRow.Statement (.orReg d s) := (packM_fixed ..).trans rfl
theorem OpcodeRow.xorReg (d s : Reg) : OpcodeRow.Statement (.xorReg d s) := (packM_fixed ..).trans rfl
theorem OpcodeRow.tstReg (d s : Reg) : OpcodeRow.Statement (.tstReg d s) := (packM_fixed ..).trans rfl
theorem OpcodeRow.inv (d : Reg) : OpcodeRow.Statement (.inv d) := (packR1_fixed ..).trans rfl
theorem OpcodeRow.addImm (d : Reg) (simm : BitVec 8) : OpcodeRow.Statement (.addImm d simm) :=
  (packI8_fixed ..).trans rfl
theorem OpcodeRow.cmpImm (d : Reg) (simm : BitVec 8) : OpcodeRow.Statement (.cmpImm d simm) :=
  (packI8_fixed ..).trans rfl
theorem OpcodeRow.subReg (d s : Reg) : OpcodeRow.Statement (.subReg d s) := (packM_fixed ..).trans rfl
theorem OpcodeRow.addReg (d s : Reg) : OpcodeRow.Statement (.addReg d s) := (packM_fixed ..).trans rfl
theorem OpcodeRow.cmpReg (d s : Reg) : OpcodeRow.Statement (.cmpReg d s) := (packM_fixed ..).trans rfl
theorem OpcodeRow.subrReg (d s : Reg) : OpcodeRow.Statement (.subrReg d s) := (packM_fixed ..).trans rfl
theorem OpcodeRow.abs (d : Reg) : OpcodeRow.Statement (.abs d) := (packR1_fixed ..).trans rfl
theorem OpcodeRow.neg (d : Reg) : OpcodeRow.Statement (.neg d) := (packR1_fixed ..).trans rfl
theorem OpcodeRow.lslReg (d s : Reg) : OpcodeRow.Statement (.lslReg d s) := (packM_fixed ..).trans rfl
theorem OpcodeRow.lsrReg (d s : Reg) : OpcodeRow.Statement (.lsrReg d s) := (packM_fixed ..).trans rfl
theorem OpcodeRow.asrReg (d s : Reg) : OpcodeRow.Statement (.asrReg d s) := (packM_fixed ..).trans rfl
theorem OpcodeRow.lslImm (d : Reg) (imm : BitVec 3) : OpcodeRow.Statement (.lslImm d imm) :=
  (packM_fixed ..).trans rfl
theorem OpcodeRow.lsrImm (d : Reg) (imm : BitVec 3) : OpcodeRow.Statement (.lsrImm d imm) :=
  (packM_fixed ..).trans rfl
theorem OpcodeRow.asrImm (d : Reg) (imm : BitVec 3) : OpcodeRow.Statement (.asrImm d imm) :=
  (packM_fixed ..).trans rfl
theorem OpcodeRow.jmp (addr : BitVec 10) : OpcodeRow.Statement (.jmp addr) := (packJ10_fixed ..).trans rfl
theorem OpcodeRow.jsr (addr : BitVec 10) : OpcodeRow.Statement (.jsr addr) := (packJ10_fixed ..).trans rfl
theorem OpcodeRow.jmpR0 : OpcodeRow.Statement (.jmpR0) := rfl
theorem OpcodeRow.jsrR0 : OpcodeRow.Statement (.jsrR0) := rfl
theorem OpcodeRow.rts : OpcodeRow.Statement (.rts) := rfl
theorem OpcodeRow.bra (rel : BitVec 8) : OpcodeRow.Statement (.bra rel) := (packBR_fixed ..).trans rfl
theorem OpcodeRow.bgtu (rel : BitVec 8) : OpcodeRow.Statement (.bgtu rel) := (packBR_fixed ..).trans rfl
theorem OpcodeRow.bgeu (rel : BitVec 8) : OpcodeRow.Statement (.bgeu rel) := (packBR_fixed ..).trans rfl
theorem OpcodeRow.beq (rel : BitVec 8) : OpcodeRow.Statement (.beq rel) := (packBR_fixed ..).trans rfl
theorem OpcodeRow.bnovf (rel : BitVec 8) : OpcodeRow.Statement (.bnovf rel) := (packBR_fixed ..).trans rfl
theorem OpcodeRow.bpos (rel : BitVec 8) : OpcodeRow.Statement (.bpos rel) := (packBR_fixed ..).trans rfl
theorem OpcodeRow.bges (rel : BitVec 8) : OpcodeRow.Statement (.bges rel) := (packBR_fixed ..).trans rfl
theorem OpcodeRow.bgts (rel : BitVec 8) : OpcodeRow.Statement (.bgts rel) := (packBR_fixed ..).trans rfl
theorem OpcodeRow.bleu (rel : BitVec 8) : OpcodeRow.Statement (.bleu rel) := (packBR_fixed ..).trans rfl
theorem OpcodeRow.bltu (rel : BitVec 8) : OpcodeRow.Statement (.bltu rel) := (packBR_fixed ..).trans rfl
theorem OpcodeRow.bneq (rel : BitVec 8) : OpcodeRow.Statement (.bneq rel) := (packBR_fixed ..).trans rfl
theorem OpcodeRow.bovf (rel : BitVec 8) : OpcodeRow.Statement (.bovf rel) := (packBR_fixed ..).trans rfl
theorem OpcodeRow.bneg (rel : BitVec 8) : OpcodeRow.Statement (.bneg rel) := (packBR_fixed ..).trans rfl
theorem OpcodeRow.blts (rel : BitVec 8) : OpcodeRow.Statement (.blts rel) := (packBR_fixed ..).trans rfl
theorem OpcodeRow.bles (rel : BitVec 8) : OpcodeRow.Statement (.bles rel) := (packBR_fixed ..).trans rfl
theorem OpcodeRow.bev0 (ev : BitVec 3) (rel : BitVec 8) : OpcodeRow.Statement (.bev0 ev rel) :=
  (packI8_fixed ..).trans rfl
theorem OpcodeRow.bev1 (ev : BitVec 3) (rel : BitVec 8) : OpcodeRow.Statement (.bev1 ev rel) :=
  (packI8_fixed ..).trans rfl
theorem OpcodeRow.loopR1 (rel : BitVec 8) : OpcodeRow.Statement (.loopR1 rel) := (packL_fixed ..).trans rfl
theorem OpcodeRow.loopImm (nnn : BitVec 3) (rel : BitVec 8) : OpcodeRow.Statement (.loopImm nnn rel) :=
  (packI8_fixed ..).trans rfl
theorem OpcodeRow.wev0 (ev : BitVec 3) : OpcodeRow.Statement (.wev0 ev) := (packR1_fixed ..).trans rfl
theorem OpcodeRow.wev1 (ev : BitVec 3) : OpcodeRow.Statement (.wev1 ev) := (packR1_fixed ..).trans rfl
theorem OpcodeRow.sleep : OpcodeRow.Statement (.sleep) := rfl
theorem OpcodeRow.nop : OpcodeRow.Statement (.nop) := rfl
theorem OpcodeRow.pfix (imm : BitVec 8) : OpcodeRow.Statement (.pfix imm) := (packBR_fixed ..).trans rfl
theorem OpcodeRow.dw (imm : Word) : OpcodeRow.Statement (.dw imm) := BitVec.and_zero

end Sys2Proof.Laws
end

