-- ==== Sys2Proof/Machine/Source.lean ====
section
/-! DEFINITION. Assembly source (R102 to R110): the written operands and statements, the grammar of expressions, and a
source text assembled to consecutive words from address 0. No step of the machine uses it. -/

namespace Sys2Proof.Machine

/-! ### Written operands (R103) -/

/-- The operand forms of R103. -/
inductive AsmOperand where
  | reg (r : Reg)
  | imm (e : AsmExpr)
  | direct (e : AsmExpr)
  | ind (r : Reg)
  | postInc (r : Reg)
  | indexed (r : Reg)
  | target (name : String)
  deriving DecidableEq, Repr

/-- A line: a label definition, then a mnemonic and its operands, either of the two absent. -/
structure SourceLine where
  label : Option String
  body : Option (String × List AsmOperand)
  deriving DecidableEq, Repr

/-- The written operands that hold a register only: `Rn`, `[Rn]`, `[Rn++]`, `[Rn+R0]`. -/
def registerOperands : List (List Char × AsmOperand) :=
  [(Reg.r0, '0'), (.r1, '1'), (.r2, '2'), (.r3, '3'), (.r4, '4'), (.r5, '5'), (.r6, '6'), (.r7, '7')].flatMap fun p =>
    [(['R', p.2], .reg p.1), (['[', 'R', p.2, ']'], .ind p.1), (['[', 'R', p.2, '+', '+', ']'], .postInc p.1),
      (['[', 'R', p.2, '+', 'R', '0', ']'], .indexed p.1)]

/-! ### Reading expressions (R105) -/

/-- The value of a digit, in base ten or sixteen. DESIGN CHOICE (log entry 32): a hexadecimal digit in either case. -/
def digitValue (c : Char) : Option Nat :=
  if '0' ≤ c ∧ c ≤ '9' then some (c.toNat - 48)
  else if 'A' ≤ c ∧ c ≤ 'F' then some (c.toNat - 55)
  else if 'a' ≤ c ∧ c ≤ 'f' then some (c.toNat - 87)
  else none

/-- The value of a non-empty run of digits. -/
def numeral (base : Nat) (cs : List Char) : Option Nat :=
  if cs = [] then none
  else cs.foldl (fun acc c => do
    let n ← acc
    let d ← digitValue c
    if d < base then some (n * base + d) else none) (some 0)

/-- A `<value>` of the grammar: hexadecimal, decimal, or else a label. DESIGN CHOICE (log entry 32): a label that an
operand names starts with none of a digit, "-", "(", ")", "#", "[", "]", "~" and "!"; `0x` is in lower case only and
takes no sign. -/
def readValue (cs : List Char) : Option AsmExpr :=
  match cs with
  | '0' :: 'x' :: rest => (numeral 16 rest).map fun n => .value n
  | '-' :: rest => (numeral 10 rest).map fun n => .value (-(n : Int))
  | c :: rest =>
    if c.isDigit then (numeral 10 (c :: rest)).map fun n => .value n
    else if c ∈ ['(', ')', '#', '[', ']', '~', '!'] then none
    else some (.label (String.ofList (c :: rest)))
  | [] => none

/-- An `<expr>` at the front of the characters, and what follows it. `(-42)` is read as the value -42. -/
def readExpr : Nat → List Char → Option (AsmExpr × List Char)
  | 0, _ => none
  | fuel + 1, '(' :: cs =>
    match readExpr fuel cs with
    | some (a, ')' :: rest) => some (a, rest)
    | some (a, ' ' :: more) =>
      match readExpr fuel ((more.dropWhile (· != ' ')).drop 1) with
      | some (b, ')' :: rest) =>
        if String.ofList (more.takeWhile (· != ' ')) ∈ binarySymbols then
          some (.binary (String.ofList (more.takeWhile (· != ' '))) a b, rest)
        else none
      | _ => none
    | _ =>
      match cs with
      | op :: inner =>
        match readExpr fuel inner with
        | some (a, ')' :: rest) =>
          if String.ofList [op] ∈ unarySymbols then some (.unary (String.ofList [op]) a, rest) else none
        | _ => none
      | [] => none
  | _ + 1, cs =>
    (readValue (cs.takeWhile fun c => c != ' ' && c != ')')).map fun e =>
      (e, cs.dropWhile fun c => c != ' ' && c != ')')

/-- An `<expr>` that is all of the characters. -/
def readWholeExpr (cs : List Char) : Option AsmExpr :=
  match readExpr (cs.length + 1) cs with
  | some (e, []) => some e
  | _ => none

/-! ### Reading a line (R102) -/

/-- Without the spaces and tabs at both ends. -/
def trimBlanks (cs : List Char) : List Char :=
  let front := cs.dropWhile fun c => c == ' ' || c == '\t'
  (front.reverse.dropWhile fun c => c == ' ' || c == '\t').reverse

/-- An operand as R103 writes it. -/
def readOperand (cs : List Char) : Option AsmOperand :=
  match registerOperands.lookup cs with
  | some o => some o
  | none =>
    match cs with
    | '#' :: rest => (readWholeExpr rest).map .imm
    | '[' :: '#' :: rest =>
      if rest.getLast? = some ']' then (readWholeExpr rest.dropLast).map .direct else none
    | _ =>
      match readValue cs with
      | some (.label name) => if ' ' ∈ cs then none else some (.target name)
      | _ => none

/-- The characters between the commas. -/
def splitCommas : List Char → List (List Char)
  | [] => [[]]
  | c :: cs =>
    match splitCommas cs with
    | [] => [[c]]
    | w :: ws => if c = ',' then [] :: w :: ws else (c :: w) :: ws

/-- A mnemonic with its operands, or nothing. -/
def readBody (cs : List Char) : Option (Option (String × List AsmOperand)) :=
  if cs = [] then some none
  else
    let mnemonic := cs.takeWhile fun c => c != ' ' && c != '\t'
    let rest := trimBlanks (cs.drop mnemonic.length)
    let operands := if rest = [] then some [] else (splitCommas rest).mapM fun o => readOperand (trimBlanks o)
    operands.map fun os => some (String.ofList mnemonic, os)

/-- One line: the comment from ";" on dropped, an optional `name:`, an optional statement (R102). DESIGN CHOICE (log
entry 32): a blank must follow the colon before a mnemonic on the same line, so `name:cmp` is read as a mnemonic, which
no statement has; blanks before the definition are dropped, so an indented `name:` is one too; and any name may be
defined, the empty one and one such as `5` included, which no operand can name. -/
def readLine (line : List Char) : Except AsmError SourceLine :=
  let cs := trimBlanks (line.takeWhile (· != ';'))
  let first := cs.takeWhile fun c => c != ' ' && c != '\t'
  let label := if first.getLast? = some ':' then some (String.ofList first.dropLast) else none
  match readBody (if label.isSome then trimBlanks (cs.drop first.length) else cs) with
  | some body => .ok { label := label, body := body }
  | none => .error .notAStatement

/-! ### A statement's instructions (R103, R106 to R109) -/

/-- What a statement's operands are computed from: the label table, the context of sub-labels, the statement's own word
address, and the chip's prefix mode. -/
structure AsmContext where
  labels : List (String × Nat)
  context : String
  pc : Nat
  mode : Pfix10Mode
  deriving DecidableEq, Repr

/-- The value of an immediate operand. -/
def AsmContext.value (c : AsmContext) (e : AsmExpr) : Except AsmError Int :=
  (e.eval c.labels c.context).map BitVec.toInt

/-- The address of a label operand. DESIGN CHOICE (log entry 32): of a label that is defined twice it is the first
definition's, and no error. -/
def AsmContext.address (c : AsmContext) (name : String) : Except AsmError Nat :=
  match c.labels.lookup (fullLabel c.context name) with
  | some a => .ok a
  | none => .error .noValue

/-- The one entry of a table for a mnemonic. -/
def pick {α : Type} (m : String) (table : List (String × α)) : Except AsmError α :=
  match table.lookup m with
  | some x => .ok x
  | none => .error .notAStatement

/-- The relative branches by their written names, aliases included (R109). -/
def branchTable : List (String × (BitVec 8 → Instr)) :=
  [("bra", .bra), ("bgtu", .bgtu), ("bgeu", .bgeu), ("beq", .beq), ("bnovf", .bnovf), ("bpos", .bpos), ("bges", .bges),
    ("bgts", .bgts), ("bleu", .bleu), ("bltu", .bltu), ("bneq", .bneq), ("bovf", .bovf), ("bneg", .bneg),
    ("blts", .blts), ("bles", .bles), ("biob0", asmBiob0), ("biob1", asmBiob1), ("bz", asmBz), ("bnz", asmBnz)]

/-- The immediate instructions with a prefixable operand. -/
def immTable (d : Reg) : List (String × PrefixableOp) :=
  [("ld", .ldImm d), ("and", .andImm d), ("or", .orImm d), ("xor", .xorImm d), ("tst", .tstImm d), ("add", .addImm d),
    ("cmp", .cmpImm d)]

/-- The shifts by an immediate. -/
def shiftTable (d : Reg) : List (String × (BitVec 3 → Instr)) :=
  [("lsl", .lslImm d), ("lsr", .lsrImm d), ("asr", .asrImm d)]

/-- The instructions of two registers. -/
def regTable (d s : Reg) : List (String × Instr) :=
  [("ld", .ldReg d s), ("and", .andReg d s), ("or", .orReg d s), ("xor", .xorReg d s), ("tst", .tstReg d s),
    ("sub", .subReg d s), ("add", .addReg d s), ("cmp", .cmpReg d s), ("subr", .subrReg d s), ("lsl", .lslReg d s),
    ("lsr", .lsrReg d s), ("asr", .asrReg d s)]

/-- The instructions of a statement, a prefix added as needed; `pfix` itself is no statement (R109). DESIGN CHOICE
(log entry 31): `dw` takes exactly one value. -/
def assembleStatement (c : AsmContext) (m : String) (operands : List AsmOperand) : Except AsmError (List Instr) := do
  match operands with
  | [.reg d, .direct e] =>
    let op ← pick m [("ld", .ldDirect d), ("st", .stDirect d), ("in", .inDirect d), ("out", .outDirect d)]
    assemblePrefixable c.mode op (← c.value e)
  | [.reg d, .ind s] =>
    return [← pick m [("ld", .ldInd d s), ("st", .stInd d s), ("in", .inInd d s), ("out", .outInd d s)]]
  | [.reg d, .postInc s] => return [← pick m [("ld", .ldPostInc d s), ("st", .stPostInc d s)]]
  | [.reg d, .indexed s] => return [← pick m [("ld", .ldIndexed d s), ("st", .stIndexed d s)]]
  | [.reg d, .imm e] =>
    match (shiftTable d).lookup m with
    | some f => return [f (← asmShiftCount (← c.value e))]
    | none => assemblePrefixable c.mode (← pick m (immTable d)) (← c.value e)
  | [.reg d, .reg s] => return [← pick m (regTable d s)]
  | [.reg d] =>
    if d = .r0 ∧ m = "jmp" then return [.jmpR0]
    else if d = .r0 ∧ m = "jsr" then return [.jsrR0]
    else return [← pick m [("inv", .inv d), ("abs", .abs d), ("neg", .neg d)]]
  | [.imm b, .direct e] =>
    let bit ← asmThreeBits (← c.value b)
    let op ← pick m [("iobclr", .iobclr bit), ("iobset", .iobset bit), ("iobtst", .iobtst bit)]
    assemblePrefixable c.mode op (← c.value e)
  | [.target l] =>
    let a ← c.address l
    match branchTable.lookup m with
    | some f => return [f (← asmRel a c.pc)]
    | none => assemblePrefixable c.mode (← pick m [("jmp", .jmp), ("jsr", .jsr)]) a
  | [.imm e, .target l] =>
    let rel ← asmRel (← c.address l) c.pc
    if m = "loop" then return [.loopImm (← asmLoopCount (← c.value e)) rel]
    else return [← pick m [("bev0", .bev0 (← asmThreeBits (← c.value e)) rel),
      ("bev1", .bev1 (← asmThreeBits (← c.value e)) rel)]]
  | [.reg .r1, .target l] =>
    let rel ← asmRel (← c.address l) c.pc
    return [← pick m [("loop", .loopR1 rel)]]
  | [.imm e] =>
    let v ← c.value e
    if m = "dw" then
      if 0 ≤ v ∧ v ≤ 65535 then return [.dw (BitVec.ofInt 16 v)] else .error .outOfRange
    else return [← pick m [("wev0", .wev0 (← asmThreeBits v)), ("wev1", .wev1 (← asmThreeBits v))]]
  | [] => return [← pick m [("rts", .rts), ("sleep", .sleep), ("nop", .nop)]]
  | _ => .error .notAStatement

/-! ### A source text (R104, R107, R108, R110) -/

/-- The context after a line: its full label, if it defines one (R104). -/
def contextAfter (context : String) (l : SourceLine) : String :=
  match l.label with
  | some n => if n.startsWith "/" then context else n
  | none => context

/-- The label table when the lines take these numbers of words, from word address `pc` (R104). DESIGN CHOICE (log entry
32): a label that no statement follows has the address after the last word. -/
def labelTable (pc : Nat) (context : String) : List (SourceLine × Nat) → List (String × Nat)
  | [] => []
  | (l, n) :: rest =>
    (match l.label with
      | some name => [(fullLabel context name, pc)]
      | none => []) ++ labelTable (pc + n) (contextAfter context l) rest

/-- The instructions of each line when the lines take these numbers of words. -/
def assembleLines (mode : Pfix10Mode) (labels : List (String × Nat)) (pc : Nat) (context : String) :
    List (SourceLine × Nat) → List (Except AsmError (List Instr))
  | [] => []
  | (l, n) :: rest =>
    (match l.body with
      | some (m, os) =>
        assembleStatement { labels := labels, context := contextAfter context l, pc := pc, mode := mode } m os
      | none => .ok []) :: assembleLines mode labels (pc + n) (contextAfter context l) rest

/-- The number of words of each line: labels move when a prefix is added, so the sizes grow until they agree with
themselves (R107). -/
def settleSizes (mode : Pfix10Mode) : Nat → List (SourceLine × Nat) → List (SourceLine × Nat)
  | 0, ls => ls
  | fuel + 1, ls =>
    let assembled := assembleLines mode (labelTable 0 "" ls) 0 "" ls
    settleSizes mode fuel ((ls.zip assembled).map fun p =>
      (p.1.1, match p.2 with
        | .ok is => max p.1.2 is.length
        | .error _ => p.1.2))

/-- The words of a source text, at consecutive word addresses from 0 in source order (R110), or its first error. DESIGN
CHOICE (log entry 31): a program longer than AUX RAM is no error here. -/
def assembleSource (mode : Pfix10Mode) (lines : List (List Char)) : Except AsmError (List Word) := do
  let ls ← lines.mapM readLine
  let start := ls.map fun l => (l, if l.body.isSome then 1 else 0)
  let sized := settleSizes mode (ls.length + 1) start
  let code ← (assembleLines mode (labelTable 0 "" sized) 0 "" sized).mapM id
  if code.map List.length = sized.map Prod.snd then return code.flatten.map encode else .error .unsettled

end Sys2Proof.Machine
end

