-- ==== Sys2Proof/Tests/Slice0.lean ====
section
/-! SUPPORT. Tests: ill-formed terms, words written out from the encoding column of the opcode table, single steps from
the vectors of spec/95, and for each obligation with hypotheses a state and operands that meet them. -/

namespace Sys2Proof.Tests

open Sys2Proof.Machine

/-! ### Helpers -/

/-- Four flags from the bits Z, N, C, V. -/
def flagsOfBits (b : BitVec 4) : Flags :=
  { z := b.getLsbD 3, n := b.getLsbD 2, c := b.getLsbD 1, v := b.getLsbD 0 }

/-- An input with these event levels and this answer to an I/O access. -/
def given (events : BitVec 8) (io : Word) : StepInput :=
  { events := events, io := .mapped io, wake := none, ramWrites := [] }

/-- Active at 0x0100 with all four flags set, as the vectors of spec/95 begin. -/
def active : State :=
  { State.reset with run := .active, pc := 0x100, flags := flagsOfBits 0b1111, inputs := [given 0 0] }

/-- A state with these registers and words of AUX RAM. -/
def prepared (regs : List (Reg × Word)) (ram : List (Nat × Word)) (s : State) : State :=
  let t := regs.foldl (fun u p => u.setReg p.1 p.2) s
  { t with ram := ram.foldl (fun m p => m.writeWord p.1 p.2) t.ram }

/-- One step over the word `w`, placed at `pc`, in a prepared state. -/
def run (w : Word) (regs : List (Reg × Word)) (ram : List (Nat × Word)) (s : State) : Result :=
  step (prepared [] [(s.pc.toNat, w)] (prepared regs ram s))

/-- What a next state shows. -/
def nextOf {α : Type} (o : Result) (f : State → α) : Option α :=
  match o with
  | .next t => some (f t)
  | .fault _ | .refused _ => none

/-- The fault an outcome stops with. -/
def stopOf : Result → Option Fault
  | .fault k => some k
  | .next _ | .refused _ => none

/-! ### Ill-formed terms -/

theorem test_ill_formed_loop_count : Instr.wellFormed (.loopImm 0 5) = false := by decide
theorem test_ill_formed_ld_r7_r7 : Instr.wellFormed (.ldReg .r7 .r7) = false := by decide
theorem test_ill_formed_dw : Instr.wellFormed (.dw 0xFD47) = false := by decide
theorem test_well_formed_neighbours :
    Instr.wellFormed (.loopImm 1 0xFF) = true ∧ Instr.wellFormed (.ldReg .r7 .r6) = true ∧
      Instr.wellFormed (.ldReg .r6 .r7) = true := by decide

/-! ### Words written out from the encoding column of the opcode table -/

/-- Memory Word Access. -/
theorem test_decode_memory_word_access :
    ∀ p ∈ ([
      (0b0101101010110101, .ldDirect .r5 0x2B5),
      (0b1101111100001011, .ldInd .r5 .r3),
      (0b1101111100010011, .ldPostInc .r5 .r3),
      (0b1101111100011011, .ldIndexed .r5 .r3),
      (0b0101111010110101, .stDirect .r5 0x2B5),
      (0b1101111100101011, .stInd .r5 .r3),
      (0b1101111100110011, .stPostInc .r5 .r3),
      (0b1101111100111011, .stIndexed .r5 .r3)] : List (Word × Instr)), decode p.1 = .ok p.2 := by decide

/-- I/O Word Access. -/
theorem test_decode_i_o_word_access :
    ∀ p ∈ ([
      (0b1101100110110101, .inDirect .r5 0xB5),
      (0b1101111100000011, .inInd .r5 .r3),
      (0b1101101110110101, .outDirect .r5 0xB5),
      (0b1101111100100011, .outInd .r5 .r3)] : List (Word × Instr)), decode p.1 = .ok p.2 := by decide

/-- I/O Bit Access. -/
theorem test_decode_i_o_bit_access :
    ∀ p ∈ ([
      (0b0101011010110101, .iobclr 0x6 0xB5),
      (0b0111011010110101, .iobset 0x6 0xB5),
      (0b0011011010110101, .iobtst 0x6 0xB5)] : List (Word × Instr)), decode p.1 = .ok p.2 := by decide

/-- Register Access. -/
theorem test_decode_register_access :
    ∀ p ∈ ([
      (0b0101000111010011, .ldImm .r5 0x1D3),
      (0b1101110101000011, .ldReg .r5 .r3)] : List (Word × Instr)), decode p.1 = .ok p.2 := by decide

/-- Logical Operations. -/
theorem test_decode_logical_operations :
    ∀ p ∈ ([
      (0b1101000011010011, .andImm .r5 0xD3),
      (0b1101001011010011, .orImm .r5 0xD3),
      (0b1101010011010011, .xorImm .r5 0xD3),
      (0b1101110011010011, .tstImm .r5 0xD3),
      (0b1101110100000011, .andReg .r5 .r3),
      (0b1101110100001011, .orReg .r5 .r3),
      (0b1101110100010011, .xorReg .r5 .r3),
      (0b1101110100110011, .tstReg .r5 .r3),
      (0b1101110110010010, .inv .r5)] : List (Word × Instr)), decode p.1 = .ok p.2 := by decide

/-- Arithmetic Operations. -/
theorem test_decode_arithmetic_operations :
    ∀ p ∈ ([
      (0b1101100011010011, .addImm .r5 0xD3),
      (0b1101101011010011, .cmpImm .r5 0xD3),
      (0b1101110100011011, .subReg .r5 .r3),
      (0b1101110100100011, .addReg .r5 .r3),
      (0b1101110100101011, .cmpReg .r5 .r3),
      (0b1101110100111011, .subrReg .r5 .r3),
      (0b1101110110010000, .abs .r5),
      (0b1101110110010001, .neg .r5)] : List (Word × Instr)), decode p.1 = .ok p.2 := by decide

/-- Shift Operations. -/
theorem test_decode_shift_operations :
    ∀ p ∈ ([
      (0b1101110110000011, .lslReg .r5 .r3),
      (0b1101110110001011, .lsrReg .r5 .r3),
      (0b1101110110011011, .asrReg .r5 .r3),
      (0b1101110110100110, .lslImm .r5 0x6),
      (0b1101110110101110, .lsrImm .r5 0x6),
      (0b1101110110111110, .asrImm .r5 0x6)] : List (Word × Instr)), decode p.1 = .ok p.2 := by decide

/-- Program Flow Control. -/
theorem test_decode_program_flow_control :
    ∀ p ∈ ([
      (0b0000011010110101, .jmp 0x2B5),
      (0b0001011010110101, .jsr 0x2B5),
      (0b1000110110110111, .jmpR0),
      (0b1001110110110111, .jsrR0),
      (0b1010110110110111, .rts),
      (0b1000111010100111, .bra 0xA7),
      (0b1110000110100111, .bev0 0x6 0xA7),
      (0b1110001110100111, .bev1 0x6 0xA7)] : List (Word × Instr)), decode p.1 = .ok p.2 := by decide

/-- Program Flow Control; Conditions. -/
theorem test_decode_program_flow_control_conditions :
    ∀ p ∈ ([
      (0b1001011010100111, .bgtu 0xA7),
      (0b1010011010100111, .bgeu 0xA7),
      (0b1011011010100111, .beq 0xA7),
      (0b1100011010100111, .bnovf 0xA7),
      (0b1101011010100111, .bpos 0xA7),
      (0b1110011010100111, .bges 0xA7),
      (0b1111011010100111, .bgts 0xA7),
      (0b1001111010100111, .bleu 0xA7),
      (0b1010111010100111, .bltu 0xA7),
      (0b1011111010100111, .bneq 0xA7),
      (0b1100111010100111, .bovf 0xA7),
      (0b1101111010100111, .bneg 0xA7),
      (0b1110111010100111, .blts 0xA7),
      (0b1111111010100111, .bles 0xA7)] : List (Word × Instr)), decode p.1 = .ok p.2 := by decide

/-- Loop Flow Control. -/
theorem test_decode_loop_flow_control :
    ∀ p ∈ ([
      (0b1000010110100111, .loopR1 0xA7),
      (0b1101010110100111, .loopImm 0x5 0xA7)] : List (Word × Instr)), decode p.1 = .ok p.2 := by decide

/-- Power Management. -/
theorem test_decode_power_management :
    ∀ p ∈ ([
      (0b1110110110110000, .wev0 0x6),
      (0b1110110110110001, .wev1 0x6),
      (0b1011110110110111, .sleep)] : List (Word × Instr)), decode p.1 = .ok p.2 := by decide

/-- Miscellaneous. -/
theorem test_decode_miscellaneous :
    ∀ p ∈ ([
      (0b1111110101000111, .nop),
      (0b1000011011010011, .pfix 0xD3)] : List (Word × Instr)), decode p.1 = .ok p.2 := by decide

/-- `dw` (R242): its word decodes to what its bits spell, never to a `dw`. -/
theorem test_decode_dw : encode (.dw 0x9D22) = 0x9D22 ∧ decode (encode (.dw 0x9D22)) = .ok (.addReg .r1 .r2) := by decide

/-- R98: the two words that two patterns match. -/
theorem test_decode_overlaps :
    decode 0b1111110101000111 = .ok .nop ∧ decode 0b1000010111111111 = .ok (.loopR1 0xFF) := by decide

/-- The host's own way in: the word as a number, and a word that is reserved. -/
theorem test_decode_table_word :
    decodeTableWord 16 0x9D22 = some (.addReg .r1 .r2) ∧ decodeTableWord 16 0x8700 = none := by decide

/-- The first instruction after reset, placed by the host. -/
theorem test_step_with_fetch_word :
    nextOf (step (State.reset.withFetchWord 16 0x11FF)) (fun t => (t.reg .r1, t.pc, t.run)) =
      some (0x01FF, 1, .active) := by decide

/-- Reset with nothing placed: a wake-up at vector 3 starts at address 6, and there is no word there. -/
theorem test_reset_wakes_and_fetches :
    nextOf (step { State.reset with inputs := [{ given 0 0 with wake := some 3 }, given 0 0] }) (fun t =>
      (t.pc, t.run, stopOf (step t))) = some (6, .active, some .unwrittenRead) := by decide

/-! ### Single steps, from the vectors of spec/95 -/

/-- ld R1, [#0x123]: direct; flags untouched -/
theorem test_ld_direct :
    nextOf (run 0x1923 [] [(0x123, 0xBEEF)] active)
        (fun t => (t.reg .r1, t.pc, t.flags)) = some (0xBEEF, 0x0101, flagsOfBits 0b1111) := by decide

/-- ld R0, [#0x050]: load of R0 arms the hazard latch with the old R0 -/
theorem test_ld_direct_r0_arms_the_latch :
    nextOf (run 0x0850 [(.r0, 0x0002)] [(0x050, 0x0005)] active)
        (fun t => (t.reg .r0, t.pc, t.flags, t.r0Prev)) =
      some (0x0005, 0x0101, flagsOfBits 0b1111, some 0x0002) := by decide

/-- ld R2, [R3]: indirect -/
theorem test_ld_indirect :
    nextOf (run 0xAF0B [(.r3, 0x0200)] [(0x200, 0x00FF)] active)
        (fun t => (t.reg .r2, t.pc, t.flags)) = some (0x00FF, 0x0101, flagsOfBits 0b1111) := by decide

/-- ld R3, [R1++]: post-increment -/
theorem test_ld_post_increment :
    nextOf (run 0xBF11 [(.r1, 0x0040)] [(0x040, 0xFFFF)] active)
        (fun t => (t.reg .r1, t.reg .r3, t.pc, t.flags)) =
      some (0x0041, 0xFFFF, 0x0101, flagsOfBits 0b1111) := by decide

/-- ld R3, [R3++]: d = s refused (D14) -/
theorem test_ld_post_increment_same_register :
    stopOf (run 0xBF13 [(.r3, 0x0040)] [(0x040, 0x0001)] active) = some .ldPostIncSameReg := by decide

/-- ld R2, [R1+R0]: index wraps mod 2^16: 0x0100 + 0xFFFF = 0x00FF -/
theorem test_ld_indexed_wraps :
    nextOf (run 0xAF19 [(.r0, 0xFFFF), (.r1, 0x0100)] [(0x0FF, 0x0ABC)] active)
        (fun t => (t.reg .r2, t.pc, t.flags)) = some (0x0ABC, 0x0101, flagsOfBits 0b1111) := by decide

/-- st R4, [#0x044]: direct store -/
theorem test_st_direct :
    nextOf (run 0x4C44 [(.r4, 0xCAFE)] [] active)
        (fun t => (t.pc, t.flags, t.ram.readWord 0x044)) = some (0x0101, flagsOfBits 0b1111, some 0xCAFE) := by decide

/-- st R4, [R5]: indirect, last word -/
theorem test_st_indirect :
    nextOf (run 0xCF2D [(.r4, 0x0001), (.r5, 0x03FF)] [] active)
        (fun t => (t.pc, t.flags, t.ram.readWord 0x3FF)) = some (0x0101, flagsOfBits 0b1111, some 0x0001) := by decide

/-- st R4, [R5]: outside RAM -/
theorem test_st_outside_ram :
    stopOf (run 0xCF2D [(.r4, 0x0001), (.r5, 0x8000)] [] active) = some .memRange := by decide

/-- st R5, [R5++]: d = s: stores the old value 0x0080, then R5 = 0x0081 -/
theorem test_st_post_increment_same_register :
    nextOf (run 0xDF35 [(.r5, 0x0080)] [] active)
        (fun t => (t.reg .r5, t.pc, t.flags, t.ram.readWord 0x080)) =
      some (0x0081, 0x0101, flagsOfBits 0b1111, some 0x0080) := by decide

/-- st R2, [R1+R0]: indexed store -/
theorem test_st_indexed :
    nextOf (run 0xAF39 [(.r0, 0x0003), (.r1, 0x0200), (.r2, 0x5555)] [] active)
        (fun t => (t.pc, t.flags, t.ram.readWord 0x203)) = some (0x0101, flagsOfBits 0b1111, some 0x5555) := by decide

/-- in R0, [#0x10]: I/O load of R0 arms the hazard latch -/
theorem test_in_direct_r0 :
    nextOf (run 0x8910 [(.r0, 0x0007)] [] ({ active with inputs := [given 0x0 0x0009] }))
        (fun t => (t.reg .r0, t.pc, t.flags, t.r0Prev, t.ioHistory)) =
      some (0x0009, 0x0101, flagsOfBits 0b1111, some 0x0007, [.read16 0x0010 0x0009]) := by decide

/-- in R1, [R2]: indirect, byte-addressed region -/
theorem test_in_indirect :
    nextOf (run 0x9F02 [(.r2, 0x1000)] [] ({ active with inputs := [given 0x0 0x00F0] }))
        (fun t => (t.reg .r1, t.pc, t.flags, t.ioHistory)) =
      some (0x00F0, 0x0101, flagsOfBits 0b1111, [.read16 0x1000 0x00F0]) := by decide

/-- in R1, [R2]: unaligned -/
theorem test_in_indirect_unaligned :
    stopOf (run 0x9F02 [(.r2, 0x1001)] [] active) = some .ioUnaligned := by decide

/-- out R3, [#0x11]: direct -/
theorem test_out_direct :
    nextOf (run 0xBB11 [(.r3, 0x1234)] [] active)
        (fun t => (t.pc, t.flags, t.ioHistory)) =
      some (0x0101, flagsOfBits 0b1111, [.write16 0x0011 0x1234]) := by decide

/-- out R3, [R4]: indirect -/
theorem test_out_indirect :
    nextOf (run 0xBF24 [(.r3, 0xFFFF), (.r4, 0x0200)] [] active)
        (fun t => (t.pc, t.flags, t.ioHistory)) =
      some (0x0101, flagsOfBits 0b1111, [.write16 0x0200 0xFFFF]) := by decide

/-- iobset #7, [#0xFF]: bit number 7 uses w[12] = 1 and w[9:8] = 11 -/
theorem test_iobset_bit_seven :
    nextOf (run 0x77FF [] [] active)
        (fun t => (t.pc, t.flags, t.ioHistory)) = some (0x0101, flagsOfBits 0b1111, [.bitSet 0x00FF 7]) := by decide

/-- iobclr #4, [#0x36]: bit number 4: w[12] = 1, w[9:8] = 00 -/
theorem test_iobclr_bit_four :
    nextOf (run 0x5436 [] [] ({ active with inputs := [given 0x0 0xFFFF] }))
        (fun t => (t.pc, t.flags, t.ioHistory)) = some (0x0101, flagsOfBits 0b1111, [.bitClr 0x0036 4]) := by decide

/-- iobtst #3, [#0x12]: C = 0 -/
theorem test_iobtst_clear :
    nextOf (run 0x2712 [] [] ({ active with inputs := [given 0x0 0xFFF7] }))
        (fun t => (t.pc, t.flags, t.ioHistory)) =
      some (0x0101, flagsOfBits 0b1101, [.bitTest 0x0012 3 false]) := by decide

/-- ld R1, #0x3FF: -1 -/
theorem test_ld_immediate_negative :
    nextOf (run 0x13FF [] [] active)
        (fun t => (t.reg .r1, t.pc, t.flags)) = some (0xFFFF, 0x0101, flagsOfBits 0b1111) := by decide

/-- ld R2, R5: register move; flags untouched even though the value is negative -/
theorem test_ld_register :
    nextOf (run 0xAD45 [(.r5, 0x8000)] [] active)
        (fun t => (t.reg .r2, t.pc, t.flags)) = some (0x8000, 0x0101, flagsOfBits 0b1111) := by decide

/-- and R1, R2: zero result -/
theorem test_and_register_zero :
    nextOf (run 0x9D02 [(.r1, 0xF0F0), (.r2, 0x0F0F)] [] active)
        (fun t => (t.reg .r1, t.pc, t.flags)) = some (0x0000, 0x0101, flagsOfBits 0b1000) := by decide

/-- and R2, #0x34: immediate zero-extended -/
theorem test_and_immediate :
    nextOf (run 0xA034 [(.r2, 0xFFFF)] [] active)
        (fun t => (t.reg .r2, t.pc, t.flags)) = some (0x0034, 0x0101, flagsOfBits 0b0000) := by decide

/-- or R1, R2: N from bit 15 -/
theorem test_or_register :
    nextOf (run 0x9D0A [(.r1, 0x8000), (.r2, 0x0001)] [] active)
        (fun t => (t.reg .r1, t.pc, t.flags)) = some (0x8001, 0x0101, flagsOfBits 0b0100) := by decide

/-- or R1, #0xFF:  -/
theorem test_or_immediate :
    nextOf (run 0x92FF [(.r1, 0x0100)] [] active)
        (fun t => (t.reg .r1, t.pc, t.flags)) = some (0x01FF, 0x0101, flagsOfBits 0b0000) := by decide

/-- xor R1, R2:  -/
theorem test_xor_register :
    nextOf (run 0x9D12 [(.r1, 0xAAAA), (.r2, 0x5555)] [] active)
        (fun t => (t.reg .r1, t.pc, t.flags)) = some (0xFFFF, 0x0101, flagsOfBits 0b0100) := by decide

/-- xor R1, #0xFF:  -/
theorem test_xor_immediate :
    nextOf (run 0x94FF [(.r1, 0x00FF)] [] active)
        (fun t => (t.reg .r1, t.pc, t.flags)) = some (0x0000, 0x0101, flagsOfBits 0b1000) := by decide

/-- tst R1, R2: flags only, R1 unchanged -/
theorem test_tst_register :
    nextOf (run 0x9D32 [(.r1, 0x8001), (.r2, 0x8000)] [] active)
        (fun t => (t.pc, t.flags)) = some (0x0101, flagsOfBits 0b0100) := by decide

/-- tst R1, #0x01: Z = 1 -/
theorem test_tst_immediate :
    nextOf (run 0x9C01 [(.r1, 0x0002)] [] active)
        (fun t => (t.pc, t.flags)) = some (0x0101, flagsOfBits 0b1000) := by decide

/-- inv R4:  -/
theorem test_inv :
    nextOf (run 0xCD92 [(.r4, 0xFFFF)] [] active)
        (fun t => (t.reg .r4, t.pc, t.flags)) = some (0x0000, 0x0101, flagsOfBits 0b1000) := by decide

/-- add R1, R2: carry and overflow, zero -/
theorem test_add_register_carry_and_overflow :
    nextOf (run 0x9D22 [(.r1, 0x8000), (.r2, 0x8000)] [] active)
        (fun t => (t.reg .r1, t.pc, t.flags)) = some (0x0000, 0x0101, flagsOfBits 0b1011) := by decide

/-- add R1, #-128: 0x0080 + 0xFF80 = 0 with carry -/
theorem test_add_immediate :
    nextOf (run 0x9880 [(.r1, 0x0080)] [] active)
        (fun t => (t.reg .r1, t.pc, t.flags)) = some (0x0000, 0x0101, flagsOfBits 0b1010) := by decide

/-- sub R1, R2: borrow: C = 1 -/
theorem test_sub_borrow :
    nextOf (run 0x9D1A [(.r1, 0x0003), (.r2, 0x0005)] [] active)
        (fun t => (t.reg .r1, t.pc, t.flags)) = some (0xFFFE, 0x0101, flagsOfBits 0b0110) := by decide

/-- subr R1, R2: R1 = R2 - R1 = -2, borrow -/
theorem test_subr_borrow :
    nextOf (run 0x9D3A [(.r1, 0x0005), (.r2, 0x0003)] [] active)
        (fun t => (t.reg .r1, t.pc, t.flags)) = some (0xFFFE, 0x0101, flagsOfBits 0b0110) := by decide

/-- cmp R3, R4: 0x7FFF - (-1) overflows -/
theorem test_cmp_register_overflow :
    nextOf (run 0xBD2C [(.r3, 0x7FFF), (.r4, 0xFFFF)] [] active)
        (fun t => (t.pc, t.flags)) = some (0x0101, flagsOfBits 0b0111) := by decide

/-- cmp R1, #-128: 0 - 0xFF80: borrow -/
theorem test_cmp_immediate_borrow :
    nextOf (run 0x9A80 [(.r1, 0x0000)] [] active)
        (fun t => (t.pc, t.flags)) = some (0x0101, flagsOfBits 0b0010) := by decide

/-- abs R5: not representable: V = 1, N = 1 -/
theorem test_abs_most_negative :
    nextOf (run 0xDD90 [(.r5, 0x8000)] [] active)
        (fun t => (t.pc, t.flags)) = some (0x0101, flagsOfBits 0b0111) := by decide

/-- abs R5: C = 1 by the NEG_ABS_CARRY default -/
theorem test_abs_carry :
    nextOf (run 0xDD90 [(.r5, 0xFFFF)] [] active)
        (fun t => (t.reg .r5, t.pc, t.flags)) = some (0x0001, 0x0101, flagsOfBits 0b0010) := by decide

/-- neg R5: V = 1 -/
theorem test_neg_most_negative :
    nextOf (run 0xDD91 [(.r5, 0x8000)] [] active)
        (fun t => (t.pc, t.flags)) = some (0x0101, flagsOfBits 0b0111) := by decide

/-- neg R5: C = 0 by default -/
theorem test_neg_zero :
    nextOf (run 0xDD91 [(.r5, 0x0000)] [] active)
        (fun t => (t.pc, t.flags)) = some (0x0101, flagsOfBits 0b1000) := by decide

/-- lsl R1, R2: Rs[3:0] = 15 -/
theorem test_lsl_by_fifteen :
    nextOf (run 0x9D82 [(.r1, 0x0003), (.r2, 0xFFFF)] [] active)
        (fun t => (t.reg .r1, t.pc, t.flags)) = some (0x8000, 0x0101, flagsOfBits 0b0110) := by decide

/-- lsl R1, R2: only Rs[3:0] counts: 16 acts as 0 -/
theorem test_lsl_by_sixteen :
    nextOf (run 0x9D82 [(.r1, 0x0001), (.r2, 0x0010)] [] active)
        (fun t => (t.pc, t.flags)) = some (0x0101, flagsOfBits 0b0000) := by decide

/-- lsr R1, R2: C = bit 14 -/
theorem test_lsr_out_bit :
    nextOf (run 0x9D8A [(.r1, 0x4000), (.r2, 0x000F)] [] active)
        (fun t => (t.reg .r1, t.pc, t.flags)) = some (0x0000, 0x0101, flagsOfBits 0b1010) := by decide

/-- asr R1, R2:  -/
theorem test_asr_sign :
    nextOf (run 0x9D9A [(.r1, 0x8001), (.r2, 0x0001)] [] active)
        (fun t => (t.reg .r1, t.pc, t.flags)) = some (0xC000, 0x0101, flagsOfBits 0b0110) := by decide

/-- lsl R2, #8: imm field 000 = 8 -/
theorem test_lsl_by_eight :
    nextOf (run 0xADA0 [(.r2, 0x01FF)] [] active)
        (fun t => (t.reg .r2, t.pc, t.flags)) = some (0xFF00, 0x0101, flagsOfBits 0b0110) := by decide

/-- lsr R2, #8:  -/
theorem test_lsr_by_eight :
    nextOf (run 0xADA8 [(.r2, 0xFF80)] [] active)
        (fun t => (t.reg .r2, t.pc, t.flags)) = some (0x00FF, 0x0101, flagsOfBits 0b0010) := by decide

/-- asr R3, #8:  -/
theorem test_asr_by_eight :
    nextOf (run 0xBDB8 [(.r3, 0x8000)] [] active)
        (fun t => (t.reg .r3, t.pc, t.flags)) = some (0xFF80, 0x0101, flagsOfBits 0b0100) := by decide

/-- jmp 0x00C:  -/
theorem test_jmp :
    nextOf (run 0x040C [] [] active) (fun t => (t.pc, t.flags)) = some (0x000C, flagsOfBits 0b1111) := by decide

/-- jsr 0x008: third level -/
theorem test_jsr_third_level :
    nextOf (run 0x1408 [] [] ({ active with stack := [0x0022, 0x0011] }))
        (fun t => (t.pc, t.flags, t.stack)) = some (0x0008, flagsOfBits 0b1111, [0x0101, 0x0022, 0x0011]) := by decide

/-- jsr 0x008: fourth level -/
theorem test_jsr_fourth_level :
    stopOf (run 0x1408 [] [] ({ active with stack := [0x0033, 0x0022, 0x0011] })) = some .stackOverflow := by decide

/-- jmp R0: hazard: previous R0 used; R0 itself is still 0x0030 -/
theorem test_jmp_r0_right_after_a_load :
    nextOf (run 0x8DB7 [(.r0, 0x0030)] [] ({ active with r0Prev := some 0x0020 }))
        (fun t => (t.pc, t.flags, t.r0Prev)) = some (0x0020, flagsOfBits 0b1111, none) := by decide

/-- jsr R0:  -/
theorem test_jsr_r0 :
    nextOf (run 0x9DB7 [(.r0, 0x0200)] [] active)
        (fun t => (t.pc, t.flags, t.stack)) = some (0x0200, flagsOfBits 0b1111, [0x0101]) := by decide

/-- rts: pops the most recent -/
theorem test_rts :
    nextOf (run 0xADB7 [] [] ({ active with stack := [0x0009, 0x0005] }))
        (fun t => (t.pc, t.flags, t.stack)) = some (0x0009, flagsOfBits 0b1111, [0x0005]) := by decide

/-- rts: empty stack -/
theorem test_rts_empty_stack :
    stopOf (run 0xADB7 [] [] active) = some .stackUnderflow := by decide

/-- bra rel=-128:  -/
theorem test_bra_back :
    nextOf (run 0x8E80 [] [] active) (fun t => (t.pc, t.flags)) = some (0x0081, flagsOfBits 0b1111) := by decide

/-- bra rel=-2: wraps mod 2^16 to 0xFFFF; the next fetch would fault with MemRange -/
theorem test_bra_wraps :
    nextOf (run 0x8EFE [] [] ({ active with pc := 0x0 }))
        (fun t => (t.pc, t.flags)) = some (0xFFFF, flagsOfBits 0b1111) := by decide

/-- bgtu rel=-3: taken backwards: 0x0100 + 1 - 3 -/
theorem test_bgtu_taken :
    nextOf (run 0x96FD [] [] ({ active with flags := flagsOfBits 0b0000#4 }))
        (fun t => (t.pc, t.flags)) = some (0x00FE, flagsOfBits 0b0000) := by decide

/-- beq rel=10: not taken -/
theorem test_beq_not_taken :
    nextOf (run 0xB60A [] [] ({ active with flags := flagsOfBits 0b0000#4 }))
        (fun t => (t.pc, t.flags)) = some (0x0101, flagsOfBits 0b0000) := by decide

/-- bev0 #1, rel=-1: event is 1: not taken -/
theorem test_bev0_not_taken :
    nextOf (run 0x91FF [] [] ({ active with inputs := [given 0x2 0] }))
        (fun t => (t.pc, t.flags)) = some (0x0101, flagsOfBits 0b1111) := by decide

/-- bev1 #7, rel=2: taken -/
theorem test_bev1_taken :
    nextOf (run 0xF302 [] [] ({ active with inputs := [given 0x80 0] }))
        (fun t => (t.pc, t.flags)) = some (0x0103, flagsOfBits 0b1111) := by decide

/-- loop R1, rel=3: count = R1[7:0] = 5; ls = pc + 1; le = pc + 3 -/
theorem test_loop_r1 :
    nextOf (run 0x8503 [(.r1, 0x0305)] [] active)
        (fun t => (t.pc, t.flags, t.lc, t.ls, t.le)) =
      some (0x0101, flagsOfBits 0b1111, 5, 0x0101, 0x0103) := by decide

/-- loop R1, rel=1: R1[7:0] = 0 -/
theorem test_loop_r1_zero :
    stopOf (run 0x8501 [(.r1, 0x0100)] [] active) = some .loopCountZero := by decide

/-- loop #128, rel=4: nnn = 111 -/
theorem test_loop_128 :
    nextOf (run 0xF504 [] [] active)
        (fun t => (t.pc, t.flags, t.lc, t.ls, t.le)) =
      some (0x0101, flagsOfBits 0b1111, 128, 0x0101, 0x0104) := by decide

/-- loop #4, rel=0: end not after the loop instruction -/
theorem test_loop_end_not_after :
    stopOf (run 0xA500 [] [] active) = some .loopEndNotAfter := by decide

/-- add R2, #1: L5: instruction at le, lc 3 -> 2: back to ls -/
theorem test_loop_end_goes_back :
    nextOf (run 0xA801 [(.r2, 0x0000)] [] ({ active with lc := 3, ls := 0x00FE, le := 0x0100 }))
        (fun t => (t.reg .r2, t.pc, t.flags, t.lc, t.ls, t.le)) =
      some (0x0001, 0x00FE, flagsOfBits 0b0000, 2, 0x00FE, 0x0100) := by decide

/-- add R2, #1: L6: lc 1 -> 0: falls through, loop over -/
theorem test_loop_end_falls_through :
    nextOf (run 0xA801 [(.r2, 0x0000)] [] ({ active with lc := 1, ls := 0x00FE, le := 0x0100 }))
        (fun t => (t.reg .r2, t.pc, t.flags, t.lc, t.ls, t.le)) =
      some (0x0001, 0x0101, flagsOfBits 0b0000, 0, 0x00FE, 0x0100) := by decide

/-- bgeu rel=1: L9: biob0 as last instruction of an active loop -/
theorem test_flow_control_at_the_loop_end :
    stopOf (run 0xA601 [] [] ({ active with flags := flagsOfBits 0b0000#4, lc := 3, ls := 0x00FE, le := 0x0100 })) = some .loopEndFlowControl := by decide

/-- pfix #0x12: L11: pfix at le -/
theorem test_pfix_at_the_loop_end :
    stopOf (run 0x8612 [] [] ({ active with lc := 3, ls := 0x00FE, le := 0x0100 })) = some .loopEndFlowControl := by decide

/-- wev0 #1: L13: wev0 may end a loop -/
theorem test_wev0_at_the_loop_end :
    nextOf (run 0x9DB0 [] [] ({ active with lc := 2, ls := 0x00FE, le := 0x0100 }))
        (fun t => (t.pc, t.flags, t.lc, t.ls, t.le)) =
      some (0x00FE, flagsOfBits 0b1111, 1, 0x00FE, 0x0100) := by decide

/-- wev0 #2: level not reached -/
theorem test_wev0_holds :
    nextOf (run 0xADB0 [] [] ({ active with inputs := [given 0x4 0] })) (fun t => (t.pc)) = some (0x100) := by decide

/-- wev1 #5:  -/
theorem test_wev1_completes :
    nextOf (run 0xDDB1 [] [] ({ active with inputs := [given 0x20 0] }))
        (fun t => (t.pc, t.flags)) = some (0x0101, flagsOfBits 0b1111) := by decide

/-- sleep: registers and flags become unwritten -/
theorem test_sleep :
    nextOf (run 0xBDB7 [(.r1, 0x0001)] [] active) (fun t => (t.run)) = some (.standby) := by decide

/-- sleep:  -/
theorem test_sleep_with_a_return_address :
    stopOf (run 0xBDB7 [] [] ({ active with stack := [0x0005] })) = some .sleepStackNotEmpty := by decide

/-- sleep:  -/
theorem test_sleep_in_a_loop :
    stopOf (run 0xBDB7 [] [] ({ active with lc := 2, ls := 0x0010, le := 0x0200 })) = some .sleepLoopActive := by decide

/-- nop: nop clears the hazard latch -/
theorem test_nop_clears_the_latch :
    nextOf (run 0xFD47 [(.r0, 0x0006)] [] ({ active with r0Prev := some 0x0005 }))
        (fun t => (t.pc, t.flags, t.r0Prev)) = some (0x0101, flagsOfBits 0b1111, none) := by decide

/-- pfix #0x12: sets the latch -/
theorem test_pfix :
    nextOf (run 0x8612 [] [] active)
        (fun t => (t.pc, t.flags, t.pfx)) = some (0x0101, flagsOfBits 0b1111, some 0x12) := by decide

/-- dw #0x8700: w[15] = 1, w[11:8] = 0111 -/
theorem test_reserved_0111 :
    stopOf (run 0x8700 [] [] active) = some .reservedEncoding := by decide

/-- dw #0xCDB7: op5 = 10110, w[2:0] = 111, w[14:12] = 100 -/
theorem test_reserved_zero_format :
    stopOf (run 0xCDB7 [] [] active) = some .reservedEncoding := by decide

/-- The condition table of spec/95 2.8: rel = +1 at 0x0100, after five settings of Z, N, C, V. -/
theorem test_conditions :
    ∀ p ∈ ([
      (0x9601, [0x0102, 0x0101, 0x0101, 0x0102, 0x0101]),
      (0xA601, [0x0102, 0x0101, 0x0102, 0x0102, 0x0101]),
      (0xB601, [0x0101, 0x0101, 0x0102, 0x0101, 0x0101]),
      (0xC601, [0x0102, 0x0102, 0x0102, 0x0101, 0x0101]),
      (0xD601, [0x0101, 0x0102, 0x0102, 0x0102, 0x0101]),
      (0xE601, [0x0101, 0x0102, 0x0102, 0x0101, 0x0102]),
      (0xF601, [0x0101, 0x0102, 0x0101, 0x0101, 0x0102]),
      (0x9E01, [0x0101, 0x0102, 0x0102, 0x0101, 0x0102]),
      (0xAE01, [0x0101, 0x0102, 0x0101, 0x0101, 0x0102]),
      (0xBE01, [0x0102, 0x0102, 0x0101, 0x0102, 0x0102]),
      (0xCE01, [0x0101, 0x0101, 0x0101, 0x0102, 0x0102]),
      (0xDE01, [0x0102, 0x0101, 0x0101, 0x0101, 0x0102]),
      (0xEE01, [0x0102, 0x0101, 0x0101, 0x0102, 0x0101]),
      (0xFE01, [0x0102, 0x0101, 0x0102, 0x0102, 0x0101])] : List (Word × List Word)),
      [0b0100, 0b0010, 0b1000, 0b0001, 0b0111].map (fun f =>
        nextOf (run p.1 [] [] { active with flags := flagsOfBits f }) State.pc) = p.2.map some := by decide

/-- A prefixed operand, under either reading of a prefixed 10-bit field. -/
theorem test_prefixed_immediates :
    nextOf (run 0x1234 [] [] { active with pfx := some 0x04 }) (fun t => t.reg .r1) = some 0x0434 ∧
      nextOf (run 0x1234 [] [] { active with pfx := some 0x04, cfg := { active.cfg with pfix10 := .hi6lo10 } })
        (fun t => t.reg .r1) = some 0x1234 ∧
      nextOf (run 0x9880 [] [] { active with pfx := some 0x00 }) (fun t => t.reg .r1) = some 0x0080 := by decide

/-- A prefix before another prefix. -/
theorem test_prefix_before_pfix :
    stopOf (run 0x8634 [] [] { active with pfx := some 0x12 }) = some .prefixMisuse := by decide

/-- A prefix before `nop`. -/
theorem test_prefix_before_nop :
    stopOf (run 0xFD47 [] [] { active with pfx := some 0x12 }) = some .prefixMisuse := by decide

/-- A word that an `st` wrote is not fetched. -/
theorem test_fetch_of_stored_word :
    stopOf (run 0xFD47 [] [] { active with stored := [0x100] }) = some .fetchOfStoredWord := by decide

/-- A data word reached by execution. -/
theorem test_dw_runs_what_it_spells :
    nextOf (exec (.dw 0x11FF) active) (fun t => t.reg .r1) = some 0x01FF ∧
      stopOf (exec (.dw 0x8700) active) = some .reservedEncoding := by decide

/-- Another agent's write just before the load, and the fault record. -/
theorem test_agent_write_and_record :
    nextOf (run 0x1923 [] [] { active with inputs := [{ given 0 0 with ramWrites := [(0x123, 1), (0x123, 2)] }] })
        (fun t => t.reg .r1) = some 2 ∧
      (recordStep (recordStep active)).fault = some .unwrittenRead := by decide

/-- Written operands (R103). -/
theorem test_operands_are_read :
    (readOperand "[R2++]".toList = some (.postInc .r2)) ∧ readOperand "#0x12".toList = some (.imm (.value 0x12)) := by
  decide

/-- `~` inverts all 32 bits, and `&` masks them (R106). -/
theorem test_invert_and_mask :
    (readWholeExpr "((~0) & 0xFF)".toList).bind (fun e => (e.eval [] "").toOption) = some 0xFF ∧
      (readWholeExpr "(~0)".toList).bind (fun e => (e.eval [] "").toOption) = some 0xFFFFFFFF := by decide

/-- A number that 32 signed bits do not hold is out of range, not wrapped (R106). -/
theorem test_numbers_out_of_range :
    asmInt (-2147483648) = .ok 0x80000000 ∧ asmInt 2147483648 = .error .outOfRange ∧
      asmInt 4294967295 = .error .outOfRange ∧ asmInt (-4294967295) = .error .outOfRange := by simp [asmInt]

/-! ### The hypotheses of the obligations, met: one theorem each, every clause at a state and operands of its own -/

/-- Active at 0x0100 over the word of `ld R1, #0x1FF`, words 0x03FE, 0x03FF and 0x0000 listed, R3 = 0x03FF. -/
def loaded : State := prepared [(.r3, 0x3FF), (.r1, 5)] [(0x100, 0x11FF), (0x3FF, 7), (0, 9)] active

/-- `loaded` at the end of an active loop. -/
def atEnd : State := { loaded with lc := 1, ls := 0x100, le := 0x100 }

theorem loaded_inv : loaded.Inv :=
  ⟨by decide, by decide, by unfold State.ramInRange; decide, by unfold State.marksWritten; decide, by decide,
    fun h => by cases h⟩

theorem witness_DecodeOfEncodeIsTheInstruction : Instr.wellFormed (.loopImm 7 0x80) = true := by decide

theorem witness_EncodeOfDecodeIsTheWord : decode 0x9D22 = .ok (.addReg .r1 .r2) := by decide

theorem witness_StepRunsTheDecodedInstruction :
    loaded.fault = none ∧ loaded.run = .active ∧ loaded.sample.fetch = .ok 0x11FF ∧
      decode 0x11FF = .ok (.ldImm .r1 0x1FF) := by decide

theorem witness_FetchAndDecodeFaultsInOrder :
    loaded.fault = none ∧ loaded.run = .active ∧
      { loaded with pc := 0x400 }.ramWords ≤ { loaded with pc := 0x400 }.pc.toNat ∧
      (0x3FF < loaded.ramWords ∧ Marks.has [0x3FF] 0x3FF = true) ∧
      (0x3FE < loaded.ramWords ∧ loaded.stored.has 0x3FE = false ∧ loaded.sample.ram.readWord 0x3FE = none) ∧
      (0 < loaded.ramWords ∧ loaded.stored.has 0 = false ∧ (loaded.ram.writeWord 0 0x8700).readWord 0 = some 0x8700 ∧
        decode 0x8700 = .error .reservedEncoding) := by decide

theorem witness_StandbyStepTakesTheWakeUp :
    State.reset.fault = none ∧ State.reset.run = .standby ∧
      { State.reset with inputs := [{ given 0 0 with wake := some 3 }] }.sample.now.wake = some 3 ∧
      (3 : BitVec 3).toNat < State.reset.cfg.family.numVectors ∧
      { State.reset with inputs := [given 0 0] }.sample.now.wake = none := by decide

theorem witness_RecordedFaultIsFinal : step active = .fault .unwrittenRead := rfl

theorem witness_LoadSeesTheLatestWriteOfAnotherAgent :
    { active with inputs := [{ given 0 0 with ramWrites := [] ++ (0x3FF, 1) :: [(0, 2)] }] }.inputs =
        [{ given 0 0 with ramWrites := [(0x3FF, 1), (0, 2)] }] ∧
      (∀ w ∈ ([(0, 2)] : List (Word × Word)), w.1 ≠ 0x3FF) ∧ (0x3FF#16).toNat < active.ramWords :=
  ⟨rfl, by simp, by decide⟩

theorem witness_EnvironmentWritesOnlyWhatItLists :
    (∀ w ∈ loaded.sample.now.ramWrites, w.1.toNat ≠ 0x3FF) ∧ loaded.run = .active :=
  ⟨fun _ h => (List.not_mem_nil h).elim, rfl⟩

theorem witness_StepKeepsTheStateInvariant : loaded.Inv ∧ ∃ t, step loaded = .next t := ⟨loaded_inv, _, rfl⟩

theorem witness_StepKeepsTheChipAndExtendsTheIoHistory : ∃ t, step loaded = .next t := ⟨_, rfl⟩

theorem witness_OnlyDestinationRegistersChange :
    Instr.ldPostInc .r0 .r3 ≠ .sleep ∧ (∀ w, Instr.ldPostInc .r0 .r3 ≠ .dw w) ∧
      ∃ t, exec (.ldPostInc .r0 .r3) loaded = .next t := ⟨by simp, by simp, _, rfl⟩

theorem witness_FlagsNotWrittenAreKeptAndClearedFlagsAreClear :
    (∀ i ∈ [Instr.ldReg .r1 .r2, .iobtst 3 0x12, .andReg .r1 .r3, .lslImm .r1 0], i ≠ .sleep) ∧
      (∃ t, exec (.ldReg .r1 .r2) loaded = .next t) ∧
      (∃ t, exec (.iobtst 3 0x12) loaded.sample = .next t) ∧ (∃ t, exec (.andReg .r1 .r3) loaded = .next t) ∧
      (∃ t, exec (.lslImm .r1 0) loaded = .next t) ∧
      flagRow (.ldReg .r1 .r2) = .none ∧ flagRow (.iobtst 3 0x12) = .bitTest ∧
      flagRow (.andReg .r1 .r3) = .logical ∧ flagRow (.lslImm .r1 0) = .shift :=
  ⟨by decide, ⟨_, rfl⟩, ⟨_, rfl⟩, ⟨_, rfl⟩, ⟨_, rfl⟩, rfl, rfl, rfl, rfl⟩

theorem witness_OnlyTheStoredWordChanges :
    (∀ w, Instr.stInd .r1 .r3 ≠ .dw w) ∧ (∃ t, exec (.stInd .r1 .r3) loaded = .next t) ∧
      storeTarget (.stInd .r1 .r3) loaded = some 0x3FF ∧ (∃ t, exec .nop loaded = .next t) ∧
      storeTarget .nop loaded = none := ⟨by simp, ⟨_, rfl⟩, rfl, ⟨_, rfl⟩, rfl⟩

theorem witness_NextInstructionOutsideFlowControl :
    isFlowControl .nop = false ∧ Instr.nop ≠ .sleep ∧ (∀ w, Instr.nop ≠ .dw w) ∧ holds .nop loaded = false ∧
      (∃ t, exec .nop loaded = .next t) ∧ NotLoopEnd loaded ∧ (∃ t, exec .nop atEnd = .next t) ∧
      ¬ NotLoopEnd atEnd ∧ (∀ r, Instr.nop ≠ .loopR1 r) ∧ ∀ n r, Instr.nop ≠ .loopImm n r :=
  ⟨rfl, by decide, by simp, rfl, ⟨_, rfl⟩, by decide, ⟨_, rfl⟩, by decide, by simp, by simp⟩

theorem witness_OnlyPfixLeavesAPrefix :
    (∀ w, Instr.pfix 0xFF ≠ .dw w) ∧ holds (.pfix 0xFF) loaded = false ∧ (∃ t, exec (.pfix 0xFF) loaded = .next t) ∧
      (∃ t, exec .nop loaded = .next t) ∧ ∀ imm, Instr.nop ≠ .pfix imm :=
  ⟨by simp, rfl, ⟨_, rfl⟩, ⟨_, rfl⟩, by simp⟩

theorem witness_OnlyLoadsOfR0LeaveTheR0Latch :
    (∀ w, Instr.ldInd .r0 .r3 ≠ .dw w) ∧ holds (.ldInd .r0 .r3) loaded = false ∧
      ∃ t, exec (.ldInd .r0 .r3) loaded = .next t := ⟨by simp, rfl, _, rfl⟩

theorem witness_PrefixBeforeAnyOtherInstructionFaults :
    (∀ w, Instr.pfix 1 ≠ .dw w) ∧ { loaded with pfx := some 0 }.pfx.isSome = true ∧ isPrefixable (.pfix 1) = false :=
  ⟨by simp, rfl, rfl⟩

theorem witness_FlowControlAtTheLoopEndFaults :
    isFlowControl (.bra 0) = true ∧ (∃ imm, Instr.pfix 7 = .pfix imm) ∧ ¬ NotLoopEnd atEnd ∧ atEnd.pfx = none ∧
      isPrefixable (.jmp 0) = true := ⟨rfl, ⟨7, rfl⟩, by decide, rfl, rfl⟩

theorem witness_LoadsBringTheirWord :
    ((loaded.imm10u 0x3FF).toNat < loaded.ramWords ∧ loaded.ram.readWord (loaded.imm10u 0x3FF).toNat = some 7) ∧
      (loaded.pfx = none ∧ (loaded.reg .r3).toNat < loaded.ramWords ∧
        loaded.ram.readWord (loaded.reg .r3).toNat = some 7) ∧
      (loaded.reg .r3 + loaded.r0Prev.getD (loaded.reg .r0)).toNat < loaded.ramWords ∧
      loaded.ram.readWord (loaded.reg .r3 + loaded.r0Prev.getD (loaded.reg .r0)).toNat = some 7 := by decide

theorem witness_PostIncrementLoadBringsTheWordAndIncrements :
    loaded.pfx = none ∧ Reg.r0 ≠ .r3 ∧ (loaded.reg .r3).toNat < loaded.ramWords ∧
      loaded.ram.readWord (loaded.reg .r3).toNat = some 7 := by decide

theorem witness_StoresPutTheirWord :
    (loaded.imm10u 0x3FF).toNat < loaded.ramWords ∧ loaded.pfx = none ∧ (loaded.reg .r3).toNat < loaded.ramWords ∧
      (loaded.reg .r3 + loaded.r0Prev.getD (loaded.reg .r0)).toNat < loaded.ramWords := by decide

theorem witness_PostIncrementStorePutsTheOldValueAndIncrements :
    loaded.pfx = none ∧ (loaded.reg .r3).toNat < loaded.ramWords := by decide

theorem witness_AccessesOutsideRamAndUnwrittenLoadsFault :
    ({ loaded with pfx := some 4 }.ramWords ≤ ({ loaded with pfx := some 4 }.imm10u 0).toNat) ∧ loaded.pfx = none ∧
      ((loaded.setReg .r3 0x400).ramWords ≤ ((loaded.setReg .r3 0x400).reg .r3).toNat) ∧ Reg.r0 ≠ .r3 ∧
      ((loaded.setReg .r0 1).ramWords ≤ ((loaded.setReg .r0 1).indexedAddr .r3).toNat) ∧
      ((loaded.imm10u 0x3FE).toNat < loaded.ramWords ∧ loaded.ram.readWord (loaded.imm10u 0x3FE).toNat = none) ∧
      ((loaded.reg .r1).toNat < loaded.ramWords ∧ loaded.ram.readWord (loaded.reg .r1).toNat = none) ∧
      (loaded.indexedAddr .r1).toNat < loaded.ramWords ∧
      loaded.ram.readWord (loaded.indexedAddr .r1).toNat = none := by decide

theorem witness_WordIoAccessesComplete :
    loaded.sample.now.io = .mapped 0 ∧ (loaded.sample.imm8u 0xFF).toNat ≤ 255 ∧ loaded.sample.pfx = none ∧
      ((loaded.sample.setReg .r3 0x100).reg .r3).toNat % 2 = 0 ∧ (loaded.sample.reg .r1).toNat ≤ 255 := by decide

theorem witness_BitIoAccessesComplete :
    loaded.sample.now.io = .mapped 0 ∧ (loaded.sample.imm8u 0xFF).toNat ≤ 255 ∧
      ({ loaded.sample with pfx := some 1 }.imm8u 0).toNat % 2 = 0 := by decide

theorem witness_UnalignedAndUnmappedIoAccessesFault :
    256 ≤ ({ loaded with pfx := some 1 }.imm8u 1).toNat ∧ ({ loaded with pfx := some 1 }.imm8u 1).toNat % 2 = 1 ∧
      ((loaded.imm8u 0xFF).toNat ≤ 255 ∧ loaded.now.io = .unmapped) ∧ loaded.pfx = none ∧
      (256 ≤ ((loaded.setReg .r3 0x101).reg .r3).toNat ∧ ((loaded.setReg .r3 0x101).reg .r3).toNat % 2 = 1) ∧
      (loaded.reg .r1).toNat ≤ 255 := by decide

theorem witness_PlainIoRegistersFollowTheOperations :
    (∃ t, exec (.outDirect .r1 0xFF) loaded.sample = .next t) ∧ (∃ t, exec (.iobset 7 0xFF) loaded.sample = .next t) ∧
      (∃ t, exec (.iobclr 7 0xFF) loaded.sample = .next t) ∧ (∃ t, exec (.iobtst 7 0xFF) loaded.sample = .next t) ∧
      ∃ t, exec (.inDirect .r1 0xFF) loaded.sample = .next t :=
  ⟨⟨_, rfl⟩, ⟨_, rfl⟩, ⟨_, rfl⟩, ⟨_, rfl⟩, _, rfl⟩

/-- The one hypothesis of RegisterLoadsComplete, LogicalResultsAndFlags, TestsWriteFlagsOnly, AddResultsAndFlags,
SubtractResultsAndFlags, ComparesWriteFlagsOnly, NegateAndAbsoluteResultsAndFlags, RegisterShiftsBitByBit,
ImmediateShiftsBitByBit and WaitsCompleteAtTheirLevelAndElseHold; with the default chip and either event level. -/
theorem witness_NoPrefixIsPending :
    loaded.pfx = none ∧ loaded.cfg.negAbsCarry = .borrow ∧ loaded.now.events.getLsbD (7 : BitVec 3).toNat = false ∧
      { loaded with now := given 0x80 0 }.now.events.getLsbD (7 : BitVec 3).toNat = true := by decide

theorem witness_ConditionsAfterACompareCompareTheOperands : ∃ t, exec (.cmpReg .r1 .r3) loaded = .next t := ⟨_, rfl⟩

/-- The hypotheses of the branch, event branch and jump statements and of NopAndPfixComplete, away from a loop and at the end of one that is over. -/
theorem witness_NoPrefixAndNoLoopEnd :
    loaded.pfx = none ∧ NotLoopEnd loaded ∧ NotLoopEnd { atEnd with lc := 0 } := by decide

/-- Each clause at both ends of its range: the ends of the short form, of the prefixed form, and the first errors. -/
theorem witness_AssembledLoadLoadsItsValue :
    loaded.pfx = none ∧ NotLoopEnd loaded ∧
      (∀ v ∈ [(-512 : Int), 511], -32768 ≤ v ∧ v ≤ 32767 ∧ -512 ≤ v ∧ v ≤ 511 ∧
        (assemblePrefixable loaded.cfg.pfix10 (.ldImm .r1) v).toOption.map List.length = some 1) ∧
      (∀ v ∈ [(-32768 : Int), -513, 512, 32767], -32768 ≤ v ∧ v ≤ 32767 ∧ ¬ (-512 ≤ v ∧ v ≤ 511) ∧
        (assemblePrefixable loaded.cfg.pfix10 (.ldImm .r1) v).toOption.map List.length = some 2) ∧
      ∀ v ∈ [(-32769 : Int), 32768], v < -32768 ∨ 32767 < v := by decide

theorem witness_ConditionalBranchesFollowTheConditionsTable :
    loaded.pfx = none ∧ NotLoopEnd loaded ∧ (Instr.bgtu 5, !loaded.flags.c && !loaded.flags.z) ∈
      [(Instr.bgtu 5, !loaded.flags.c && !loaded.flags.z), (.bgeu 5, !loaded.flags.c)] := by decide

theorem witness_CallsPushTheReturnAddress :
    NotLoopEnd loaded ∧ { loaded with stack := [1, 2] }.stack.length < 3 ∧ loaded.pfx = none ∧
      3 ≤ { loaded with stack := [1, 2, 3] }.stack.length := by decide

theorem witness_ReturnPopsTheMostRecentAddress :
    loaded.pfx = none ∧ NotLoopEnd loaded ∧ { loaded with stack := [1, 2] }.stack = 1 :: [2] ∧ loaded.stack = [] := by
  decide

theorem witness_CallThenReturnGoesBack :
    ∃ t, exec (.jsr 0x3FF) loaded = .next t ∧ NotLoopEnd { t with pc := 0x222 } := ⟨_, rfl, by decide⟩

/-- Each of the six loads of R0 runs, and a `nop` after it. -/
theorem witness_JumpRightAfterALoadOfR0UsesThePreviousR0 :
    ∀ i ∈ [Instr.ldDirect .r0 0x3FF, .ldInd .r0 .r3, .ldPostInc .r0 .r3, .ldIndexed .r0 .r3, .inDirect .r0 0xFF,
        .inInd .r0 .r1], loadsR0 i = true ∧
      nextOf (exec i loaded.sample) (fun t => (decide (NotLoopEnd t), nextOf (exec .nop t) fun u =>
        decide (NotLoopEnd u))) = some (true, some true) := by decide

theorem witness_LoopSetsTheLoopRegisters :
    loaded.pfx = none ∧ 0 < (0x7F#8).toInt ∧ 0 < (1#8).toInt ∧ (loaded.reg .r1).toNat % 256 ≠ 0 ∧ (7 : BitVec 3) ≠ 0#3 := by
  decide

theorem witness_LoopMisusesFault :
    loaded.pfx = none ∧ ((loaded.setReg .r1 0x100).reg .r1).toNat % 256 = 0 ∧ (loaded.reg .r1).toNat % 256 ≠ 0 ∧
      (0#8).toInt ≤ 0 ∧ (0x80#8).toInt ≤ 0 := by decide

/-- Both loops run at the ends of their counts. -/
theorem witness_LoopRunsItsBodyExactlyNTimes_loops :
    (1 : BitVec 3) ≠ 0#3 ∧ (7 : BitVec 3) ≠ 0#3 ∧
      nextOf (exec (.loopImm 1 1#8) loaded) (fun t => t.lc) = some 2 ∧
      nextOf (exec (.loopImm 7 1#8) loaded) (fun t => t.lc) = some 128 ∧
      nextOf (exec (.loopR1 1#8) (loaded.setReg .r1 1)) (fun t => t.lc) = some 1 ∧
      nextOf (exec (.loopR1 1#8) (loaded.setReg .r1 255)) (fun t => t.lc) = some 255 :=
  ⟨by decide, by decide, rfl, rfl, rfl, rfl⟩

/-- A body that is no `nop`, run to the end of its loop. -/
theorem witness_LoopRunsItsBodyExactlyNTimes_body :
    nextOf (exec (.loopImm 1 1#8) loaded) (fun t => (holds (.addImm .r1 1) t,
      nextOf (execList [.addImm .r1 1, .addImm .r1 1] t) fun u => (u.pc, u.lc, u.reg .r1))) =
        some (false, some (0x102, 0, 7)) := by decide

theorem witness_SleepEntersStandby : loaded.pfx = none ∧ loaded.stack = [] ∧ loaded.lc = 0#8 := by decide

theorem witness_SleepMisusesFault :
    loaded.pfx = none ∧ { loaded with stack := [0] }.stack ≠ [] ∧ atEnd.stack = [] ∧ atEnd.lc ≠ 0#8 := by decide

theorem witness_PrefixJoinsTheImmediateField :
    loaded.pfx = none ∧ { loaded with pfx := some 0xFF }.pfx = some 0xFF ∧ loaded.cfg.pfix10 = .hi8lo8 ∧
      { loaded.cfg with pfix10 := .hi6lo10 }.pfix10 = .hi6lo10 := by decide

theorem witness_DataWordRunsAsTheInstructionItSpells :
    decode 0xFD47 = .ok .nop ∧ decode 0xF7FF = .error .reservedEncoding ∧ decode 0x11FF = .ok (.ldImm .r1 0x1FF) := by
  decide

end Sys2Proof.Tests
end

section
/-! The state's own rules (10_state.md): which registers and flags an instruction writes (R22, R27), how long a `pfix`
lasts (R30), and that a step runs what it decoded (R40). One footprint says the first three of any instruction that
goes on; it is proved once for each shared operation and assembled over the constructors. -/

namespace Sys2Proof.Machine

/-! ### A step on a fetched word (R40) -/

/-- A step while Active, with no fault recorded, is a fetch in the state that the environment left. -/
theorem step_of_active {s : State} (hf : s.fault = none) (hr : s.run = .active) : step s = runFetched s.sample := by
  simp [step, hf, hr]

theorem runFetched_of_decode {s : State} {w : Word} {i : Instr} (hw : s.fetch = .ok w) (hi : decode w = .ok i) :
    runFetched s = exec i s := by
  simp [runFetched, hw, hi]

/-- Settles O5: the step is the fetch of R40, and the fetched word is that of `i`. -/
theorem stepRunsTheDecodedInstruction : Obligations.StepRunsTheDecodedInstruction := by
  intro s w i hf hr hw hi
  rw [step_of_active hf hr, runFetched_of_decode hw hi]

/-! ### The footprint of an instruction -/

/-- What a row of R27's table allows the flags to become. -/
def FlagRow.Allows : FlagRow → Flags → Flags → Prop
  | .logical, _, g => g.c = false ∧ g.v = false
  | .arithmetic, _, _ => True
  | .shift, _, g => g.v = false
  | .bitTest, f, g => g.z = f.z ∧ g.n = f.n ∧ g.v = f.v
  | .none, f, g => g = f

/-- What an instruction leaves in the latch of `pfix` (R30). -/
def prefixLeft : Instr → Option Byte
  | .pfix imm => some imm
  | _ => none

/-- An instruction that wrote no general register outside `ds`, the flags as `row` allows, and left `p` in the latch of
`pfix`. -/
structure Footprint (ds : List Reg) (row : FlagRow) (p : Option Byte) (s t : State) : Prop where
  regs : RegsKeptBut ds s t
  flags : row.Allows s.flags t.flags
  pfx : t.pfx = p

theorem logicFlags_allowed (f : Flags) (r : Word) : FlagRow.logical.Allows f (logicFlags r) := ⟨rfl, rfl⟩

theorem shiftFlags_allowed (f : Flags) (r : Shifted) : FlagRow.shift.Allows f (shiftFlags r) := rfl

theorem arithmetic_allowed (f g : Flags) : FlagRow.arithmetic.Allows f g := trivial

theorem prefixLeft_of_ne_pfix {i : Instr} (h : ∀ imm, i ≠ .pfix imm) : prefixLeft i = none := by
  cases i with
  | pfix imm => exact absurd rfl (h imm)
  | _ => rfl

theorem regsKeptBut_of_regs_eq {s u : State} (ds : List Reg) (h : u.regs = s.regs) : RegsKeptBut ds s u :=
  fun r _ => State.reg_congr h r

/-- A write to a register of the list stays inside the list. -/
theorem RegsKeptBut.setReg {ds : List Reg} {s u : State} {d : Reg} (h : RegsKeptBut ds s u) (hd : d ∈ ds) (v : Word) :
    RegsKeptBut ds s (u.setReg d v) := by
  intro r hr
  have hne : r ≠ d := fun e => hr (e ▸ hd)
  rw [State.reg_setReg, if_neg hne, h r hr]

theorem regsKeptBut_setReg {s u : State} (h : u.regs = s.regs) (d : Reg) (v : Word) :
    RegsKeptBut [d] s (u.setReg d v) :=
  .setReg (regsKeptBut_of_regs_eq _ h) (List.mem_singleton_self d) v

/-! ### The footprint of each shared operation -/

section SharedOperations
variable {ds : List Reg} {row : FlagRow} {p : Option Byte} {s t u : State}

/-- The common tail writes no register and no flag, and sets the latch of `pfix`. -/
theorem footprint_retire {n : Word} {l : Option Word} (hr : RegsKeptBut ds s u) (hf : row.Allows s.flags u.flags) :
    Footprint ds row p s (u.retire n p l) where
  regs r h := by rw [State.retire_reg, hr r h]
  flags := by rwa [State.retire_flags]
  pfx := State.retire_pfx ..

/-- The checks before an instruction write nothing. -/
theorem footprint_checked {k : InstrClass} {body : Result} (h : s.checked k body = .next t)
    (hb : body = .next t → Footprint ds row p s t) : Footprint ds row p s t := by
  obtain ⟨_, _, hbody⟩ := State.checked_next.mp h
  exact hb hbody

/-- An instruction whose writes made `u` and that goes on to the next word. -/
theorem footprint_advance {l : Option Word} (h : u.advance l = .next t) (hr : RegsKeptBut ds s u)
    (hf : row.Allows s.flags u.flags) : Footprint ds row none s t := by
  obtain rfl := (State.advance_next _ _ _).mp h
  exact footprint_retire hr hf

/-- One register and the flags written. -/
theorem footprint_result {d : Reg} {r : Word} {f : Flags} (hf : row.Allows s.flags f)
    (h : ((s.setReg d r).setFlags f).advance = .next t) : Footprint [d] row none s t :=
  have hr : RegsKeptBut [d] s (s.setReg d r) := regsKeptBut_setReg rfl d r
  footprint_advance h hr hf

/-- One register written and the flags kept. -/
theorem footprint_setReg {d : Reg} {r : Word} (h : (s.setReg d r).advance = .next t) :
    Footprint [d] .none none s t :=
  footprint_result (f := s.flags) rfl h

/-- Only the flags written. -/
theorem footprint_setFlags {f : Flags} (hf : row.Allows s.flags f) (h : (s.setFlags f).advance = .next t) :
    Footprint [] row none s t :=
  footprint_advance h (regsKeptBut_of_regs_eq _ rfl) hf

theorem footprint_loadFrom {d : Reg} {ea : Word} {after : State → State}
    (h : s.loadFrom d ea after = .next t) (hr : ∀ v, RegsKeptBut ds s (after (s.setReg d v)))
    (hf : ∀ v, (after (s.setReg d v)).flags = s.flags) : Footprint ds .none none s t := by
  obtain ⟨v, _, _, rfl⟩ := State.loadFrom_next h
  exact footprint_retire (hr v) (hf v)

/-- A load that writes its destination only. -/
theorem footprint_load {d : Reg} {ea : Word} (h : s.loadFrom d ea id = .next t) : Footprint [d] .none none s t :=
  footprint_loadFrom h (regsKeptBut_setReg rfl d) fun _ => rfl

theorem footprint_storeTo {ea v : Word} {after : State → State} (h : s.storeTo ea v after = .next t)
    (hr : RegsKeptBut ds s (after (s.storeWord ea v))) (hf : (after (s.storeWord ea v)).flags = s.flags) :
    Footprint ds .none none s t := by
  obtain ⟨_, rfl⟩ := State.storeTo_next h
  exact footprint_retire hr hf

/-- A store that writes no register. -/
theorem footprint_store {ea v : Word} (h : s.storeTo ea v id = .next t) : Footprint [] .none none s t :=
  footprint_storeTo h (regsKeptBut_of_regs_eq _ rfl) rfl

theorem footprint_inputFrom {d : Reg} {a : Word} (h : s.inputFrom d a = .next t) : Footprint [d] .none none s t := by
  obtain ⟨v, _, rfl⟩ := State.inputFrom_next h
  exact footprint_retire (regsKeptBut_setReg rfl d v) rfl

theorem footprint_outputTo {a v : Word} (h : s.outputTo a v = .next t) : Footprint [] .none none s t := by
  obtain ⟨_, rfl⟩ := State.outputTo_next h
  exact footprint_retire (regsKeptBut_of_regs_eq _ rfl) rfl

/-- A bit access that only appends to the I/O history. -/
theorem footprint_logIo {r : Except Fault Word} {e : IoEvent}
    (h : onOk r (fun _ => (s.logIo e).advance) = .next t) : Footprint [] .none none s t := by
  obtain ⟨_, _, hk⟩ := onOk_next.mp h
  exact footprint_advance hk (regsKeptBut_of_regs_eq _ rfl) rfl

theorem footprint_goTo {a : Word} (h : s.goTo a = .next t) : Footprint [] .none none s t := by
  obtain rfl := (State.goTo_next _ _ _).mp h
  exact footprint_retire (regsKeptBut_of_regs_eq _ rfl) rfl

theorem footprint_call {a : Word} (h : s.call a = .next t) : Footprint [] .none none s t := by
  obtain ⟨_, rfl⟩ := State.call_next.mp h
  exact footprint_retire (regsKeptBut_of_regs_eq _ rfl) rfl

theorem footprint_return (h : (onOk s.pop fun q => q.2.goTo q.1) = .next t) : Footprint [] .none none s t := by
  obtain ⟨⟨a, u⟩, hpop, hgo⟩ := onOk_next.mp h
  obtain ⟨_, _, rfl⟩ := State.pop_ok.mp hpop
  obtain rfl := (State.goTo_next _ _ _).mp hgo
  exact footprint_retire (regsKeptBut_of_regs_eq _ rfl) rfl

theorem footprint_branchIf {taken : Bool} {rel : BitVec 8} (h : s.branchIf taken rel = .next t) :
    Footprint [] .none none s t :=
  footprint_checked h footprint_goTo

theorem footprint_startLoop {n rel : BitVec 8} (h : s.startLoop n rel = .next t) : Footprint [] .none none s t := by
  obtain ⟨_, rfl⟩ := State.startLoop_next.mp h
  exact footprint_retire (regsKeptBut_of_regs_eq _ rfl) rfl

/-- A wait, whether it holds or completes: it takes no `pfix`, so that none is pending also where it holds. -/
theorem footprint_wait {reached : Bool} (h : s.checked plainClass (s.waitFor reached) = .next t) :
    Footprint [] .none none s t := by
  obtain ⟨hpfx, _, hwait⟩ := State.checked_next.mp h
  cases reached with
  | true =>
    obtain rfl : s.retire s.nextPc = t := by simpa [State.waitFor] using hwait
    exact footprint_retire (regsKeptBut_of_regs_eq _ rfl) rfl
  | false =>
    obtain rfl : s = t := by simpa [State.waitFor] using hwait
    exact ⟨fun _ _ => rfl, rfl, by simpa [plainClass] using hpfx⟩

end SharedOperations

/-! ### The footprint of every instruction -/

/-- An instruction that goes on writes the registers of R22, the flags of its row of R27's table, and leaves the latch
of `pfix` set only if it is `pfix` itself. -/
theorem exec_footprint {i : Instr} {s t : State} (hsleep : i ≠ .sleep) (hdw : ∀ w, i ≠ .dw w)
    (h : exec i s = .next t) : Footprint (destRegs i) (flagRow i) (prefixLeft i) s t := by
  cases i with
  | ldDirect | ldInd | ldIndexed => exact footprint_checked h footprint_load
  | ldPostInc d b =>
    refine footprint_checked h fun hbody => ?_
    split at hbody
    · cases hbody
    · refine footprint_loadFrom hbody (fun v => ?_) fun _ => rfl
      have hd : RegsKeptBut [d, b] s (s.setReg d v) := .setReg (regsKeptBut_of_regs_eq _ rfl) List.mem_cons_self v
      exact hd.setReg (by simp) _
  | stDirect | stInd | stIndexed => exact footprint_checked h footprint_store
  | stPostInc d b =>
    exact footprint_checked h fun hbody => footprint_storeTo hbody (regsKeptBut_setReg rfl b _) rfl
  | inDirect | inInd => exact footprint_checked h footprint_inputFrom
  | outDirect | outInd => exact footprint_checked h footprint_outputTo
  | iobclr | iobset => exact footprint_checked h footprint_logIo
  | iobtst bit addr =>
    refine footprint_checked h fun hbody => ?_
    obtain ⟨v, _, hk⟩ := onOk_next.mp hbody
    exact footprint_advance hk (regsKeptBut_of_regs_eq _ rfl) ⟨rfl, rfl, rfl⟩
  | ldImm | ldReg => exact footprint_checked h footprint_setReg
  | andImm | orImm | xorImm | andReg | orReg | xorReg | inv =>
    exact footprint_checked h (footprint_result (logicFlags_allowed _ _))
  | tstImm | tstReg => exact footprint_checked h (footprint_setFlags (logicFlags_allowed _ _))
  | addImm | subReg | addReg | subrReg | abs | neg =>
    exact footprint_checked h (footprint_result (arithmetic_allowed _ _))
  | cmpImm | cmpReg => exact footprint_checked h (footprint_setFlags (arithmetic_allowed _ _))
  | lslReg | lsrReg | asrReg | lslImm | lsrImm | asrImm =>
    exact footprint_checked h (footprint_result (shiftFlags_allowed _ _))
  | jmp | jmpR0 => exact footprint_checked h footprint_goTo
  | jsr | jsrR0 => exact footprint_checked h footprint_call
  | rts => exact footprint_checked h footprint_return
  | bra | bgtu | bgeu | beq | bnovf | bpos | bges | bgts | bleu | bltu | bneq | bovf | bneg | blts | bles | bev0
  | bev1 => exact footprint_branchIf h
  | loopR1 =>
    refine footprint_checked h fun hbody => ?_
    split at hbody
    · cases hbody
    · exact footprint_startLoop hbody
  | loopImm => exact footprint_checked h footprint_startLoop
  | wev0 | wev1 => exact footprint_wait h
  | sleep => exact absurd rfl hsleep
  | nop => exact footprint_checked h fun hbody => footprint_advance hbody (regsKeptBut_of_regs_eq _ rfl) rfl
  | pfix imm =>
    refine footprint_checked h fun hbody => ?_
    obtain rfl : s.retire s.nextPc (some imm) = t := by simpa using hbody
    exact footprint_retire (regsKeptBut_of_regs_eq _ rfl) rfl
  | dw w => exact absurd rfl (hdw w)

/-- `sleep`, which has no common tail, ends in Standby (R232). -/
theorem exec_sleep_next {s t : State} (h : exec .sleep s = .next t) : t = s.enterStandby := by
  obtain ⟨_, _, hbody⟩ := State.checked_next.mp h
  split at hbody
  · cases hbody
  · split at hbody
    · cases hbody
    · simpa using hbody.symm

/-! ### The rules over all instructions -/

/-- Settles O14: the register part of the footprint. -/
theorem onlyDestinationRegistersChange : Obligations.OnlyDestinationRegistersChange :=
  fun _ _ _ hsleep hdw h => (exec_footprint hsleep hdw h).regs

/-- What a row allows, as R27's table says it row by row. -/
theorem FlagRow.Allows.table {row : FlagRow} {f g : Flags} (h : row.Allows f g) :
    (row = .none → g = f) ∧ (row = .bitTest → g.z = f.z ∧ g.n = f.n ∧ g.v = f.v) ∧
      (row = .logical → g.c = false ∧ g.v = false) ∧ (row = .shift → g.v = false) := by
  refine ⟨?_, ?_, ?_, ?_⟩ <;> rintro rfl <;> exact h

/-- Settles O15: the flag part of the footprint. -/
theorem flagsNotWrittenAreKeptAndClearedFlagsAreClear :
    Obligations.FlagsNotWrittenAreKeptAndClearedFlagsAreClear :=
  fun _ _ _ hsleep hdw h => (exec_footprint hsleep hdw h).flags.table

/-- The latch of `pfix` after any instruction that goes on, `sleep` included. -/
theorem exec_pfx {i : Instr} {s t : State} (hdw : ∀ w, i ≠ .dw w) (h : exec i s = .next t) :
    t.pfx = prefixLeft i := by
  by_cases hsleep : i = .sleep
  · subst hsleep
    rw [exec_sleep_next h]
    rfl
  · exact (exec_footprint hsleep hdw h).pfx

/-- Settles O18: the `pfix` part of the footprint. The premise that the instruction is no wait that holds is not needed,
because a wait runs with no `pfix` pending (R101). -/
theorem onlyPfixLeavesAPrefix : Obligations.OnlyPfixLeavesAPrefix := by
  intro i s t hdw _ h
  have hpfx := exec_pfx hdw h
  constructor
  · rintro imm rfl
    exact hpfx
  · intro hi
    rw [hpfx, prefixLeft_of_ne_pfix hi]

end Sys2Proof.Machine
end

section
/-! The encoding (30_encoding.md): the decoder and the encoder are inverse to each other (R80 to R98), the words with no
reading are the blocks of R99, and the counts that a shift can be given (R93). A word with fixed fields is put together
again by the format's `pack`, once per format; each sub-decoder is then settled by its own match. -/

namespace Sys2Proof

/-! ### A packed word goes to the decoder of its format -/

section Formats
variable (d s : BitVec 3) (op2 : BitVec 2) (op4 : BitVec 4) (op5 : BitVec 5) (f8 : BitVec 8) (f10 : BitVec 10)

@[simp] theorem decode_packD10 : decode (packD10 d op2 f10) = .ok (decodeLow (packD10 d op2 f10)) := by simp [decode]

@[simp] theorem decode_packB : decode (packB op2 d f8) = .ok (decodeLow (packB op2 d f8)) := by simp [decode]

@[simp] theorem decode_packI8 : decode (packI8 d op4 f8) = decodeHigh (packI8 d op4 f8) := by simp [decode]

@[simp] theorem decode_packM_1101 : decode (packM d 0b1101#4 op5 s) = decode1101 (packM d 0b1101#4 op5 s) := by
  simp [decode, decodeHigh]

@[simp] theorem decode_packM_1111 : decode (packM d 0b1111#4 op5 s) = decode1111 (packM d 0b1111#4 op5 s) := by
  simp [decode, decodeHigh]

/-- Formats BR and P are format I8 with the condition's last bit in front of `110`. -/
theorem packBR_eq_packI8 (cc : BitVec 4) :
    packBR cc f8 = packI8 (cc.extractLsb' 1 3) ((cc.extractLsb' 0 1).setWidth 4 <<< 3 ||| 0b110#4) f8 := by
  apply BitVec.eq_of_getLsbD_eq; intro i hi
  interval_cases i <;> simp [packBR, packI8, place]

end Formats

/-! ### Decode of encode -/

/-- Settles O2: an instruction's word goes to the decoder of its format, which reads back the fields that were placed. -/
theorem decodeOfEncodeIsTheInstruction : Obligations.DecodeOfEncodeIsTheInstruction := by
  intro i hwf
  cases i with
  | ldImm | ldDirect | stDirect | jmp | jsr | iobtst | iobclr | iobset => simp [encode, decodeLow, fieldD]
  | andImm | orImm | xorImm | addImm | inDirect | cmpImm | outDirect | tstImm | bev0 | bev1 | loopR1 =>
    simp [encode, decodeHigh, fieldD]
  | loopImm nnn rel =>
    have hn : nnn ≠ 0#3 := by simpa [Instr.wellFormed] using hwf
    simp [encode, decodeHigh, hn]
  | pfix | bgtu | bgeu | beq | bnovf | bpos | bges | bgts =>
    simp [encode, packBR_eq_packI8, decodeHigh, decodeBranchEven]
  | bra | bleu | bltu | bneq | bovf | bneg | blts | bles =>
    simp [encode, packBR_eq_packI8, decodeHigh, decodeBranchOdd]
  | andReg | orReg | xorReg | subReg | addReg | cmpReg | tstReg | subrReg | lslReg | lsrReg | asrReg | lslImm | lsrImm
  | asrImm => simp [encode, decode1101, fieldD, fieldS]
  | ldReg d s =>
    have hne : d = .r7 → s ≠ .r7 := by simpa [Instr.wellFormed, imp_iff_not_or] using hwf
    simpa [encode, decode1101, fieldD, fieldS] using hne
  | abs | neg | inv => simp [encode, decode1101, decodeOneReg, fieldD]
  | wev0 | wev1 => simp [encode, decode1101, decodeWaitZero]
  | jmpR0 | jsrR0 | rts | sleep | nop => rfl
  | inInd | ldInd | ldPostInc | ldIndexed | outInd | stInd | stPostInc | stIndexed =>
    simp [encode, decode1111, fieldD, fieldS]
  | dw => simp [Instr.wellFormed] at hwf

/-! ### A word from its fields -/

@[simp] theorem fieldD_bits (w : Word) : (fieldD w).bits = field w 12 3 := Reg.bits_ofBits _

@[simp] theorem fieldS_bits (w : Word) : (fieldS w).bits = field w 0 3 := Reg.bits_ofBits _

theorem field_one_of_ne_zero {w : Word} {k : Nat} (h : field w k 1 ≠ 0#1) : field w k 1 = 1#1 := by bv_omega

/-- The bit of a one-bit field. -/
theorem getElem_of_field_one {w : Word} {k : Nat} {b : BitVec 1} (hk : k < 16) (h : field w k 1 = b) :
    w[k] = b[0] := by
  simp [← h, field, hk]

/-- The bits of a two-bit field. -/
theorem getElem_of_field_two {w : Word} {k : Nat} {b : BitVec 2} (hk : k + 1 < 16) (h : field w k 2 = b) :
    w[k] = b[0] ∧ w[k + 1] = b[1] := by
  have hk' : k < 16 := by omega
  simp [← h, field, hk, hk']

section Fields
variable {w : Word}

theorem packD10_fields (h15 : field w 15 1 = 0#1) : packD10 (field w 12 3) (field w 10 2) (field w 0 10) = w := by
  have hbit := getElem_of_field_one (by decide) h15
  apply BitVec.eq_of_getLsbD_eq; intro i hi
  interval_cases i <;> simp [packD10, place, field, hbit]

theorem packB_fields (h15 : field w 15 1 = 0#1) (h10 : field w 10 2 = 0b01#2) :
    packB (field w 13 2) (fieldBit w) (field w 0 8) = w := by
  have hbit := getElem_of_field_one (by decide) h15
  obtain ⟨hbit10, hbit11⟩ := getElem_of_field_two (by decide) h10
  apply BitVec.eq_of_getLsbD_eq; intro i hi
  interval_cases i <;> simp [packB, place, field, fieldBit, hbit, hbit10, hbit11]

theorem packI8_fields (h15 : field w 15 1 = 1#1) : packI8 (field w 12 3) (field w 8 4) (field w 0 8) = w := by
  have hbit := getElem_of_field_one (by decide) h15
  apply BitVec.eq_of_getLsbD_eq; intro i hi
  interval_cases i <;> simp [packI8, place, field, hbit]

theorem packM_fields (h15 : field w 15 1 = 1#1) :
    packM (field w 12 3) (field w 8 4) (field w 3 5) (field w 0 3) = w := by
  have hbit := getElem_of_field_one (by decide) h15
  apply BitVec.eq_of_getLsbD_eq; intro i hi
  interval_cases i <;> simp [packM, place, field, hbit]

/-! ### The word of a format whose fixed fields are as the decoder's match found them -/

theorem packD10_eq {d : BitVec 3} {op2 : BitVec 2} (h15 : field w 15 1 = 0#1) (hd : d = field w 12 3)
    (h10 : (field w 10 2).toNat = op2.toNat) : packD10 d op2 (field w 0 10) = w := by
  rw [hd, ← BitVec.eq_of_toNat_eq h10, packD10_fields h15]

theorem packB_eq {op : BitVec 2} (h15 : field w 15 1 = 0#1) (h10 : (field w 10 2).toNat = 1)
    (h13 : (field w 13 2).toNat = op.toNat) : packB op (fieldBit w) (field w 0 8) = w := by
  have hop2 : field w 10 2 = 0b01#2 := BitVec.eq_of_toNat_eq h10
  rw [← BitVec.eq_of_toNat_eq h13, packB_fields h15 hop2]

theorem packI8_eq {d : BitVec 3} {op4 : BitVec 4} (h15 : field w 15 1 = 1#1) (hd : d = field w 12 3)
    (h8 : (field w 8 4).toNat = op4.toNat) : packI8 d op4 (field w 0 8) = w := by
  rw [hd, ← BitVec.eq_of_toNat_eq h8, packI8_fields h15]

theorem packBR_eq {cc : BitVec 4} (h15 : field w 15 1 = 1#1)
    (h12 : (field w 12 3).toNat = (cc.extractLsb' 1 3).toNat)
    (h8 : (field w 8 4).toNat = ((cc.extractLsb' 0 1).setWidth 4 <<< 3 ||| 0b110#4).toNat) :
    packBR cc (field w 0 8) = w := by
  rw [packBR_eq_packI8, packI8_eq h15 (BitVec.eq_of_toNat_eq h12).symm h8]

theorem packM_eq {d s : BitVec 3} {op4 : BitVec 4} {op5 : BitVec 5} (h15 : field w 15 1 = 1#1)
    (h8 : (field w 8 4).toNat = op4.toNat) (h3 : (field w 3 5).toNat = op5.toNat) (hd : d = field w 12 3)
    (hs : s = field w 0 3) : packM d op4 op5 s = w := by
  rw [hd, hs, ← BitVec.eq_of_toNat_eq h8, ← BitVec.eq_of_toNat_eq h3, packM_fields h15]

/-! ### Encode of decode, one lemma per sub-decoder -/

/-- `i` is a reading of the word `w`: a well-formed instruction that encodes to it. -/
def Reads (w : Word) (i : Instr) : Prop := i.wellFormed = true ∧ encode i = w

variable {i : Instr}

/-- The two fields that `jmp` and `jsr` are told apart by are the first 3-bit field of format J10 (R83, R96). -/
theorem field_12_3_of_split {b : BitVec 1} (h13 : (field w 13 2).toNat = 0) (h12 : field w 12 1 = b) :
    b.setWidth 3 = field w 12 3 := by
  have hop : field w 13 2 = 0#2 := BitVec.eq_of_toNat_eq h13
  obtain ⟨hbit13, hbit14⟩ := getElem_of_field_two (by decide) hop
  have hbit12 := getElem_of_field_one (by decide) h12
  apply BitVec.eq_of_getLsbD_eq; intro i hi
  interval_cases i <;> simp [field, hbit12, hbit13, hbit14]

theorem reads_decodeLow (h15 : field w 15 1 = 0#1) : Reads w (decodeLow w) := by
  unfold decodeLow
  split
  case h_1 h10 | h_2 h10 | h_3 h10 => exact ⟨rfl, packD10_eq h15 (fieldD_bits w) h10⟩
  case h_4 =>
    have h10 : (field w 10 2).toNat = 1 := by have := (field w 10 2).isLt; simp only [imp_false] at *; omega
    split
    case h_1 h13 =>
      split
      case isTrue h12 => exact ⟨rfl, packD10_eq h15 (field_12_3_of_split h13 h12) h10⟩
      case isFalse h12 =>
        exact ⟨rfl, packD10_eq h15 (field_12_3_of_split h13 (field_one_of_ne_zero h12)) h10⟩
    case h_2 h13 | h_3 h13 => exact ⟨rfl, packB_eq h15 h10 h13⟩
    case h_4 =>
      have h13 : (field w 13 2).toNat = 3 := by have := (field w 13 2).isLt; simp only [imp_false] at *; omega
      exact ⟨rfl, packB_eq h15 h10 h13⟩

theorem reads_decodeBranchEven (h15 : field w 15 1 = 1#1) (h8 : (field w 8 4).toNat = 6) :
    Reads w (decodeBranchEven w) := by
  unfold decodeBranchEven
  split
  case h_1 h12 | h_2 h12 | h_3 h12 | h_4 h12 | h_5 h12 | h_6 h12 | h_7 h12 => exact ⟨rfl, packBR_eq h15 h12 h8⟩
  case h_8 =>
    have h12 : (field w 12 3).toNat = 7 := by have := (field w 12 3).isLt; simp only [imp_false] at *; omega
    exact ⟨rfl, packBR_eq h15 h12 h8⟩

theorem reads_decodeBranchOdd (h15 : field w 15 1 = 1#1) (h8 : (field w 8 4).toNat = 14) :
    Reads w (decodeBranchOdd w) := by
  unfold decodeBranchOdd
  split
  case h_1 h12 | h_2 h12 | h_3 h12 | h_4 h12 | h_5 h12 | h_6 h12 | h_7 h12 => exact ⟨rfl, packBR_eq h15 h12 h8⟩
  case h_8 =>
    have h12 : (field w 12 3).toNat = 7 := by have := (field w 12 3).isLt; simp only [imp_false] at *; omega
    exact ⟨rfl, packBR_eq h15 h12 h8⟩

theorem reads_decodeOneReg (h15 : field w 15 1 = 1#1) (h8 : (field w 8 4).toNat = 13)
    (h3 : (field w 3 5).toNat = 18) (h : decodeOneReg w = .ok i) : Reads w i := by
  unfold decodeOneReg at h
  split at h <;> cases h
  case h_1 h0 | h_2 h0 | h_3 h0 =>
    exact ⟨rfl, packM_eq h15 h8 h3 (fieldD_bits w) (BitVec.eq_of_toNat_eq h0).symm⟩

/-! The encoder writes the words of format Z (R86) out as numbers; these are their fields. -/

theorem encode_jmpR0 : encode .jmpR0 = packM 0#3 0b1101#4 0b10110#5 0b111#3 := rfl
theorem encode_jsrR0 : encode .jsrR0 = packM 1#3 0b1101#4 0b10110#5 0b111#3 := rfl
theorem encode_rts : encode .rts = packM 2#3 0b1101#4 0b10110#5 0b111#3 := rfl
theorem encode_sleep : encode .sleep = packM 3#3 0b1101#4 0b10110#5 0b111#3 := rfl

theorem reads_decodeWaitZero (h15 : field w 15 1 = 1#1) (h8 : (field w 8 4).toNat = 13)
    (h3 : (field w 3 5).toNat = 22) (h : decodeWaitZero w = .ok i) : Reads w i := by
  unfold decodeWaitZero at h
  split at h
  case h_1 h0 | h_2 h0 =>
    cases h
    exact ⟨rfl, packM_eq h15 h8 h3 rfl (BitVec.eq_of_toNat_eq h0).symm⟩
  case h_3 h0 =>
    have hz {d : BitVec 3} (h12 : (field w 12 3).toNat = d.toNat) : packM d 0b1101#4 0b10110#5 0b111#3 = w :=
      packM_eq h15 h8 h3 (BitVec.eq_of_toNat_eq h12).symm (BitVec.eq_of_toNat_eq h0).symm
    split at h <;> cases h
    case h_1 h12 => exact ⟨rfl, encode_jmpR0.trans (hz h12)⟩
    case h_2 h12 => exact ⟨rfl, encode_jsrR0.trans (hz h12)⟩
    case h_3 h12 => exact ⟨rfl, encode_rts.trans (hz h12)⟩
    case h_4 h12 => exact ⟨rfl, encode_sleep.trans (hz h12)⟩
  case h_4 => cases h

theorem reads_decode1101 (h15 : field w 15 1 = 1#1) (h8 : (field w 8 4).toNat = 13)
    (h : decode1101 w = .ok i) : Reads w i := by
  unfold decode1101 at h
  split at h
  case h_1 h3 | h_2 h3 | h_3 h3 | h_4 h3 | h_5 h3 | h_6 h3 | h_7 h3 | h_8 h3 | h_10 h3 | h_11 h3 | h_13 h3 =>
    cases h
    exact ⟨rfl, packM_eq h15 h8 h3 (fieldD_bits w) (fieldS_bits w)⟩
  case h_9 h3 =>
    have hld : encode (.ldReg (fieldD w) (fieldS w)) = w := packM_eq h15 h8 h3 (fieldD_bits w) (fieldS_bits w)
    cases h
    split
    case isTrue hr7 =>
      rw [hr7.1, hr7.2] at hld
      exact ⟨rfl, hld⟩
    case isFalse hr7 => exact ⟨by simpa [Instr.wellFormed, imp_iff_not_or] using hr7, hld⟩
  case h_12 h3 => exact reads_decodeOneReg h15 h8 h3 h
  case h_16 h3 => exact reads_decodeWaitZero h15 h8 h3 h
  case h_14 h3 | h_15 h3 | h_17 h3 =>
    cases h
    exact ⟨rfl, packM_eq h15 h8 h3 (fieldD_bits w) rfl⟩
  case h_18 => cases h

theorem reads_decode1111 (h15 : field w 15 1 = 1#1) (h8 : (field w 8 4).toNat = 15)
    (h : decode1111 w = .ok i) : Reads w i := by
  unfold decode1111 at h
  split at h <;> cases h
  case h_1 h3 | h_2 h3 | h_3 h3 | h_4 h3 | h_5 h3 | h_6 h3 | h_7 h3 | h_8 h3 =>
    exact ⟨rfl, packM_eq h15 h8 h3 (fieldD_bits w) (fieldS_bits w)⟩

theorem reads_decodeHigh (h15 : field w 15 1 = 1#1) (h : decodeHigh w = .ok i) : Reads w i := by
  unfold decodeHigh at h
  split at h
  case h_1 h8 | h_3 h8 | h_5 h8 | h_9 h8 | h_10 h8 | h_11 h8 | h_12 h8 | h_13 h8 =>
    cases h
    exact ⟨rfl, packI8_eq h15 (fieldD_bits w) h8⟩
  case h_2 h8 | h_4 h8 =>
    cases h
    exact ⟨rfl, packI8_eq h15 rfl h8⟩
  case h_6 h8 =>
    cases h
    split
    case isTrue h12 => exact ⟨rfl, packI8_eq h15 h12.symm h8⟩
    case isFalse h12 => exact ⟨by simpa [Instr.wellFormed] using h12, packI8_eq h15 rfl h8⟩
  case h_7 h8 =>
    cases h
    exact reads_decodeBranchEven h15 h8
  case h_8 => cases h
  case h_14 h8 => exact reads_decode1101 h15 h8 h
  case h_15 h8 =>
    cases h
    exact reads_decodeBranchOdd h15 h8
  case h_16 =>
    have h8 : (field w 8 4).toNat = 15 := by have := (field w 8 4).isLt; simp only [imp_false] at *; omega
    exact reads_decode1111 h15 h8 h

end Fields

/-- Settles O3: in the branch of the map that the word takes, its fields make up the word of the answer again. -/
theorem encodeOfDecodeIsTheWord : Obligations.EncodeOfDecodeIsTheWord := by
  intro w i h
  unfold decode at h
  split at h
  case isTrue h15 =>
    cases h
    exact reads_decodeLow h15
  case isFalse h15 => exact reads_decodeHigh (field_one_of_ne_zero h15) h

/-! ### The words with no reading (R99) -/

section Rejected
variable {w : Word}

theorem decodeOneReg_rejects : decodeOneReg w = .error .reservedEncoding ↔ 3 ≤ (field w 0 3).toNat := by
  unfold decodeOneReg
  split
  case h_4 => exact iff_of_true rfl (by simp only [imp_false] at *; omega)
  all_goals simp [*]

theorem decodeWaitZero_rejects : decodeWaitZero w = .error .reservedEncoding ↔
    2 ≤ (field w 0 3).toNat ∧ (field w 0 3).toNat ≤ 6 ∨ (field w 0 3).toNat = 7 ∧ 4 ≤ (field w 12 3).toNat := by
  have hlt := (field w 0 3).isLt
  unfold decodeWaitZero
  split
  case h_3 h0 =>
    split
    case h_5 => exact iff_of_true rfl (by simp only [imp_false] at *; omega)
    all_goals simp [*]
  case h_4 => exact iff_of_true rfl (by simp only [imp_false] at *; omega)
  all_goals simp [*]

theorem decode1111_rejects : decode1111 w = .error .reservedEncoding ↔ 8 ≤ (field w 3 5).toNat := by
  unfold decode1111
  split
  case h_9 => exact iff_of_true rfl (by simp only [imp_false] at *; omega)
  all_goals simp [*]

theorem decode1101_rejects : decode1101 w = .error .reservedEncoding ↔
    9 ≤ (field w 3 5).toNat ∧ (field w 3 5).toNat ≤ 15 ∨
    (field w 3 5).toNat = 18 ∧ 3 ≤ (field w 0 3).toNat ∨
    (field w 3 5).toNat = 22 ∧ (2 ≤ (field w 0 3).toNat ∧ (field w 0 3).toNat ≤ 6 ∨
      (field w 0 3).toNat = 7 ∧ 4 ≤ (field w 12 3).toNat) ∨
    24 ≤ (field w 3 5).toNat := by
  unfold decode1101
  split
  case h_12 h3 => simp [h3, decodeOneReg_rejects]
  case h_16 h3 => simp [h3, decodeWaitZero_rejects]
  case h_18 => exact iff_of_true rfl (by simp only [imp_false] at *; omega)
  all_goals simp [*]

theorem decodeHigh_rejects : decodeHigh w = .error .reservedEncoding ↔
    (field w 8 4).toNat = 7 ∨
    (field w 8 4).toNat = 13 ∧ decode1101 w = .error .reservedEncoding ∨
    (field w 8 4).toNat = 15 ∧ decode1111 w = .error .reservedEncoding := by
  have hlt := (field w 8 4).isLt
  unfold decodeHigh
  split
  case h_16 =>
    have h8 : (field w 8 4).toNat = 15 := by simp only [imp_false] at *; omega
    simp [h8]
  all_goals simp [*]

theorem decode_rejects : decode w = .error .reservedEncoding ↔
    field w 15 1 = 1#1 ∧ decodeHigh w = .error .reservedEncoding := by
  unfold decode
  split
  case isTrue h15 => simp [h15]
  case isFalse h15 => simp [field_one_of_ne_zero h15]

/-- The low byte is op5 and then the last 3-bit field (R86). -/
theorem field_0_8_toNat : (field w 0 8).toNat = 8 * (field w 3 5).toNat + (field w 0 3).toNat := by
  simp only [field, BitVec.extractLsb'_toNat, Nat.shiftRight_eq_div_pow]
  omega

theorem field_14_1_eq_one : field w 14 1 = 1#1 ↔ 4 ≤ (field w 12 3).toNat := by
  rw [← BitVec.toNat_inj]
  simp only [field, BitVec.extractLsb'_toNat, Nat.shiftRight_eq_div_pow, BitVec.toNat_ofNat]
  omega

/-- Settles O4: the sub-decoders' rejected fields, put together to the blocks of the low byte. -/
theorem rejectedWordsAreTheReservedBlocks : Obligations.RejectedWordsAreTheReservedBlocks := by
  intro w
  have hs := (field w 0 3).isLt
  rw [decode_rejects, decodeHigh_rejects, decode1101_rejects, decode1111_rejects, field_14_1_eq_one]
  refine and_congr_right fun _ => ?_
  simp only [← BitVec.toNat_inj (x := field w 8 4), ← BitVec.toNat_inj (x := field w 0 8), field_0_8_toNat,
    BitVec.toNat_ofNat]
  omega

end Rejected

/-! ### The counts of a shift (R93) -/

theorem shiftCount_range (imm : BitVec 3) : 1 ≤ Machine.shiftCount imm ∧ Machine.shiftCount imm ≤ 8 := by
  revert imm; decide

theorem shiftCount_ofNat {k : Nat} (h1 : 1 ≤ k) (h8 : k ≤ 8) : Machine.shiftCount (BitVec.ofNat 3 k) = k := by
  interval_cases k <;> rfl

theorem regShiftCount_eq_mod (v : Word) : Machine.regShiftCount v = v.toNat % 16 := by
  simp [Machine.regShiftCount, BitVec.extractLsb'_toNat]

/-- Settles O41: `k` itself, in three bits or in sixteen, is the operand that gives the count `k`. -/
theorem shiftCountsThatCanBeGiven : Obligations.ShiftCountsThatCanBeGiven := by
  refine ⟨fun _ => rfl, fun k => ⟨?_, ?_⟩, regShiftCount_eq_mod, fun k => ⟨?_, ?_⟩⟩
  · rintro ⟨imm, rfl⟩
    exact shiftCount_range imm
  · rintro ⟨h1, h8⟩
    exact ⟨_, shiftCount_ofNat h1 h8⟩
  · rintro ⟨v, rfl⟩
    rw [regShiftCount_eq_mod]
    omega
  · intro hk
    refine ⟨BitVec.ofNat 16 k, ?_⟩
    rw [regShiftCount_eq_mod, BitVec.toNat_ofNat]
    omega

end Sys2Proof
end

section
/-! Memory word access (40_memory_word_access.md): the loads and the stores complete on every word that MemRead and
MemWrite of R52 accept. What their shared operations `loadFrom` and `storeTo` answer is said once, with the mode's
further register write left as a parameter; the frame of the state they build is said once for any register file; the six
instructions without an increment are these at their effective address (R53). -/

namespace Sys2Proof.Machine

/-! ### Where a load and a store go on -/

/-- The converse of `State.loadFrom_next`: a word of AUX RAM with a value is loaded. -/
theorem State.loadFrom_of_readWord {s : State} {ea v : Word} (hb : ea.toNat < s.ramWords)
    (hv : s.ram.readWord ea.toNat = some v) (d : Reg) (after : State → State) :
    s.loadFrom d ea after = .next
      ((after (s.setReg d v)).retire (after (s.setReg d v)).nextPc none (s.loadLatch d)) :=
  onOk_next.mpr ⟨v, State.memRead_ok.mpr ⟨hb, hv⟩, rfl⟩

/-- The converse of `State.storeTo_next`: every word of AUX RAM is stored to, with or without a value before. -/
theorem State.storeTo_of_lt {s : State} {ea : Word} (hb : ea.toNat < s.ramWords) (v : Word)
    (after : State → State) :
    s.storeTo ea v after = .next ((after (s.storeWord ea v)).retire (after (s.storeWord ea v)).nextPc) :=
  onOk_next.mpr ⟨_, State.memWrite_ok.mpr ⟨hb, rfl⟩, rfl⟩

/-! ### The frame of a load and of a store -/

/-- A load that wrote no register outside `d :: inc` and left `v` in `d`, whatever the other registers became. -/
theorem loadedReg_retire {s : State} {d : Reg} {v : Word} {inc : List Reg} {x : Regs} (hd : x.get d = v)
    (hx : RegsKeptBut (d :: inc) s { s with regs := x }) :
    LoadedReg d v inc s (State.retire { s with regs := x } s.nextPc none (s.loadLatch d)) := by
  refine ⟨?_, fun r hr => ?_, State.retire_flags .., ⟨fun a => by simp, fun a => by simp⟩, by simp [RestKept],
    commonTail_retire rfl rfl rfl rfl _ _ _⟩
  · rw [State.retire_reg]
    exact hd
  · rw [State.retire_reg, hx r hr]

/-- A store changes the two bytes and the mark of its own word only (R52). -/
theorem ramKeptBut_storeWord (s : State) (ea v : Word) : RamKeptBut ea s (s.storeWord ea v) := by
  refine ⟨fun a hlow hhigh => ?_, fun a ha => ?_⟩
  · rw [State.storeWord_ram, Memory.read_writeWord, if_neg hlow, if_neg hhigh]
  · simp [Marks.has_add, ha]

/-- A store of `v` that wrote no register outside `inc`. -/
theorem storedWord_retire {s : State} {ea : Word} {inc : List Reg} {x : Regs} (v : Word)
    (hx : RegsKeptBut inc s { s with regs := x }) :
    StoredWord ea v inc s (State.retire { s.storeWord ea v with regs := x } s.nextPc) := by
  refine ⟨?_, ?_, ?_, fun r hr => ?_, State.retire_flags .., State.retire_ioHistory .., by simp [RestKept],
    commonTail_retire rfl rfl rfl rfl _ _ _⟩
  · simp [Memory.readWord_writeWord]
  · simp [Marks.has_add]
  · simpa [RamKeptBut] using ramKeptBut_storeWord s ea v
  · rw [State.retire_reg]
    exact hx r hr

/-! ### The accesses without an increment -/

section WithoutIncrement
variable {s : State} {k : InstrClass} {ea : Word}

/-- A load that the checks of R40 let through completes at any word with a value. -/
theorem load_completes (hp : s.pfx = none ∨ k.takesPfix = true) (hl : k.notAtLoopEnd = false)
    (hb : ea.toNat < s.ramWords) {v : Word} (hv : s.ram.readWord ea.toNat = some v) (d : Reg) :
    ∃ t, s.checked k (s.loadFrom d ea id) = .next t ∧ t.ioHistory = s.ioHistory ∧ LoadedReg d v [] s t := by
  rw [State.checked_pass hp (.inr hl), State.loadFrom_of_readWord hb hv]
  exact ⟨_, rfl, State.retire_ioHistory .., loadedReg_retire (Regs.get_set_same ..) (regsKeptBut_setReg rfl d v)⟩

/-- A store that the checks of R40 let through completes at any word of AUX RAM. -/
theorem store_completes (hp : s.pfx = none ∨ k.takesPfix = true) (hl : k.notAtLoopEnd = false)
    (hb : ea.toNat < s.ramWords) (v : Word) :
    ∃ t, s.checked k (s.storeTo ea v id) = .next t ∧ StoredWord ea v [] s t := by
  rw [State.checked_pass hp (.inr hl), State.storeTo_of_lt hb]
  exact ⟨_, rfl, storedWord_retire v (regsKeptBut_of_regs_eq [] rfl)⟩

end WithoutIncrement

/-- Settles O23: the three loads are one at the addresses of R53; only the direct one takes a `pfix`. -/
theorem loadsBringTheirWord : Obligations.LoadsBringTheirWord := by
  intro d b addr s v
  refine ⟨fun hb hv => ?direct, fun hp hb hv => ?indirect, fun hp hb hv => ?indexed⟩
  case direct => exact load_completes (k := prefixableClass) (.inr rfl) rfl hb hv d
  case indirect => exact load_completes (k := plainClass) (.inl hp) rfl hb hv d
  case indexed => exact load_completes (k := plainClass) (ea := s.indexedAddr b) (.inl hp) rfl hb hv d

/-- Settles O25: the three stores are one at the addresses of R53; only the direct one takes a `pfix`. -/
theorem storesPutTheirWord : Obligations.StoresPutTheirWord := by
  intro d b addr s
  refine ⟨fun hb => ?direct, fun hp hb => ?indirect, fun hp hb => ?indexed⟩
  case direct => exact store_completes (k := prefixableClass) (.inr rfl) rfl hb (s.reg d)
  case indirect => exact store_completes (k := plainClass) (.inl hp) rfl hb (s.reg d)
  case indexed => exact store_completes (k := plainClass) (ea := s.indexedAddr b) (.inl hp) rfl hb (s.reg d)

end Sys2Proof.Machine
end

section
/-! Register access (42_register_access.md): the loads of an immediate (R140) and of a register (R141) complete with the
flags kept. Both are the operation "write one register and go on", said once with the flags it leaves as a parameter. -/

namespace Sys2Proof.Machine

section RegisterWrite
variable {s : State} {k : InstrClass}

/-- A write of one register and the flags that the checks of R40 let through completes. -/
theorem resultTo_completes (hp : s.pfx = none ∨ k.takesPfix = true) (hl : k.notAtLoopEnd = false) (d : Reg)
    (v : Word) (f : Flags) :
    ∃ t, s.checked k (s.resultTo d v f) = .next t ∧ t.flags = f ∧ WroteReg d v s t := by
  rw [State.checked_pass hp (.inr hl)]
  exact ⟨_, rfl, State.retire_flags .., wroteReg_retire s d v f⟩

/-- A write of one register alone is a `resultTo` that writes the old flags back. -/
theorem regWrite_completes (hp : s.pfx = none ∨ k.takesPfix = true) (hl : k.notAtLoopEnd = false) (d : Reg)
    (v : Word) :
    ∃ t, s.checked k (s.setReg d v).advance = .next t ∧ t.flags = s.flags ∧ WroteReg d v s t :=
  resultTo_completes hp hl d v s.flags

end RegisterWrite

/-- Settles O32: both loads are one register write; only the load of an immediate takes a `pfix`. -/
theorem registerLoadsComplete : Obligations.RegisterLoadsComplete := by
  intro d b simm s
  refine ⟨?immediate, fun hp => ?register⟩
  case immediate => exact regWrite_completes (k := prefixableClass) (.inr rfl) rfl d (s.imm10s simm)
  case register => exact regWrite_completes (k := plainClass) (.inl hp) rfl d (s.reg b)

end Sys2Proof.Machine
end

section
/-! Logical instructions (43_logical.md): `and`, `or`, `xor`, `inv` and `tst` complete with `logicFlags` of their result
(R10). The first four are the register write `resultTo`; `tst` is the operation "write the flags and go on", said once
with the flags it leaves as a parameter. For both, flags that R10 sets from a result are read back as `FlagsOf`. -/

namespace Sys2Proof.Machine

section FlagsOfAResult
variable {s : State} {k : InstrClass}

/-- A write of the flags alone that the checks of R40 let through completes. -/
theorem flagsWrite_completes (hp : s.pfx = none ∨ k.takesPfix = true) (hl : k.notAtLoopEnd = false) (f : Flags) :
    ∃ t, s.checked k (s.setFlags f).advance = .next t ∧ t.flags = f ∧ WroteNoReg s t := by
  rw [State.checked_pass hp (.inr hl)]
  exact ⟨_, rfl, State.retire_flags .., wroteNoReg_retire s f⟩

/-- A result written to its register with the Z and N of R10 and the given C and V. -/
theorem resultTo_flagsZN_completes (hp : s.pfx = none ∨ k.takesPfix = true) (hl : k.notAtLoopEnd = false) (d : Reg)
    (r : Word) (c v : Bool) :
    ∃ t, s.checked k (s.resultTo d r (flagsZN r c v)) = .next t ∧ WroteReg d r s t ∧ FlagsOf r c v t := by
  obtain ⟨t, ht, hf, hw⟩ := resultTo_completes hp hl d r (flagsZN r c v)
  exact ⟨t, ht, hw, flagsOf_flagsZN r c v hf⟩

/-- A result of which the flags alone are written, with the Z and N of R10 and the given C and V. -/
theorem setFlags_flagsZN_completes (hp : s.pfx = none ∨ k.takesPfix = true) (hl : k.notAtLoopEnd = false)
    (r : Word) (c v : Bool) :
    ∃ t, s.checked k (s.setFlags (flagsZN r c v)).advance = .next t ∧ WroteNoReg s t ∧ FlagsOf r c v t := by
  obtain ⟨t, ht, hf, hw⟩ := flagsWrite_completes hp hl (flagsZN r c v)
  exact ⟨t, ht, hw, flagsOf_flagsZN r c v hf⟩

/-- A logical result is a `resultTo` with C and V clear. -/
theorem State.logicTo_eq_resultTo (d : Reg) (r : Word) : s.logicTo d r = s.resultTo d r (flagsZN r false false) := rfl

theorem logicTo_completes (hp : s.pfx = none ∨ k.takesPfix = true) (hl : k.notAtLoopEnd = false) (d : Reg)
    (r : Word) :
    ∃ t, s.checked k (s.logicTo d r) = .next t ∧ WroteReg d r s t ∧ FlagsOf r false false t := by
  rw [State.logicTo_eq_resultTo]
  exact resultTo_flagsZN_completes hp hl d r false false

end FlagsOfAResult

/-- Settles O33: the seven instructions are one logical write; only the three with an immediate take a `pfix`. -/
theorem logicalResultsAndFlags : Obligations.LogicalResultsAndFlags := by
  intro d b imm s
  have immediate := logicTo_completes (s := s) (k := prefixableClass) (.inr rfl) rfl d
  refine ⟨immediate (s.reg d &&& s.imm8u imm), immediate (s.reg d ||| s.imm8u imm),
    immediate (s.reg d ^^^ s.imm8u imm), fun hp => ?_⟩
  have register := logicTo_completes (k := plainClass) (.inl hp) rfl d
  exact ⟨register (s.reg d &&& s.reg b), register (s.reg d ||| s.reg b), register (s.reg d ^^^ s.reg b),
    register (~~~ s.reg d)⟩

/-- Settles O34: both tests write the flags of the AND alone; only the one with an immediate takes a `pfix`. -/
theorem testsWriteFlagsOnly : Obligations.TestsWriteFlagsOnly := by
  intro d b imm s
  refine ⟨?immediate, fun hp => ?register⟩
  case immediate =>
    exact setFlags_flagsZN_completes (k := prefixableClass) (.inr rfl) rfl (s.reg d &&& s.imm8u imm) false false
  case register =>
    exact setFlags_flagsZN_completes (k := plainClass) (.inl hp) rfl (s.reg d &&& s.reg b) false false

end Sys2Proof.Machine
end


section
/-! Arithmetic (44_arithmetic.md): `add`, `sub`, `subr` and `cmp` complete. The flags that R10 gives a sum and a difference
are first written over the words of a machine word's ring; each instruction is then the register write `resultTo`, or the
write of the flags alone, with these flags. -/

namespace Sys2Proof.Machine

/-! ### The flags of a sum and of a difference (R10) -/

theorem addFlags_eq_flagsZN (a b : Word) : addFlags a b =
    flagsZN (a + b) (decide (65536 ≤ a.toNat + b.toNat)) (decide ((a + b).toInt ≠ a.toInt + b.toInt)) := by
  rw [addFlags, addResult_eq, signedOverflow_add]

theorem subFlags_eq_flagsZN (a b : Word) : subFlags a b =
    flagsZN (a - b) (decide (a.toNat < b.toNat)) (decide ((a - b).toInt ≠ a.toInt - b.toInt)) := by
  rw [subFlags, subResult_eq, signedOverflow_sub]

/-! ### An addition, a subtraction and a comparison complete -/

section SumsAndDifferences
variable {s : State} {k : InstrClass}

theorem addition_completes (hp : s.pfx = none ∨ k.takesPfix = true) (hl : k.notAtLoopEnd = false) (d : Reg)
    (a b : Word) :
    ∃ t, s.checked k (s.resultTo d (addResult a b) (addFlags a b)) = .next t ∧ WroteReg d (a + b) s t ∧
      FlagsOf (a + b) (decide (65536 ≤ a.toNat + b.toNat)) (decide ((a + b).toInt ≠ a.toInt + b.toInt)) t := by
  rw [addResult_eq, addFlags_eq_flagsZN]
  exact resultTo_flagsZN_completes hp hl d _ _ _

theorem subtraction_completes (hp : s.pfx = none ∨ k.takesPfix = true) (hl : k.notAtLoopEnd = false) (d : Reg)
    (a b : Word) :
    ∃ t, s.checked k (s.resultTo d (subResult a b) (subFlags a b)) = .next t ∧ WroteReg d (a - b) s t ∧
      FlagsOf (a - b) (decide (a.toNat < b.toNat)) (decide ((a - b).toInt ≠ a.toInt - b.toInt)) t := by
  rw [subResult_eq, subFlags_eq_flagsZN]
  exact resultTo_flagsZN_completes hp hl d _ _ _

theorem comparison_completes (hp : s.pfx = none ∨ k.takesPfix = true) (hl : k.notAtLoopEnd = false) (a b : Word) :
    ∃ t, s.checked k (s.setFlags (subFlags a b)).advance = .next t ∧ WroteNoReg s t ∧
      FlagsOf (a - b) (decide (a.toNat < b.toNat)) (decide ((a - b).toInt ≠ a.toInt - b.toInt)) t := by
  rw [subFlags_eq_flagsZN]
  exact setFlags_flagsZN_completes hp hl _ _ _

end SumsAndDifferences

/-- Settles O35: both forms are one addition (R160, R163); only the one with an immediate takes a `pfix`. -/
theorem addResultsAndFlags : Obligations.AddResultsAndFlags := by
  intro d b simm s
  refine ⟨?immediate, fun hp => ?register⟩
  case immediate => exact addition_completes (k := prefixableClass) (.inr rfl) rfl d (s.reg d) (s.imm8s simm)
  case register => exact addition_completes (k := plainClass) (.inl hp) rfl d (s.reg d) (s.reg b)

/-- Settles O36: `subr` is the subtraction of `sub` with its operands exchanged (R162, R165). -/
theorem subtractResultsAndFlags : Obligations.SubtractResultsAndFlags := by
  intro d b s hp
  have subtraction := subtraction_completes (k := plainClass) (.inl hp) rfl d
  exact ⟨subtraction (s.reg d) (s.reg b), subtraction (s.reg b) (s.reg d)⟩

/-- Settles O37: both forms are one comparison (R161, R164); only the one with an immediate takes a `pfix`. -/
theorem comparesWriteFlagsOnly : Obligations.ComparesWriteFlagsOnly := by
  intro d b simm s
  refine ⟨?immediate, fun hp => ?register⟩
  case immediate => exact comparison_completes (k := prefixableClass) (.inr rfl) rfl (s.reg d) (s.imm8s simm)
  case register => exact comparison_completes (k := plainClass) (.inl hp) rfl (s.reg d) (s.reg b)

end Sys2Proof.Machine
end

section
/-! Shifts (45_shift.md): `lsl`, `lsr` and `asr` complete. The arithmetic of R175 is first written as the shifts of a bit
vector, from which the bits are read; what the three write is the register write `resultTo`, and an instruction is one of
them at the count of its operand (R93). -/

namespace Sys2Proof.Machine

/-! ### The shifts of R175 as shifts of a bit vector -/

theorem shl_eq (v : Word) (k : Nat) : shl v k = ⟨v <<< k, decide (k ≠ 0) && v.getLsbD (16 - k)⟩ := by
  by_cases hk : k = 0
  · simp [shl, hk]
  · have result : BitVec.ofNat 16 (v.toNat * 2 ^ k) = v <<< k :=
      BitVec.eq_of_toNat_eq (by simp [Nat.shiftLeft_eq])
    simp [shl, hk, result]

theorem shr_eq (v : Word) (k : Nat) : shr v k = ⟨v >>> k, decide (k ≠ 0) && v.getLsbD (k - 1)⟩ := by
  by_cases hk : k = 0
  · simp [shr, hk]
  · have result : BitVec.ofNat 16 (v.toNat / 2 ^ k) = v >>> k := by
      rw [← Nat.shiftRight_eq_div_pow, ← BitVec.toNat_ushiftRight, BitVec.ofNat_toNat, BitVec.setWidth_eq]
    simp [shr, hk, result]

/-- The floor of R175 is the shift that keeps the sign. -/
theorem sar_eq (v : Word) (k : Nat) : sar v k = ⟨v.sshiftRight k, decide (k ≠ 0) && v.getLsbD (k - 1)⟩ := by
  by_cases hk : k = 0
  · simp [sar, hk]
  · have result : BitVec.ofInt 16 (v.toInt / 2 ^ k) = v.sshiftRight k := by
      simp [BitVec.sshiftRight, Int.shiftRight_eq_div_pow]
    simp [sar, hk, result]

/-! ### Bit by bit -/

theorem shl_bits (v : Word) (k : Nat) : ShiftedLeft v k (shl v k).result (shl v k).out := by
  rw [shl_eq]
  refine ⟨fun i hi => ?_, rfl⟩
  simp only [BitVec.getLsbD_shiftLeft, hi, decide_true, Bool.true_and, Nat.not_lt, ← decide_not]

theorem shr_bits (v : Word) (k : Nat) : ShiftedRight v k (shr v k).result (shr v k).out := by
  rw [shr_eq]
  refine ⟨fun i _ => ?_, rfl⟩
  rw [BitVec.getLsbD_ushiftRight, Nat.add_comm]

theorem sar_bits (v : Word) (k : Nat) : ShiftedRightSigned v k (sar v k).result (sar v k).out := by
  rw [sar_eq]
  refine ⟨fun i hi => ?_, rfl⟩
  have inside : decide (16 ≤ i) = false := decide_eq_false (Nat.not_le.mpr hi)
  simp only [BitVec.getLsbD_sshiftRight, inside, BitVec.msb_eq_getLsbD_last, Nat.add_comm k i, Bool.not_false,
    Bool.true_and, Nat.reduceSub]

/-! ### A shift completes -/

/-- A shift is a `resultTo` with the last bit shifted out as C and V clear. -/
theorem State.shiftTo_eq_resultTo (s : State) (d : Reg) (x : Shifted) :
    s.shiftTo d x = s.resultTo d x.result (flagsZN x.result x.out false) := rfl

/-- Whatever relation `P` the result and the last bit shifted out have, the value written and C have. -/
theorem shiftTo_completes {s : State} (hp : s.pfx = none) (d : Reg) {x : Shifted} {P : Word → Bool → Prop}
    (hx : P x.result x.out) :
    ∃ t r c, s.checked plainClass (s.shiftTo d x) = .next t ∧ WroteReg d r s t ∧ FlagsOf r c false t ∧ P r c := by
  rw [State.shiftTo_eq_resultTo]
  obtain ⟨t, ht, hw, hf⟩ :=
    resultTo_flagsZN_completes (k := plainClass) (.inl hp) rfl d x.result x.out false
  exact ⟨t, x.result, x.out, ht, hw, hf, hx⟩

/-- Settles O39: the count of a register shift is the count register modulo 16. -/
theorem registerShiftsBitByBit : Obligations.RegisterShiftsBitByBit := by
  intro d b s hp
  rw [← regShiftCount_eq_mod]
  exact ⟨shiftTo_completes hp d (shl_bits (s.reg d) (regShiftCount (s.reg b))),
    shiftTo_completes hp d (shr_bits (s.reg d) (regShiftCount (s.reg b))),
    shiftTo_completes hp d (sar_bits (s.reg d) (regShiftCount (s.reg b)))⟩

/-- Settles O40: the count that the statement spells out is `shiftCount` (R93). -/
theorem immediateShiftsBitByBit : Obligations.ImmediateShiftsBitByBit := by
  intro d imm s hp
  have count : shiftCount imm = if imm = 0#3 then 8 else imm.toNat := rfl
  rw [← count]
  exact ⟨shiftTo_completes hp d (shl_bits (s.reg d) (shiftCount imm)),
    shiftTo_completes hp d (shr_bits (s.reg d) (shiftCount imm)),
    shiftTo_completes hp d (sar_bits (s.reg d) (shiftCount imm))⟩

end Sys2Proof.Machine
end

section
/-! Program flow control (46_program_flow.md): the branches and the jumps complete at their targets, the conditions after a
compare say what their names say, and a return undoes a call. A jump that the checks of R40 let through is said once; a
relative branch is one to the target that its condition chooses. The conditions of R196 are read over the flags once: four
of them as the sign against the overflow, five as the complements of others. -/

namespace Sys2Proof.Machine

/-! ### The conditions of R196 -/

section Conditions
variable (f : Flags)

theorem condGes_eq : condGes f = (f.n == f.v) := by cases h : f.n <;> simp [condGes, h]

theorem condLts_eq : condLts f = (f.n != f.v) := by cases h : f.n <;> simp [condLts, h]

theorem condGts_eq : condGts f = (f.n == f.v && !f.z) := congrArg (· && !f.z) (condGes_eq f)

theorem condLes_eq : condLes f = ((f.n != f.v) || f.z) := congrArg (· || f.z) (condLts_eq f)

theorem condGeu_eq_not_condLtu : condGeu f = !condLtu f := rfl

theorem condNeq_eq_not_condEq : condNeq f = !condEq f := rfl

theorem condGtu_eq_not_condLeu : condGtu f = !condLeu f := (Bool.not_or ..).symm

theorem condGes_eq_not_condLts : condGes f = !condLts f := by
  simp only [condGes_eq, condLts_eq, bne, Bool.not_not]

theorem condGts_eq_not_condLes : condGts f = !condLes f := by
  simp only [condGts_eq, condLes_eq, bne, Bool.not_or, Bool.not_not]

end Conditions

/-! ### The conditions on the flags of a difference (R10) -/

section Comparison
variable (a b : Word)

theorem condLtu_subFlags : condLtu (subFlags a b) = decide (a.toNat < b.toNat) := rfl

theorem condEq_subFlags : condEq (subFlags a b) = decide (a = b) := by
  have hz : a - b = 0#16 ↔ a = b := sub_eq_zero
  simp [condEq, subFlags_eq_flagsZN, flagsZN, beq_eq_decide, hz]

theorem condLeu_subFlags : condLeu (subFlags a b) = decide (a.toNat ≤ b.toNat) := by
  have ltuOrEq : condLeu (subFlags a b) = (condLtu (subFlags a b) || condEq (subFlags a b)) := rfl
  rw [ltuOrEq, condLtu_subFlags, condEq_subFlags, ← Bool.decide_or, decide_eq_decide, ← BitVec.toNat_inj]
  omega

/-- The sign of a difference is its true sign exactly where there is no overflow. -/
theorem condLts_subFlags : condLts (subFlags a b) = decide (a.toInt < b.toInt) := by
  have hn : (subFlags a b).n = decide ((a - b).toInt < 0) := by
    rw [subFlags_eq_flagsZN, ← BitVec.msb_eq_toInt]; rfl
  have hv : (subFlags a b).v = decide ((a - b).toInt ≠ a.toInt - b.toInt) := by
    rw [subFlags_eq_flagsZN]; rfl
  have ha := a.toInt_lt; have ha' := a.le_toInt; have hb := b.toInt_lt; have hb' := b.le_toInt
  rw [condLts_eq, hn, hv, BitVec.toInt_sub, Bool.eq_iff_iff, bne_iff_ne, ne_eq, decide_eq_decide, decide_eq_true_eq]
  simp only [Int.bmod] at *
  omega

theorem condLes_subFlags : condLes (subFlags a b) = decide (a.toInt ≤ b.toInt) := by
  have ltsOrEq : condLes (subFlags a b) = (condLts (subFlags a b) || condEq (subFlags a b)) := rfl
  rw [ltsOrEq, condLts_subFlags, condEq_subFlags, ← Bool.decide_or, decide_eq_decide, ← BitVec.toInt_inj]
  omega

end Comparison

theorem exec_cmpReg_flags {d b : Reg} {s t : State} (h : exec (.cmpReg d b) s = .next t) :
    t.flags = subFlags (s.reg d) (s.reg b) := by
  obtain ⟨_, _, hbody⟩ := State.checked_next.mp h
  obtain rfl := (State.advance_next _ _ _).mp hbody
  exact State.retire_flags ..

/-- Settles O42: five conditions are read from the flags of the difference, and five are their complements. -/
theorem conditionsAfterACompareCompareTheOperands : Obligations.ConditionsAfterACompareCompareTheOperands := by
  intro d b s t h
  rw [exec_cmpReg_flags h, condGtu_eq_not_condLeu, condGeu_eq_not_condLtu, condGes_eq_not_condLts,
    condGts_eq_not_condLes, condNeq_eq_not_condEq]
  simp only [condLtu_subFlags, condLeu_subFlags, condEq_subFlags, condLts_subFlags, condLes_subFlags, ← decide_not,
    Nat.not_lt, Nat.not_le, Int.not_lt, Int.not_le, ne_eq, and_self]

/-! ### Jumps and branches complete -/

section Completion
variable {s : State} {k : InstrClass}

/-- A jump that the checks of R40 let through, away from the end of an active loop. -/
theorem goTo_completes (hp : s.pfx = none ∨ k.takesPfix = true) (hl : NotLoopEnd s) (target : Word) :
    ∃ t, s.checked k (s.goTo target) = .next t ∧ WentTo target s.stack s t := by
  rw [State.checked_pass hp (.inl ((notLoopEnd_iff s).mp hl))]
  exact ⟨_, rfl, wentTo_retire hl target s.stack⟩

/-- An instruction that is a relative branch goes to `pc + 1 + rel` (R92) or on to the next word. -/
theorem branch_completes (hp : s.pfx = none) (hl : NotLoopEnd s) {i : Instr} {taken : Bool} {rel : BitVec 8}
    (hi : exec i s = s.branchIf taken rel) :
    ∃ t, exec i s = .next t ∧
      WentTo (if taken = true then s.pc + 1 + rel.signExtend 16 else s.pc + 1) s.stack s t := by
  rw [hi]
  exact goTo_completes (k := flowClass) (.inl hp) hl _

end Completion

/-! The four branches on n against v, in the words of R196's table. -/

section SignedBranches
variable (rel : BitVec 8) (s : State)

theorem exec_bges : exec (.bges rel) s = s.branchIf (s.flags.n == s.flags.v) rel :=
  congrArg (s.branchIf · rel) (condGes_eq s.flags)

theorem exec_bgts : exec (.bgts rel) s = s.branchIf (s.flags.n == s.flags.v && !s.flags.z) rel :=
  congrArg (s.branchIf · rel) (condGts_eq s.flags)

theorem exec_blts : exec (.blts rel) s = s.branchIf (s.flags.n != s.flags.v) rel :=
  congrArg (s.branchIf · rel) (condLts_eq s.flags)

theorem exec_bles : exec (.bles rel) s = s.branchIf ((s.flags.n != s.flags.v) || s.flags.z) rel :=
  congrArg (s.branchIf · rel) (condLes_eq s.flags)

end SignedBranches

/-- Settles O43: every row is a relative branch on its condition, which ten of the branches read as the table words it. -/
theorem conditionalBranchesFollowTheConditionsTable : Obligations.ConditionalBranchesFollowTheConditionsTable := by
  intro rel s hp hl
  have row {i : Instr} {taken : Bool} := branch_completes (i := i) (taken := taken) (rel := rel) hp hl
  simp only [List.forall_mem_cons]
  exact ⟨row rfl, row rfl, row rfl, row rfl, row rfl, row (exec_bges rel s), row (exec_bgts rel s), row rfl, row rfl,
    row rfl, row rfl, row rfl, row (exec_blts rel s), row (exec_bles rel s), List.forall_mem_nil _⟩

/-! ### `bra` -/

theorem encode_bra (rel : BitVec 8) : encode (.bra rel) = 0b10001110#8 ++ rel := by
  apply BitVec.eq_of_getLsbD_eq; intro i hi
  rw [BitVec.getLsbD_append]
  interval_cases i <;> simp [encode, packBR, place]

/-- Settles O44: `bra` is a relative branch that is always taken; its word is the encoder's. -/
theorem branchAlwaysGoesToItsTarget : Obligations.BranchAlwaysGoesToItsTarget := by
  refine ⟨fun rel => ?word, fun rel s hp hl => ?target⟩
  case word =>
    rw [← encode_bra]
    exact decodeOfEncodeIsTheInstruction (.bra rel) rfl
  case target =>
    obtain ⟨t, ht, hwent⟩ := branch_completes (i := .bra rel) (taken := true) hp hl rfl
    refine ⟨t, ht, hwent, ?_⟩
    rintro rfl
    obtain ⟨hpc, _⟩ := hwent
    have hback : BitVec.signExtend 16 0xFF#8 = -1#16 := by decide
    rw [hpc, if_pos rfl, hback]
    exact add_neg_cancel_right s.pc 1#16

/-- Settles O45: `bev1` is the relative branch on the level of its event and `bev0` on its complement. -/
theorem eventBranchesFollowTheEventLevel : Obligations.EventBranchesFollowTheEventLevel := by
  intro ev rel s hp hl
  refine ⟨?low, ?high⟩
  case low => simpa [State.event] using branch_completes (i := .bev0 ev rel) hp hl rfl
  case high => exact branch_completes (i := .bev1 ev rel) hp hl rfl

/-- Settles O46: both are a jump; only the one to an address takes a `pfix`. -/
theorem jumpsGoToTheirTarget : Obligations.JumpsGoToTheirTarget := by
  intro addr s hl
  refine ⟨?address, fun hp => ?register⟩
  case address => exact goTo_completes (k := jumpClass) (.inr rfl) hl (s.imm10u addr)
  case register => exact goTo_completes (k := flowClass) (.inl hp) hl s.dedicatedR0

/-! ### Call and return -/

/-- What a call that goes on leaves for the return (R28, R191). -/
theorem exec_jsr_leaves {addr : BitVec 10} {s t : State} (h : exec (.jsr addr) s = .next t) :
    t.pfx = none ∧ t.stack = (s.pc + 1) :: s.stack ∧ t.regs = s.regs ∧ t.flags = s.flags ∧ t.ram = s.ram := by
  obtain ⟨_, _, hcall⟩ := State.checked_next.mp h
  obtain ⟨_, rfl⟩ := State.call_next.mp hcall
  simp [State.nextPc]

/-- A return with an address stacked (R28, R194). -/
theorem exec_rts_of_stack {s : State} {v : Word} {rest : List Word} (hp : s.pfx = none) (hl : NotLoopEnd s)
    (hs : s.stack = v :: rest) : exec .rts s = .next (State.retire { s with stack := rest } v) :=
  State.checked_next.mpr ⟨.inl hp, .inl ((notLoopEnd_iff s).mp hl),
    onOk_next.mpr ⟨_, State.pop_ok.mpr ⟨rest, hs, rfl⟩, rfl⟩⟩

/-- Settles O49: the call leaves the address of the next word on the stack, and the return goes there and takes it off. -/
theorem callThenReturnGoesBack : Obligations.CallThenReturnGoesBack := by
  intro addr p s t hcall hl
  obtain ⟨hpfx, hstack, hregs, hflags, hram⟩ := exec_jsr_leaves hcall
  obtain ⟨hpc, hrest, _⟩ := wentTo_retire hl (s.pc + 1) s.stack
  refine ⟨_, exec_rts_of_stack hpfx hl hstack, hpc, hrest, ?regs, ?flags, ?ram⟩
  case regs => exact (State.retire_regs ..).trans hregs
  case flags => exact (State.retire_flags ..).trans hflags
  case ram => exact (State.retire_ram ..).trans hram

end Sys2Proof.Machine
end

section
/-! Miscellaneous (49_miscellaneous.md): `nop` (R240) and `pfix` (R241) complete. Each is the common tail alone, whose
frame is said once with the values it leaves in the two latches as parameters. -/

namespace Sys2Proof.Machine

/-- The frame of the common tail alone (item 7 of R40). -/
theorem retire_frame (s : State) (next : Word) (p : Option Byte) (l : Option Word) :
    (s.retire next p l).flags = s.flags ∧ RegsKeptBut [] s (s.retire next p l) ∧ RamKept s (s.retire next p l) ∧
      (s.retire next p l).ioHistory = s.ioHistory ∧ RestKept s (s.retire next p l) ∧
      CommonTail next p l s (s.retire next p l) := by
  refine ⟨State.retire_flags .., regsKeptBut_of_regs_eq [] (State.retire_regs ..), ?ram, State.retire_ioHistory ..,
    ?rest, commonTail_retire rfl rfl rfl rfl next p l⟩
  case ram => simp [RamKept]
  case rest => simp [RestKept]

/-- `nop` away from a pending prefix, also at the end of an active loop (R240). -/
theorem exec_nop_of_no_prefix {s : State} (hp : s.pfx = none) : exec .nop s = .next (s.retire s.nextPc) :=
  State.checked_pass (k := plainClass) (.inl hp) (.inr rfl)

/-- `pfix` away from a pending prefix and from the end of an active loop (R241, R222). -/
theorem exec_pfix_of_no_prefix {s : State} (hp : s.pfx = none) (hl : NotLoopEnd s) (imm : BitVec 8) :
    exec (.pfix imm) s = .next (s.retire s.nextPc (some imm)) :=
  State.checked_pass (k := flowClass) (.inl hp) (.inl ((notLoopEnd_iff s).mp hl))

/-- Settles O57: both are the common tail alone; `pfix` leaves its operand in the prefix latch. -/
theorem nopAndPfixComplete : Obligations.NopAndPfixComplete := by
  intro imm s hp
  refine ⟨?nop, fun hl => ?pfix⟩
  case nop => exact ⟨_, exec_nop_of_no_prefix hp, retire_frame s s.nextPc none none⟩
  case pfix => exact ⟨_, exec_pfix_of_no_prefix hp hl imm, retire_frame s s.nextPc (some imm) none⟩

end Sys2Proof.Machine
end

section
/-! The state under every step (10_state.md, 20_memory.md): AUX RAM and its marks stay canonical and in range, at most
three return addresses are stacked, and Standby is clear. The rule of AUX RAM is said first, of a memory and its marks
alone, for a write, a mark and its removal; the environment's part of a step and the six shapes of an instruction's next
state (`Effect`) are then assembled from it. -/

namespace Sys2Proof.Machine

/-! ### AUX RAM and its marks (R50, R52) -/

/-- A write of a byte lists no new address but its own. -/
theorem Memory.mem_write {m : Memory} {a : Nat} {v : Byte} {c : Host.Cell} (h : c ∈ m.write a v) :
    c = (a, v) ∨ c ∈ m := by
  induction m with
  | nil => simpa [Memory.write] using h
  | cons x m ih =>
    obtain ⟨b, w⟩ := x
    unfold Memory.write at h
    split at h
    · simpa using h
    · split at h
      · exact (List.mem_cons.mp h).imp_right (List.mem_cons_of_mem _)
      · rcases List.mem_cons.mp h with rfl | h
        · exact .inr List.mem_cons_self
        · exact (ih h).imp_right (List.mem_cons_of_mem _)

/-- A write of a word inside a memory of `n` words lists no address outside it. -/
theorem Memory.lt_of_mem_writeWord {m : Memory} {n a : Nat} {v : Word} (hm : ∀ c ∈ m, c.1 < 2 * n) (ha : a < n) :
    ∀ c ∈ m.writeWord a v, c.1 < 2 * n := by
  intro c hc
  rcases Memory.mem_write hc with rfl | hc
  · show 2 * a + 1 < 2 * n
    omega
  · rcases Memory.mem_write hc with rfl | hc
    · show 2 * a < 2 * n
      omega
    · exact hm c hc

theorem Memory.readWord_writeWord_isSome {m : Memory} {b : Nat} (h : (m.readWord b).isSome = true) (a : Nat)
    (v : Word) :
    ((m.writeWord a v).readWord b).isSome = true := by
  rw [Memory.readWord_writeWord]
  split
  · rfl
  · exact h

/-- A memory of `n` words and its marks: both canonical, nothing out of range, and every marked word with a value. -/
structure GoodRam (n : Nat) (m : Memory) (k : Marks) : Prop where
  ramWf : Memory.wf m = true
  marksWf : Marks.wf k = true
  inRange : ∀ c ∈ m, c.1 < 2 * n
  marksWritten : ∀ a ∈ k, (m.readWord a).isSome = true

theorem GoodRam.writeWord {n : Nat} {m : Memory} {k : Marks} (h : GoodRam n m k) {a : Nat} (ha : a < n) (v : Word) :
    GoodRam n (m.writeWord a v) k where
  ramWf := Memory.wf_writeWord a v h.ramWf
  marksWf := h.marksWf
  inRange := Memory.lt_of_mem_writeWord h.inRange ha
  marksWritten b hb := Memory.readWord_writeWord_isSome (h.marksWritten b hb) a v

/-- A word with a value may be marked. -/
theorem GoodRam.add {n : Nat} {m : Memory} {k : Marks} (h : GoodRam n m k) {a : Nat}
    (ha : (m.readWord a).isSome = true) : GoodRam n m (k.add a) where
  ramWf := h.ramWf
  marksWf := Marks.wf_add a h.marksWf
  inRange := h.inRange
  marksWritten b hb := by
    rcases (Marks.mem_add k a b).mp hb with rfl | hb
    · exact ha
    · exact h.marksWritten b hb

theorem GoodRam.remove {n : Nat} {m : Memory} {k : Marks} (h : GoodRam n m k) (a : Nat) : GoodRam n m (k.remove a) where
  ramWf := h.ramWf
  marksWf := Marks.wf_remove a h.marksWf
  inRange := h.inRange
  marksWritten b hb := h.marksWritten b (List.mem_of_mem_filter hb)

/-- A store writes its word, which then has a value, and marks it (R52). -/
theorem GoodRam.storeWord {s : State} (h : GoodRam s.ramWords s.ram s.stored) {a : Word} (ha : a.toNat < s.ramWords)
    (v : Word) : GoodRam s.ramWords (s.storeWord a v).ram (s.storeWord a v).stored := by
  have hvalue : ((s.ram.writeWord a.toNat v).readWord a.toNat).isSome = true := by simp [Memory.readWord_writeWord]
  exact (h.writeWord ha v).add hvalue

/-- Another agent's write of a word, and in Standby the removal of its mark (R68). -/
theorem GoodRam.agentWrite {s : State} (h : GoodRam s.ramWords s.ram s.stored) (w : Word × Word) :
    GoodRam s.ramWords (s.agentWrite w).ram (s.agentWrite w).stored := by
  obtain ⟨hout, hin⟩ := s.agentWrite_spec w
  rcases Nat.lt_or_ge w.1.toNat s.ramWords with hw | hw
  · obtain ⟨hram, hstored⟩ := hin hw
    rw [hram, hstored]
    split
    · exact (h.writeWord hw w.2).remove _
    · exact h.writeWord hw w.2
  · rwa [hout hw]

/-! ### The invariant -/

theorem State.Inv.goodRam {s : State} (h : s.Inv) : GoodRam s.ramWords s.ram s.stored :=
  ⟨h.ramWf, h.marksWf, h.ramInRange, h.marksWritten⟩

/-- The invariant from its three parts: AUX RAM, the call stack, and Standby. -/
theorem State.inv_of_goodRam {s : State} (hram : GoodRam s.ramWords s.ram s.stored) (hstack : s.stack.length ≤ 3)
    (hclear : s.standbyClear) : s.Inv :=
  ⟨hram.ramWf, hram.marksWf, hram.inRange, hram.marksWritten, hstack, hclear⟩

theorem State.standbyClear_of_active {s : State} (h : s.run = .active) : s.standbyClear := by
  intro hrun
  rw [h] at hrun
  cases hrun

/-- Another agent's write touches AUX RAM and the marks only. -/
theorem State.Inv.agentWrite {s : State} (h : s.Inv) (w : Word × Word) : (s.agentWrite w).Inv := by
  have hwords : (s.agentWrite w).ramWords = s.ramWords := by simp [State.ramWords]
  refine State.inv_of_goodRam ?ram ?stack ?clear
  case ram => exact hwords ▸ h.goodRam.agentWrite w
  case stack => simpa using h.stackDepth
  case clear => simpa [State.standbyClear] using h.standbyClear

/-- The environment's part of a step keeps the invariant: the inputs and the step counter are no part of it. -/
theorem State.Inv.sample {s : State} (h : s.Inv) : s.sample.Inv :=
  have taken : State.Inv { s with now := s.nextInput, inputs := s.inputs.tail, tick := s.tick + 1 } :=
    State.inv_of_goodRam h.goodRam h.stackDepth h.standbyClear
  agentWrites_invariant State.Inv (fun _ w hs => hs.agentWrite w) _ _ taken

/-- The wake-up leaves Standby, the wait stays in it. -/
theorem State.Inv.standbyStep {s : State} (h : s.Inv) : s.standbyStep.Inv := by
  rcases s.standbyStep_cases with ⟨v, _, hstep⟩ | ⟨_, hstep⟩ <;> rw [hstep]
  · exact State.inv_of_goodRam h.goodRam h.stackDepth (State.standbyClear_of_active rfl)
  · exact h

/-- The common tail while Active: it writes neither AUX RAM nor the stack. -/
theorem State.inv_retire {u : State} {next : Word} {p : Option Byte} {l : Option Word}
    (hram : GoodRam u.ramWords u.ram u.stored) (hstack : u.stack.length ≤ 3) (hrun : u.run = .active) :
    (u.retire next p l).Inv := by
  have hwords : (u.retire next p l).ramWords = u.ramWords := by simp [State.ramWords]
  refine State.inv_of_goodRam ?ram ?stack (State.standbyClear_of_active ?active)
  case stack => rwa [State.retire_stack]
  case active => rwa [State.retire_run]
  case ram => rwa [hwords, State.retire_ram, State.retire_stored]

/-- Every shape of an instruction's next state keeps the invariant. -/
theorem State.Inv.effect {s t : State} (h : s.Inv) (hrun : s.run = .active) (he : Effect s t) : t.Inv := by
  cases he with
  | wrote r f io n p l _ ht => exact ht ▸ State.inv_retire h.goodRam h.stackDepth hrun
  | stored a v r ha ht =>
    have hram : GoodRam s.ramWords (s.storeWord a v).ram (s.storeWord a v).stored := h.goodRam.storeWord ha v
    exact ht ▸ State.inv_retire hram h.stackDepth hrun
  | stacked st n hst ht =>
    have hdepth : st.length ≤ 3 := by simpa [h.stackDepth] using hst
    exact ht ▸ State.inv_retire h.goodRam hdepth hrun
  | looped lc ls le ht => exact ht ▸ State.inv_retire h.goodRam h.stackDepth hrun
  | held ht => exact ht ▸ h
  | slept hs hl _ ht => exact ht ▸ State.inv_of_goodRam h.goodRam h.stackDepth fun _ => ⟨hs, hl, rfl, rfl⟩

/-- Settles O11: the environment's part keeps the invariant, and so do the wake-up, the wait for it, and every effect of
an instruction. -/
theorem stepKeepsTheStateInvariant : Obligations.StepKeepsTheStateInvariant := by
  intro s t hs hstep
  obtain ⟨_, ⟨_, rfl⟩ | ⟨hrun, _, _, _, _, hexec⟩⟩ := step_cases hstep
  · exact hs.sample.standbyStep
  · exact hs.sample.effect (by rwa [State.sample_run]) (exec_effect hexec)

/-- Settles O12: the reset state is in Standby with AUX RAM, the marks and the stack empty. -/
theorem resetHoldsTheInvariantAndTheStartValues : Obligations.ResetHoldsTheInvariantAndTheStartValues := by
  have hram : GoodRam State.reset.ramWords [] [] := ⟨rfl, rfl, fun _ hc => (List.not_mem_nil hc).elim,
    fun _ ha => (List.not_mem_nil ha).elim⟩
  have hinv : State.reset.Inv := State.inv_of_goodRam hram (Nat.zero_le 3) fun _ => ⟨rfl, rfl, rfl, rfl⟩
  exact ⟨hinv, rfl, rfl, rfl, rfl, rfl, rfl, fun _ => rfl, fun _ => rfl⟩

/-! ### What the environment writes (R63, R68) -/

/-- What the writes of a list each keep, all of them keep: `agentWrites_keep` for one list. -/
theorem agentWrites_keep_of_mem {α : Type} (f : State → α) {ws : List (Word × Word)}
    (hf : ∀ w ∈ ws, ∀ s, f (State.agentWrite s w) = f s) (s : State) : f (ws.foldl State.agentWrite s) = f s := by
  induction ws generalizing s with
  | nil => rfl
  | cons w ws ih =>
    rw [List.forall_mem_cons] at hf
    obtain ⟨hw, hws⟩ := hf
    rw [List.foldl_cons, ih hws, hw]

/-- A word of AUX RAM that another agent writes reads what it wrote. -/
theorem State.agentWrite_readWord_same {s : State} {w : Word × Word} (h : w.1.toNat < s.ramWords) :
    (s.agentWrite w).ram.readWord w.1.toNat = some w.2 := by
  obtain ⟨hram, _⟩ := (s.agentWrite_spec w).2 h
  rw [hram, Memory.readWord_writeWord, if_pos rfl]

/-- Every other word reads as before, and its mark is as before. -/
theorem State.agentWrite_other {w : Word × Word} {a : Nat} (h : w.1.toNat ≠ a) (s : State) :
    (s.agentWrite w).ram.readWord a = s.ram.readWord a ∧ (s.agentWrite w).stored.has a = s.stored.has a := by
  obtain ⟨hout, hin⟩ := s.agentWrite_spec w
  rcases Nat.lt_or_ge w.1.toNat s.ramWords with hw | hw
  · obtain ⟨hram, hstored⟩ := hin hw
    rw [hram, hstored, Memory.readWord_writeWord, if_neg h.symm]
    refine ⟨rfl, ?_⟩
    split
    · simp [Marks.has_remove, h.symm]
    · rfl
  · rw [hout hw]
    exact ⟨rfl, rfl⟩

/-- Words that no write of the list names read as before, and so do their marks. -/
theorem agentWrites_other {ws : List (Word × Word)} {a : Nat} (h : ∀ w ∈ ws, w.1.toNat ≠ a) (s : State) :
    (ws.foldl State.agentWrite s).ram.readWord a = s.ram.readWord a ∧
      (ws.foldl State.agentWrite s).stored.has a = s.stored.has a :=
  ⟨agentWrites_keep_of_mem (fun u => u.ram.readWord a) (fun w hw u => (State.agentWrite_other (h w hw) u).1) s,
    agentWrites_keep_of_mem (fun u => u.stored.has a) (fun w hw u => (State.agentWrite_other (h w hw) u).2) s⟩

theorem agentWrites_ramWords (ws : List (Word × Word)) (s : State) :
    (ws.foldl State.agentWrite s).ramWords = s.ramWords :=
  agentWrites_keep State.ramWords (fun _ _ => by simp [State.ramWords]) ws s

/-- While Active another agent's write leaves the marks alone (R68). -/
theorem State.sample_stored_of_active {s : State} (h : s.run = .active) : s.sample.stored = s.stored := by
  have kept : s.sample.run = .active ∧ s.sample.stored = s.stored := by
    refine agentWrites_invariant (fun u => u.run = .active ∧ u.stored = s.stored) ?_ _ _ ⟨h, rfl⟩
    rintro u w ⟨hrun, hstored⟩
    obtain ⟨hout, hin⟩ := u.agentWrite_spec w
    refine ⟨by rwa [State.agentWrite_run], ?_⟩
    rcases Nat.lt_or_ge w.1.toNat u.ramWords with hw | hw
    · simp [(hin hw).2, hrun, hstored]
    · rwa [hout hw]
  exact kept.2

/-- Settles O9: the writes listed after the one to `a` name other words, so that one is what remains. -/
theorem loadSeesTheLatestWriteOfAnotherAgent : Obligations.LoadSeesTheLatestWriteOfAnotherAgent := by
  intro s i rest early late a v hinputs hwrites hlate ha
  have hinput : s.nextInput = i := s.nextInput_spec.1 i rest hinputs
  have hother : ∀ w ∈ late, w.1.toNat ≠ a.toNat := fun w hw he => hlate w hw (BitVec.eq_of_toNat_eq he)
  refine State.memRead_ok.mpr ⟨by rwa [State.sample_ramWords], ?_⟩
  unfold State.sample
  simp only [hinput, hwrites, List.foldl_append, List.foldl_cons]
  rw [(agentWrites_other hother _).1]
  refine State.agentWrite_readWord_same (w := (a, v)) ?_
  rw [agentWrites_ramWords]
  exact ha

/-- Settles O10: a write changes its own word and, in Standby, that word's mark; the rest are the laws of `sample`. -/
theorem environmentWritesOnlyWhatItLists : Obligations.EnvironmentWritesOnlyWhatItLists := by
  intro s
  refine ⟨fun a ha => ?words, State.sample_stored_of_active, ?rest⟩
  case words =>
    rw [State.sample_now] at ha
    exact agentWrites_other ha _
  case rest => simp

/-! ### The chip and the I/O history -/

/-- An instruction changes neither the chip nor the fault record nor the environment's fields, and makes at most one I/O
access (R66). -/
theorem Effect.extends_history {s t : State} (h : Effect s t) :
    t.cfg = s.cfg ∧ t.fault = s.fault ∧ t.tick = s.tick ∧ t.inputs = s.inputs ∧
      ∃ es : List IoEvent, es.length ≤ 1 ∧ t.ioHistory = s.ioHistory ++ es := by
  cases h with
  | wrote r f io n p l hio ht => exact ht ▸ ⟨by simp, by simp, by simp, by simp, io, hio, by simp⟩
  | stored a v r _ ht => exact ht ▸ ⟨by simp, by simp, by simp, by simp, [], by simp, by simp⟩
  | stacked st n _ ht => exact ht ▸ ⟨by simp, by simp, by simp, by simp, [], by simp, by simp⟩
  | looped lc ls le ht => exact ht ▸ ⟨by simp, by simp, by simp, by simp, [], by simp, by simp⟩
  | held ht => exact ht ▸ ⟨rfl, rfl, rfl, rfl, [], by simp, by simp⟩
  | slept _ _ _ ht => exact ht ▸ ⟨rfl, rfl, rfl, rfl, [], by simp, by simp⟩

/-- Settles O13: taking the inputs counts the step, and neither the wake-up nor an instruction counts again. -/
theorem stepKeepsTheChipAndExtendsTheIoHistory : Obligations.StepKeepsTheChipAndExtendsTheIoHistory := by
  intro s t hstep
  obtain ⟨_, ⟨_, rfl⟩ | ⟨_, _, _, _, _, hexec⟩⟩ := step_cases hstep
  · rcases s.sample.standbyStep_cases with ⟨v, _, h⟩ | ⟨_, h⟩ <;> rw [h]
    · exact ⟨by simp, by simp, by simp, by simp, [], by simp, by simp⟩
    · exact ⟨by simp, by simp, by simp, by simp, [], by simp, by simp⟩
  · simpa using (exec_effect hexec).extends_history

end Sys2Proof.Machine
end

section
/-! The rules over all instructions (10_state.md, 47_loop.md, 70_reset_and_hazards.md). Before its own rule every
instruction is the checks of R40 with the class that its mnemonic has: that alone gives the two stops before it. What an
instruction that goes on does to AUX RAM, the latches and the next address is one of five courses, proved once for each
shared operation and assembled over the constructors. -/

namespace Sys2Proof.Machine

/-! ### The checks before an instruction (R40 items 3 and 3a) -/

/-- `pfix`, which stands at no end of an active loop either (R222). -/
def isPfix : Instr → Bool
  | .pfix _ => true
  | _ => false

/-- The class of an instruction, from the lists of R101 and R222. -/
def classOf (i : Instr) : InstrClass := { takesPfix := isPrefixable i, notAtLoopEnd := isFlowControl i || isPfix i }

/-- Every instruction but a data word runs its own rule behind the checks of its class. -/
theorem exec_checked (i : Instr) (hdw : ∀ w, i ≠ .dw w) (s : State) :
    ∃ body, exec i s = s.checked (classOf i) body := by
  cases i with
  | dw w => exact absurd rfl (hdw w)
  | _ => exact ⟨_, rfl⟩

/-- Settles O20: the checks' first stop (R101). -/
theorem prefixBeforeAnyOtherInstructionFaults : Obligations.PrefixBeforeAnyOtherInstructionFaults := by
  intro i s hdw hp hi
  obtain ⟨body, hbody⟩ := exec_checked i hdw s
  rw [hbody]
  exact State.checked_prefixMisuse hp hi

theorem atLoopEnd_of_not_notLoopEnd {s : State} (h : ¬ NotLoopEnd s) : s.atLoopEnd = true := by
  rwa [notLoopEnd_iff, Bool.not_eq_false] at h

/-- Settles O21: the checks' second stop (R222). -/
theorem flowControlAtTheLoopEndFaults : Obligations.FlowControlAtTheLoopEndFaults := by
  intro i s hi hend hp
  have hclass : (classOf i).notAtLoopEnd = true := by
    rcases hi with hi | ⟨imm, rfl⟩
    · simp [classOf, hi]
    · rfl
  have hdw : ∀ w, i ≠ .dw w := by
    rintro w rfl
    cases hclass
  obtain ⟨body, hbody⟩ := exec_checked i hdw s
  rw [hbody]
  exact State.checked_loopEnd hp (atLoopEnd_of_not_notLoopEnd hend) hclass

/-! ### No refusal -/

section NoRefusal
variable {s : State} {r : Refusal}

theorem State.advance_not_refused {l : Option Word} : s.advance l ≠ .refused r := nofun

theorem State.goTo_not_refused {a : Word} : s.goTo a ≠ .refused r := nofun

theorem State.loadFrom_not_refused {d : Reg} {ea : Word} {after : State → State} :
    s.loadFrom d ea after ≠ .refused r := onOk_not_refused fun _ => State.advance_not_refused

theorem State.storeTo_not_refused {ea v : Word} {after : State → State} :
    s.storeTo ea v after ≠ .refused r := onOk_not_refused fun _ => State.advance_not_refused

theorem State.call_not_refused {a : Word} : s.call a ≠ .refused r := onOk_not_refused fun _ => State.goTo_not_refused

theorem State.startLoop_not_refused {n rel : BitVec 8} : s.startLoop n rel ≠ .refused r := by
  unfold State.startLoop
  split
  · nofun
  · exact State.advance_not_refused

end NoRefusal

/-- Each shared operation faults or goes on. -/
theorem execDecoded_not_refused (i : Instr) (s : State) (r : Refusal) : execDecoded i s ≠ .refused r := by
  cases i with
  | ldDirect | ldInd | ldIndexed => exact State.checked_not_refused State.loadFrom_not_refused
  | ldPostInc =>
    refine State.checked_not_refused ?_
    split
    · nofun
    · exact State.loadFrom_not_refused
  | stDirect | stInd | stPostInc | stIndexed => exact State.checked_not_refused State.storeTo_not_refused
  | inDirect | inInd | outDirect | outInd | iobclr | iobset | iobtst =>
    exact State.checked_not_refused (onOk_not_refused fun _ => State.advance_not_refused)
  | ldImm | ldReg | andImm | orImm | xorImm | tstImm | andReg | orReg | xorReg | tstReg | inv | addImm | cmpImm
  | subReg | addReg | cmpReg | subrReg | abs | neg | lslReg | lsrReg | asrReg | lslImm | lsrImm | asrImm | nop =>
    exact State.checked_not_refused State.advance_not_refused
  | jmp | jmpR0 | bra | bgtu | bgeu | beq | bnovf | bpos | bges | bgts | bleu | bltu | bneq | bovf | bneg | blts
  | bles | bev0 | bev1 => exact State.checked_not_refused State.goTo_not_refused
  | jsr | jsrR0 => exact State.checked_not_refused State.call_not_refused
  | rts => exact State.checked_not_refused (onOk_not_refused fun _ => State.goTo_not_refused)
  | loopR1 =>
    refine State.checked_not_refused ?_
    split
    · nofun
    · exact State.startLoop_not_refused
  | loopImm => exact State.checked_not_refused State.startLoop_not_refused
  | wev0 | wev1 | pfix => exact State.checked_not_refused nofun
  | sleep =>
    refine State.checked_not_refused ?_
    split
    · nofun
    · split <;> nofun
  | dw => nofun

/-- A data word is what its word spells, or a fault. -/
theorem exec_not_refused (i : Instr) (s : State) (r : Refusal) : exec i s ≠ .refused r := by
  by_cases hdw : ∃ w, i = .dw w
  · obtain ⟨w, rfl⟩ := hdw
    show execDw w s ≠ .refused r
    unfold execDw
    split
    · exact execDecoded_not_refused _ s r
    · nofun
  · rw [exec_eq_execDecoded i s fun w hw => hdw ⟨w, hw⟩]
    exact execDecoded_not_refused i s r

/-- Settles O22: a step waits, wakes, faults or runs an instruction, and no instruction is refused. -/
theorem noInstructionIsRefused : Obligations.NoInstructionIsRefused := by
  refine ⟨exec_not_refused, fun s r => ?_⟩
  unfold step
  split
  · nofun
  · split
    · nofun
    · unfold runFetched
      split
      · nofun
      · split
        · exact exec_not_refused _ _ r
        · nofun

/-! ### The five courses of an instruction that goes on -/

/-- AUX RAM and its marks are as before, but for the word named, if one is. -/
def RamFootprint : Option Word → State → State → Prop
  | none => RamKept
  | some ea => RamKeptBut ea

/-- What an instruction leaves in the R0 latch (R31, R300). -/
def latchLeft (i : Instr) (s : State) : Option Word := if loadsR0 i = true then some (s.reg .r0) else none

/-- The instructions that set up a loop. -/
def isLoop : Instr → Bool
  | .loopR1 _ | .loopImm _ _ => true
  | _ => false

/-- The state in which a loop of `n` iterations that ends at `pc + rel` has been started (R220, R221). -/
def State.inLoop (s : State) (n rel : BitVec 8) : State :=
  State.retire { s with lc := n, ls := s.nextPc, le := s.pc + sext rel } s.nextPc

/-- The courses of an instruction that goes on from `s` to `t`. -/
inductive Course (i : Instr) (s t : State) : Prop where
  /-- On to the next word, or what R222 says at the end of an active loop. -/
  | straight (ram : RamFootprint (storeTarget i s) s t)
      (tail : CommonTail (s.pc + 1) (prefixLeft i) (latchLeft i s) s t)
  /-- A jump, a call, a return or a branch. -/
  | jumped (flow : isFlowControl i = true) (away : s.atLoopEnd = false) (store : storeTarget i s = none)
      (load : loadsR0 i = false) (ram : RamKept s t) (latch : t.r0Prev = none)
  /-- The start of a loop. -/
  | looped (loop : isLoop i = true) (n rel : BitVec 8) (after : 0 < rel.toInt) (store : storeTarget i s = none)
      (load : loadsR0 i = false) (started : t = s.inLoop n rel)
  /-- A wait that holds. -/
  | held (waits : holds i s = true) (store : storeTarget i s = none) (same : t = s)
  /-- `sleep`. -/
  | slept (sleeps : i = .sleep) (idle : s.lc = 0#8) (same : t = s.enterStandby)

theorem ramKept_of_eq {s t : State} (hram : t.ram = s.ram) (hstored : t.stored = s.stored) : RamKept s t :=
  ⟨fun _ => by rw [hram], fun _ => by rw [hstored]⟩

section SharedOperations
variable {i : Instr} {s t u : State} {k : InstrClass}

/-- An instruction that stored nothing and whose writes left the loop registers and the program counter alone. -/
theorem course_of_retire {p : Option Byte} {l : Option Word}
    (hu : u = { s with regs := u.regs, flags := u.flags, ioHistory := u.ioHistory })
    (hi : storeTarget i s = none) (hp : prefixLeft i = p) (hl : latchLeft i s = l) :
    Course i s (u.retire u.nextPc p l) := by
  rw [hu]
  refine .straight ?ram (hp ▸ hl ▸ commonTail_retire rfl rfl rfl rfl _ _ _)
  rw [hi]
  exact ramKept_of_eq (State.retire_ram ..) (State.retire_stored ..)

theorem course_of_advance (h : s.checked k u.advance = .next t)
    (hu : u = { s with regs := u.regs, flags := u.flags, ioHistory := u.ioHistory })
    (hi : storeTarget i s = none) (hp : prefixLeft i = none) (hl : loadsR0 i = false) : Course i s t := by
  obtain ⟨_, _, hbody⟩ := State.checked_next.mp h
  obtain rfl := (State.advance_next _ _ _).mp hbody
  exact course_of_retire hu hi hp (by simp [latchLeft, hl])

/-- The latch of a load of `d` is the one of its instruction. -/
theorem latchLeft_of_loads {d : Reg} (h : loadsR0 i = (d == .r0)) : latchLeft i s = s.loadLatch d := by
  simp [latchLeft, State.loadLatch, h]

theorem course_of_loadFrom {d : Reg} {ea : Word} {after : State → State} (h : s.loadFrom d ea after = .next t)
    (hu : ∀ v, after (s.setReg d v) = { s with regs := (after (s.setReg d v)).regs })
    (hi : storeTarget i s = none) (hp : prefixLeft i = none) (hl : loadsR0 i = (d == .r0)) : Course i s t := by
  obtain ⟨v, _, _, rfl⟩ := State.loadFrom_next h
  refine course_of_retire ?_ hi hp (latchLeft_of_loads hl)
  rw [hu v]

theorem course_of_load {d : Reg} {ea : Word} (h : s.checked k (s.loadFrom d ea id) = .next t)
    (hi : storeTarget i s = none) (hp : prefixLeft i = none) (hl : loadsR0 i = (d == .r0)) : Course i s t := by
  obtain ⟨_, _, hbody⟩ := State.checked_next.mp h
  exact course_of_loadFrom hbody (fun _ => rfl) hi hp hl

theorem course_of_input {d : Reg} {a : Word} (h : s.checked k (s.inputFrom d a) = .next t)
    (hi : storeTarget i s = none) (hp : prefixLeft i = none) (hl : loadsR0 i = (d == .r0)) : Course i s t := by
  obtain ⟨_, _, hbody⟩ := State.checked_next.mp h
  obtain ⟨v, _, rfl⟩ := State.inputFrom_next hbody
  exact course_of_retire rfl hi hp (latchLeft_of_loads hl)

/-- An I/O access whose answer goes to no register. -/
theorem course_of_access {a : Word} {f : Word → State}
    (h : s.checked k (onOk (s.ioAnswer a) fun v => (f v).advance) = .next t)
    (hf : ∀ v, f v = { s with flags := (f v).flags, ioHistory := (f v).ioHistory })
    (hi : storeTarget i s = none) (hp : prefixLeft i = none) (hl : loadsR0 i = false) : Course i s t := by
  obtain ⟨_, _, hbody⟩ := State.checked_next.mp h
  obtain ⟨v, _, hk⟩ := onOk_next.mp hbody
  obtain rfl := (State.advance_next _ _ _).mp hk
  refine course_of_retire ?_ hi hp (by simp [latchLeft, hl])
  rw [hf v]

theorem course_of_store {ea v : Word} {after : State → State} (h : s.checked k (s.storeTo ea v after) = .next t)
    (hu : after (s.storeWord ea v) = { s.storeWord ea v with regs := (after (s.storeWord ea v)).regs })
    (hi : storeTarget i s = some ea) (hp : prefixLeft i = none) (hl : loadsR0 i = false) : Course i s t := by
  obtain ⟨_, _, hbody⟩ := State.checked_next.mp h
  obtain ⟨_, rfl⟩ := State.storeTo_next hbody
  have latch : latchLeft i s = none := by simp [latchLeft, hl]
  rw [hu]
  refine .straight ?ram (hp ▸ latch ▸ commonTail_retire rfl rfl rfl rfl _ _ _)
  rw [hi]
  simpa [RamFootprint, RamKeptBut] using ramKeptBut_storeWord s ea v

/-- Program Flow Control is barred from the end of an active loop; it stores nothing and loads nothing. -/
theorem course_of_flow {target : Word} (hend : s.atLoopEnd = false ∨ k.notAtLoopEnd = false)
    (hk : k.notAtLoopEnd = true) (hi : isFlowControl i = true) (hstore : storeTarget i s = none)
    (hl : loadsR0 i = false) (hu : RamKept s u) : Course i s (u.retire target) := by
  have ram : RamKept s (u.retire target) := by simpa [RamKept] using hu
  exact .jumped hi (by simpa [hk] using hend) hstore hl ram (State.retire_r0Prev ..)

theorem course_of_goTo {target : Word} (h : s.checked k (s.goTo target) = .next t) (hk : k.notAtLoopEnd = true)
    (hi : isFlowControl i = true) (hstore : storeTarget i s = none) (hl : loadsR0 i = false) : Course i s t := by
  obtain ⟨_, hend, hbody⟩ := State.checked_next.mp h
  obtain rfl := (State.goTo_next _ _ _).mp hbody
  exact course_of_flow hend hk hi hstore hl (ramKept_of_eq rfl rfl)

theorem course_of_call {target : Word} (h : s.checked k (s.call target) = .next t) (hk : k.notAtLoopEnd = true)
    (hi : isFlowControl i = true) (hstore : storeTarget i s = none) (hl : loadsR0 i = false) : Course i s t := by
  obtain ⟨_, hend, hbody⟩ := State.checked_next.mp h
  obtain ⟨_, rfl⟩ := State.call_next.mp hbody
  exact course_of_flow hend hk hi hstore hl (ramKept_of_eq rfl rfl)

theorem course_of_startLoop {n rel : BitVec 8} (h : s.startLoop n rel = .next t) (hi : isLoop i = true)
    (hstore : storeTarget i s = none) (hl : loadsR0 i = false) : Course i s t := by
  obtain ⟨hrel, ht⟩ := State.startLoop_next.mp h
  exact .looped hi n rel hrel hstore hl ht.symm

theorem course_of_wait {reached : Bool} (h : s.checked k (s.waitFor reached) = .next t) (hi : holds i s = !reached)
    (hstore : storeTarget i s = none) (hp : prefixLeft i = none) (hl : loadsR0 i = false) : Course i s t := by
  obtain ⟨_, _, hbody⟩ := State.checked_next.mp h
  cases reached with
  | true =>
    obtain rfl : s.retire s.nextPc = t := by simpa [State.waitFor] using hbody
    exact course_of_retire rfl hstore hp (by simp [latchLeft, hl])
  | false => exact .held hi hstore (by simpa [State.waitFor] using hbody.symm)

end SharedOperations

/-- Every instruction but a data word, going on, takes one of the courses. -/
theorem exec_course {i : Instr} {s t : State} (hdw : ∀ w, i ≠ .dw w) (h : exec i s = .next t) : Course i s t := by
  cases i with
  | ldDirect | ldInd | ldIndexed => exact course_of_load h rfl rfl rfl
  | ldPostInc =>
    obtain ⟨_, _, hbody⟩ := State.checked_next.mp h
    split at hbody
    · cases hbody
    · exact course_of_loadFrom hbody (fun _ => rfl) rfl rfl rfl
  | stDirect | stInd | stPostInc | stIndexed => exact course_of_store h rfl rfl rfl rfl
  | inDirect | inInd => exact course_of_input h rfl rfl rfl
  | outDirect | outInd | iobclr | iobset | iobtst => exact course_of_access h (fun _ => rfl) rfl rfl rfl
  | ldImm | ldReg | andImm | orImm | xorImm | tstImm | andReg | orReg | xorReg | tstReg | inv | addImm | cmpImm
  | subReg | addReg | cmpReg | subrReg | abs | neg | lslReg | lsrReg | asrReg | lslImm | lsrImm | asrImm | nop =>
    exact course_of_advance h rfl rfl rfl rfl
  | jmp | jmpR0 | bra | bgtu | bgeu | beq | bnovf | bpos | bges | bgts | bleu | bltu | bneq | bovf | bneg | blts
  | bles | bev0 | bev1 => exact course_of_goTo h rfl rfl rfl rfl
  | jsr | jsrR0 => exact course_of_call h rfl rfl rfl rfl
  | rts =>
    obtain ⟨_, hend, hbody⟩ := State.checked_next.mp h
    obtain ⟨⟨a, u⟩, hpop, hgo⟩ := onOk_next.mp hbody
    obtain ⟨_, _, rfl⟩ := State.pop_ok.mp hpop
    obtain rfl := (State.goTo_next _ _ _).mp hgo
    exact course_of_flow hend rfl rfl rfl rfl (ramKept_of_eq rfl rfl)
  | loopR1 =>
    obtain ⟨_, _, hbody⟩ := State.checked_next.mp h
    split at hbody
    · cases hbody
    · exact course_of_startLoop hbody rfl rfl rfl
  | loopImm =>
    obtain ⟨_, _, hbody⟩ := State.checked_next.mp h
    exact course_of_startLoop hbody rfl rfl rfl
  | wev0 => exact course_of_wait h (Bool.not_not _).symm rfl rfl rfl
  | wev1 => exact course_of_wait h rfl rfl rfl rfl
  | sleep =>
    obtain ⟨_, _, hbody⟩ := State.checked_next.mp h
    split at hbody
    · cases hbody
    · split at hbody
      · cases hbody
      · rename_i hidle
        exact .slept rfl (by simpa using hidle) (by simpa using hbody.symm)
  | pfix =>
    obtain ⟨_, _, hbody⟩ := State.checked_next.mp h
    obtain rfl : s.retire s.nextPc (some _) = t := by simpa using hbody
    exact course_of_retire rfl rfl rfl rfl
  | dw w => exact absurd rfl (hdw w)

/-! ### The rules read off the courses -/

/-- AUX RAM after any instruction that goes on, `sleep` included (R50, R52). -/
theorem Course.ramFootprint {i : Instr} {s t : State} (h : Course i s t) : RamFootprint (storeTarget i s) s t := by
  cases h with
  | straight ram _ => exact ram
  | jumped _ _ store _ ram _ => exact store ▸ ram
  | looped _ _ _ _ store _ started =>
    exact store ▸ started ▸ ramKept_of_eq (State.retire_ram ..) (State.retire_stored ..)
  | held _ store same => exact store ▸ same ▸ ramKept_of_eq rfl rfl
  | slept sleeps _ same => exact sleeps ▸ same ▸ ramKept_of_eq rfl rfl

/-- Settles O16: the part of each course that is about AUX RAM. -/
theorem onlyTheStoredWordChanges : Obligations.OnlyTheStoredWordChanges := by
  intro i s t hdw h
  have ram := (exec_course hdw h).ramFootprint
  refine ⟨fun hnone => ?_, fun ea hsome => ?_⟩
  · rwa [hnone] at ram
  · rwa [hsome] at ram

/-- The R0 latch after any instruction that completes (R31). -/
theorem Course.latch {i : Instr} {s t : State} (h : Course i s t) (hholds : holds i s = false) :
    t.r0Prev = latchLeft i s := by
  cases h with
  | straight _ tail =>
    obtain ⟨_, latch, _⟩ := tail
    exact latch
  | jumped _ _ _ load _ latch => simp [latch, latchLeft, load]
  | looped _ _ _ _ _ load started => simp [started, State.inLoop, latchLeft, load]
  | held waits _ _ => simp [hholds] at waits
  | slept sleeps _ same => rw [sleeps, same]; rfl

/-- Settles O19: the part of each course that is about the R0 latch. -/
theorem onlyLoadsOfR0LeaveTheR0Latch : Obligations.OnlyLoadsOfR0LeaveTheR0Latch :=
  fun _ _ _ hdw hholds h => (exec_course hdw h).latch hholds

/-- The tail away from the end of an active loop, and at it (R222). -/
theorem CommonTail.next_of_notLoopEnd {next : Word} {p : Option Byte} {l : Option Word} {s t : State}
    (h : CommonTail next p l s t) (hl : NotLoopEnd s) : t.lc = s.lc ∧ t.pc = next := by
  obtain ⟨_, _, _, _, hnext⟩ := h
  rwa [if_neg] at hnext
  rintro ⟨hlc, hpc⟩
  exact hl.elim hlc (· hpc)

theorem CommonTail.next_of_loopEnd {next : Word} {p : Option Byte} {l : Option Word} {s t : State}
    (h : CommonTail next p l s t) (hl : s.atLoopEnd = true) :
    t.lc = s.lc - 1#8 ∧ t.pc = if s.lc = 1#8 then next else s.ls := by
  obtain ⟨_, _, _, _, hnext⟩ := h
  rwa [if_pos ((State.atLoopEnd_iff s).mp hl)] at hnext

/-- The end of a loop that starts is after its `loop`. -/
theorem pc_ne_add_sext {rel : BitVec 8} (h : 0 < rel.toInt) (pc : Word) : pc ≠ pc + sext rel := by
  intro he
  have hzero : sext rel = 0#16 := by simpa using he.symm
  have hrel : rel.toInt = (0#16).toInt := by
    rw [← hzero, sext, BitVec.toInt_signExtend_of_le (by decide)]
  simp [hrel] at h

/-- So the start of a loop goes on to the next word, also at the end of one that it overwrites (R223). -/
theorem State.inLoop_pc {rel : BitVec 8} (h : 0 < rel.toInt) (s : State) (n : BitVec 8) :
    (s.inLoop n rel).pc = s.pc + 1 ∧ (s.inLoop n rel).lc = n :=
  retire_pc_of_notLoopEnd ((notLoopEnd_iff _).mp (.inr (pc_ne_add_sext h s.pc))) _ _ _

/-- Settles O17: outside Program Flow Control only the straight course and the start of a loop are left. -/
theorem nextInstructionOutsideFlowControl : Obligations.NextInstructionOutsideFlowControl := by
  intro i s t hflow hsleep hdw hholds h
  cases exec_course hdw h with
  | straight _ tail =>
    exact ⟨fun hl => (tail.next_of_notLoopEnd hl).2,
      fun hl _ _ => tail.next_of_loopEnd (atLoopEnd_of_not_notLoopEnd hl)⟩
  | jumped flow => simp [hflow] at flow
  | looped loop n rel after _ _ started =>
    subst started
    refine ⟨fun _ => (State.inLoop_pc after s n).1, fun _ hR1 hImm => ?_⟩
    cases i with
    | loopR1 r => exact absurd rfl (hR1 r)
    | loopImm m r => exact absurd rfl (hImm m r)
    | _ => cases loop
  | held waits => simp [hholds] at waits
  | slept sleeps => exact absurd sleeps hsleep

end Sys2Proof.Machine
end

section
/-! Memory word access with an increment (R122, R126), and the stops of all eight accesses (R52): the load and the store
of the sections above at the address before the increment, and the faults of `loadFrom` and `storeTo` said once. -/

namespace Sys2Proof.Machine

/-! ### The increment -/

/-- The post-increment load of two registers is a load that also writes the address register. -/
theorem exec_ldPostInc {d b : Reg} {s : State} (hp : s.pfx = none) (hne : d ≠ b) :
    exec (.ldPostInc d b) s = s.loadFrom d (s.reg b) fun t => t.setReg b (s.reg b + 1) :=
  (State.checked_pass (k := plainClass) (.inl hp) (.inr rfl)).trans (if_neg hne)

/-- With one register for both it stops before the address is looked at (R122). -/
theorem exec_ldPostInc_same {d : Reg} {s : State} (hp : s.pfx = none) :
    exec (.ldPostInc d d) s = .fault .ldPostIncSameReg :=
  (State.checked_pass (k := plainClass) (.inl hp) (.inr rfl)).trans (if_pos rfl)

theorem exec_stPostInc {d b : Reg} {s : State} (hp : s.pfx = none) :
    exec (.stPostInc d b) s = s.storeTo (s.reg b) (s.reg d) fun t => t.setReg b (s.reg b + 1) :=
  State.checked_pass (k := plainClass) (.inl hp) (.inr rfl)

/-- Settles O24: the increment comes after the load and to another register, so neither spoils the other. -/
theorem postIncrementLoadBringsTheWordAndIncrements : Obligations.PostIncrementLoadBringsTheWordAndIncrements := by
  refine ⟨fun d b s v hp hne hb hv => ?_, fun d s hp => exec_ldPostInc_same hp⟩
  have hd : ((s.regs.set d v).set b (s.reg b + 1)).get d = v := by
    rw [Regs.get_set_other _ _ hne, Regs.get_set_same]
  have hregs : RegsKeptBut [d, b] s ((s.setReg d v).setReg b (s.reg b + 1)) :=
    ((regsKeptBut_of_regs_eq _ rfl).setReg List.mem_cons_self v).setReg (by simp) _
  rw [exec_ldPostInc hp hne, State.loadFrom_of_readWord hb hv]
  refine ⟨_, rfl, State.retire_ioHistory .., ?_, loadedReg_retire hd hregs⟩
  rw [State.retire_reg, State.reg_setReg, if_pos rfl]

/-- Settles O26: the value stored is read before the increment (R126). -/
theorem postIncrementStorePutsTheOldValueAndIncrements :
    Obligations.PostIncrementStorePutsTheOldValueAndIncrements := by
  intro d b s hp hb
  rw [exec_stPostInc hp, State.storeTo_of_lt hb]
  refine ⟨_, rfl, ?_, storedWord_retire (s.reg d) (regsKeptBut_setReg rfl b (s.reg b + 1))⟩
  rw [State.retire_reg, State.reg_setReg, if_pos rfl]

/-! ### The stops (R52) -/

section Stops
variable {s : State} {k : InstrClass} {ea : Word}

theorem State.memRead_memRange (h : s.ramWords ≤ ea.toNat) : s.memRead ea = .error .memRange := if_pos h

theorem State.memRead_unwritten (h : ea.toNat < s.ramWords) (hv : s.ram.readWord ea.toNat = none) :
    s.memRead ea = .error .unwrittenRead := by
  simp [State.memRead, Nat.not_le.mpr h, hv]

/-- A load stops with the reason for which there is no word. -/
theorem State.loadFrom_fault {f : Fault} (h : s.memRead ea = .error f) (d : Reg) (after : State → State) :
    s.loadFrom d ea after = .fault f := by
  rw [State.loadFrom, h, onOk_error]

/-- A store stops outside AUX RAM only. -/
theorem State.storeTo_memRange (h : s.ramWords ≤ ea.toNat) (v : Word) (after : State → State) :
    s.storeTo ea v after = .fault .memRange := by
  rw [State.storeTo, State.memWrite, if_pos h, onOk_error]

theorem load_stops {f : Fault} (hp : s.pfx = none ∨ k.takesPfix = true) (hl : k.notAtLoopEnd = false)
    (h : s.memRead ea = .error f) (d : Reg) (after : State → State) :
    s.checked k (s.loadFrom d ea after) = .fault f := by
  rw [State.checked_pass hp (.inr hl), State.loadFrom_fault h]

theorem store_stops (hp : s.pfx = none ∨ k.takesPfix = true) (hl : k.notAtLoopEnd = false)
    (h : s.ramWords ≤ ea.toNat) (v : Word) (after : State → State) :
    s.checked k (s.storeTo ea v after) = .fault .memRange := by
  rw [State.checked_pass hp (.inr hl), State.storeTo_memRange h]

end Stops

theorem exec_ldPostInc_fault {d b : Reg} {s : State} {f : Fault} (hp : s.pfx = none) (hne : d ≠ b)
    (h : s.memRead (s.reg b) = .error f) : exec (.ldPostInc d b) s = .fault f := by
  rw [exec_ldPostInc hp hne, State.loadFrom_fault h]

/-- Settles O27: a load stops as `MemRead` does and a store as `MemWrite` does, each at its effective address (R53). -/
theorem accessesOutsideRamAndUnwrittenLoadsFault : Obligations.AccessesOutsideRamAndUnwrittenLoadsFault := by
  intro d b addr s
  have takes {f : Fault} {ea : Word} (h : s.memRead ea = .error f) :=
    load_stops (k := prefixableClass) (.inr rfl) rfl h d id
  have plain (hp : s.pfx = none) {f : Fault} {ea : Word} (h : s.memRead ea = .error f) :=
    load_stops (k := plainClass) (.inl hp) rfl h d id
  refine ⟨fun h => ⟨takes (State.memRead_memRange h), ?_⟩, fun hp h => ?_, fun hp h => ?_, fun h hv => ?_,
    fun hp h hv => ?_, fun hp h hv => ?_⟩
  · exact store_stops (k := prefixableClass) (.inr rfl) rfl h (s.reg d) id
  · exact ⟨plain hp (State.memRead_memRange h), store_stops (k := plainClass) (.inl hp) rfl h (s.reg d) id,
      (exec_stPostInc hp).trans (State.storeTo_memRange h ..),
      fun hne => exec_ldPostInc_fault hp hne (State.memRead_memRange h)⟩
  · exact ⟨plain hp (State.memRead_memRange h), store_stops (k := plainClass) (.inl hp) rfl h (s.reg d) id⟩
  · exact takes (State.memRead_unwritten h hv)
  · exact ⟨plain hp (State.memRead_unwritten h hv),
      fun hne => exec_ldPostInc_fault hp hne (State.memRead_unwritten h hv)⟩
  · exact plain hp (State.memRead_unwritten h hv)

end Sys2Proof.Machine
end

section
/-! I/O access (41_io_access.md): every I/O instruction is one access whose answer is the environment's, and then a
write of a register, of flags or of nothing. That access is said once where it is answered and once where it is not;
what it leaves in a plain storage register (R57) is the last event of the history. -/

namespace Sys2Proof.Machine

/-! ### The answer to an access (R56, R58) -/

section Answer
variable {s : State} {a : Word}

theorem State.ioAnswer_unaligned (hhigh : 256 ≤ a.toNat) (hodd : a.toNat % 2 = 1) :
    s.ioAnswer a = .error .ioUnaligned := by
  have hbad : ¬ ioAddrOk a = true := by
    rw [ioAddrOk_iff]
    omega
  exact if_neg hbad

theorem State.ioAnswer_unmapped (ha : a.toNat ≤ 255 ∨ a.toNat % 2 = 0) (hio : s.now.io = .unmapped) :
    s.ioAnswer a = .error .ioUnmapped := by
  rw [State.ioAnswer, if_pos ((ioAddrOk_iff a).mpr ha), hio]

end Answer

/-! ### An access that is answered -/

section Answered
variable {s : State} {k : InstrClass} {a v : Word}

/-- The frame of an access that wrote flags at most. -/
theorem madeIoAccess_retire (s : State) (e : IoEvent) (f : Flags) :
    MadeIoAccess e s (((s.logIo e).setFlags f).retire ((s.logIo e).setFlags f).nextPc) := by
  obtain ⟨hregs, hram, hio, hrest, htail⟩ := wroteNoReg_retire (s.logIo e) f
  exact ⟨hio, hregs, hram, hrest, htail⟩

/-- The frame of a load does not speak of the history, so the access before it may be left out. -/
theorem loadedReg_of_logIo {d : Reg} {inc : List Reg} {e : IoEvent} {t : State}
    (h : LoadedReg d v inc (s.logIo e) t) : LoadedReg d v inc s t := h

/-- An access that the checks of R40 let through and that is answered with `v`, with the event and the flags that it
makes of `v`. -/
theorem access_completes (hp : s.pfx = none ∨ k.takesPfix = true) (hl : k.notAtLoopEnd = false)
    (ha : s.ioAnswer a = .ok v) (e : Word → IoEvent) (f : Word → Flags) :
    ∃ t, s.checked k (onOk (s.ioAnswer a) fun x => ((s.logIo (e x)).setFlags (f x)).advance) = .next t ∧
      t.flags = f v ∧ MadeIoAccess (e v) s t := by
  rw [State.checked_pass hp (.inr hl), ha, onOk_ok]
  exact ⟨_, rfl, State.retire_flags .., madeIoAccess_retire s (e v) (f v)⟩

/-- An access that leaves the flags alone writes the old ones back. -/
theorem quietAccess_completes (hp : s.pfx = none ∨ k.takesPfix = true) (hl : k.notAtLoopEnd = false)
    (ha : s.ioAnswer a = .ok v) (e : IoEvent) :
    ∃ t, s.checked k (onOk (s.ioAnswer a) fun _ => (s.logIo e).advance) = .next t ∧ t.flags = s.flags ∧
      MadeIoAccess e s t :=
  access_completes hp hl ha (fun _ => e) fun _ => s.flags

/-- A 16-bit read of the I/O space that the checks of R40 let through. -/
theorem input_completes (hp : s.pfx = none ∨ k.takesPfix = true) (hl : k.notAtLoopEnd = false)
    (ha : s.ioAnswer a = .ok v) (d : Reg) :
    ∃ t, s.checked k (s.inputFrom d a) = .next t ∧ t.ioHistory = s.ioHistory ++ [.read16 a v] ∧
      LoadedReg d v [] s t := by
  have hregs : RegsKeptBut [d] (s.logIo (.read16 a v)) ((s.logIo (.read16 a v)).setReg d v) :=
    regsKeptBut_setReg rfl d v
  rw [State.checked_pass hp (.inr hl), State.inputFrom, ha, onOk_ok]
  exact ⟨_, rfl, State.retire_ioHistory .., loadedReg_of_logIo (loadedReg_retire (Regs.get_set_same ..) hregs)⟩

end Answered

/-- Settles O28: `in` is a read, `out` a write; only the direct forms take a `pfix`. -/
theorem wordIoAccessesComplete : Obligations.WordIoAccessesComplete := by
  intro d b addr s v hio
  refine ⟨fun ha => ?direct, fun hp ha => ?indirect⟩
  case direct =>
    have answer := State.ioAnswer_ok.mpr ⟨ha, hio⟩
    exact ⟨input_completes (k := prefixableClass) (.inr rfl) rfl answer d,
      quietAccess_completes (k := prefixableClass) (.inr rfl) rfl answer _⟩
  case indirect =>
    have answer := State.ioAnswer_ok.mpr ⟨ha, hio⟩
    exact ⟨input_completes (k := plainClass) (.inl hp) rfl answer d,
      quietAccess_completes (k := plainClass) (.inl hp) rfl answer _⟩

/-- Settles O29: the three bit accesses are one access each; only `iobtst` makes flags of the answer. -/
theorem bitIoAccessesComplete : Obligations.BitIoAccessesComplete := by
  intro bit addr s v hio ha
  have answer := State.ioAnswer_ok.mpr ⟨ha, hio⟩
  have quiet := quietAccess_completes (k := prefixableClass) (.inr rfl) rfl answer
  refine ⟨quiet (.bitClr (s.imm8u addr) bit), quiet (.bitSet (s.imm8u addr) bit), ?test⟩
  case test =>
    obtain ⟨t, ht, hflags, hmade⟩ := access_completes (k := prefixableClass) (.inr rfl) rfl answer
      (fun x => .bitTest (s.imm8u addr) bit (x.getLsbD bit.toNat))
      (fun x => { s.flags with c := x.getLsbD bit.toNat })
    exact ⟨t, ht, by rw [hflags], by rw [hflags], by rw [hflags], by rw [hflags], hmade⟩

/-! ### An access that is not answered -/

/-- An instruction that is one access behind its checks stops as the access does. -/
theorem access_stops {s : State} {k : InstrClass} {a : Word} {i : Instr} {body : Word → Result}
    (hi : exec i s = s.checked k (onOk (s.ioAnswer a) body)) (hp : s.pfx = none ∨ k.takesPfix = true)
    (hl : k.notAtLoopEnd = false) :
    (256 ≤ a.toNat → a.toNat % 2 = 1 → exec i s = .fault .ioUnaligned) ∧
      ((a.toNat ≤ 255 ∨ a.toNat % 2 = 0) → s.now.io = .unmapped → exec i s = .fault .ioUnmapped) := by
  rw [hi, State.checked_pass hp (.inr hl)]
  refine ⟨fun hhigh hodd => ?_, fun ha hio => ?_⟩
  · rw [State.ioAnswer_unaligned hhigh hodd, onOk_error]
  · rw [State.ioAnswer_unmapped ha hio, onOk_error]

/-- Settles O30: each of the seven is one access behind its checks. -/
theorem unalignedAndUnmappedIoAccessesFault : Obligations.UnalignedAndUnmappedIoAccessesFault := by
  intro d b bit addr s
  simp only [List.forall_mem_cons]
  refine ⟨?direct, fun hp => ?indirect⟩
  case direct =>
    have row {i : Instr} {body : Word → Result}
        (hi : exec i s = s.checked prefixableClass (onOk (s.ioAnswer (s.imm8u addr)) body)) :=
      access_stops hi (.inr rfl) rfl
    exact ⟨row rfl, row rfl, row rfl, row rfl, row rfl, List.forall_mem_nil _⟩
  case indirect =>
    have row {i : Instr} {body : Word → Result}
        (hi : exec i s = s.checked plainClass (onOk (s.ioAnswer (s.reg b)) body)) :=
      access_stops hi (.inl hp) rfl
    exact ⟨row rfl, row rfl, List.forall_mem_nil _⟩

/-! ### A plain storage register (R57) -/

theorem getLsbD_one_shiftLeft (b : BitVec 3) (k : Nat) : (1#16 <<< b.toNat).getLsbD k = decide (k = b.toNat) := by
  rw [← BitVec.twoPow_eq, BitVec.getLsbD_twoPow, decide_eq_true (by omega : b.toNat < 16), Bool.true_and,
    decide_eq_decide]
  exact eq_comm

/-- The bits of a register after a bit of it was set. -/
theorem getLsbD_plainWrite_bitSet (addr w : Word) (b : BitVec 3) (k : Nat) :
    ((IoEvent.bitSet addr b).plainWrite w).getLsbD k = if k = b.toNat then true else w.getLsbD k := by
  rw [IoEvent.plainWrite, BitVec.getLsbD_or, getLsbD_one_shiftLeft]
  by_cases h : k = b.toNat <;> simp [h]

/-- The bits of a register after a bit of it was cleared. -/
theorem getLsbD_plainWrite_bitClr (addr w : Word) (b : BitVec 3) {k : Nat} (hk : k < 16) :
    ((IoEvent.bitClr addr b).plainWrite w).getLsbD k = if k = b.toNat then false else w.getLsbD k := by
  rw [IoEvent.plainWrite, BitVec.getLsbD_and, BitVec.getLsbD_not, getLsbD_one_shiftLeft]
  by_cases h : k = b.toNat <;> simp [h, hk]

/-- An instruction that is one access behind its checks leaves that access in the history. -/
theorem access_history {s t : State} {k : InstrClass} {a : Word} {f : Word → State} {l : Option Word}
    (h : s.checked k (onOk (s.ioAnswer a) fun v => (f v).advance l) = .next t) {e : Word → IoEvent}
    (hf : ∀ v, (f v).ioHistory = s.ioHistory ++ [e v]) : ∃ v, t.ioHistory = s.ioHistory ++ [e v] := by
  obtain ⟨_, _, hbody⟩ := State.checked_next.mp h
  obtain ⟨v, _, hk⟩ := onOk_next.mp hbody
  obtain rfl := (State.advance_next _ _ _).mp hk
  exact ⟨v, (State.retire_ioHistory ..).trans (hf v)⟩

/-- A plain register after one more access, in the words of the claim. -/
theorem plainReg_of_access {s t : State} {e : IoEvent} {addr : Word} (h : t.ioHistory = s.ioHistory ++ [e])
    (he : e.addr = addr) (a init : Word) :
    plainReg t.ioHistory a init =
      if a = addr then e.plainWrite (plainReg s.ioHistory a init) else plainReg s.ioHistory a init := by
  rw [h, plainReg_append, he]
  exact if_congr eq_comm rfl rfl

/-- One bit of it, where the access writes `x` to bit `n` and keeps the others. -/
theorem plainReg_bit_of_access {s t : State} {e : IoEvent} {addr : Word} (h : t.ioHistory = s.ioHistory ++ [e])
    (he : e.addr = addr) {k n : Nat} {x : Bool}
    (hbit : ∀ w, (e.plainWrite w).getLsbD k = if k = n then x else w.getLsbD k) (a init : Word) :
    (plainReg t.ioHistory a init).getLsbD k =
      if a = addr ∧ k = n then x else (plainReg s.ioHistory a init).getLsbD k := by
  rw [plainReg_of_access h he]
  by_cases ha : a = addr
  · simp [ha, hbit]
  · simp [ha]

/-- Settles O31: the five instructions are five events, and R57 says of each what a register becomes. -/
theorem plainIoRegistersFollowTheOperations : Obligations.PlainIoRegistersFollowTheOperations := by
  intro d bit addr a init s t
  refine ⟨fun h => ?out, fun h k hk => ?set, fun h k hk => ?clear, fun h => ?test, fun h => ?input⟩
  case out =>
    obtain ⟨_, hist⟩ := access_history h (fun _ => rfl)
    exact plainReg_of_access hist rfl a init
  case set =>
    obtain ⟨_, hist⟩ := access_history h (fun _ => rfl)
    exact plainReg_bit_of_access hist rfl (getLsbD_plainWrite_bitSet _ · bit k) a init
  case clear =>
    obtain ⟨_, hist⟩ := access_history h (fun _ => rfl)
    exact plainReg_bit_of_access hist rfl (getLsbD_plainWrite_bitClr _ · bit hk) a init
  case test =>
    obtain ⟨_, hist⟩ := access_history h (fun _ => rfl)
    exact (plainReg_of_access hist rfl a init).trans (ite_self _)
  case input =>
    obtain ⟨_, hist⟩ := access_history h (fun _ => rfl)
    exact (plainReg_of_access hist rfl a init).trans (ite_self _)

end Sys2Proof.Machine
end

section
/-! `neg` and `abs` (R166, R167): both are the register write `resultTo`. Their results and flags are first written over
the words of a machine word's ring, with the sign bit as the sign of the operand. -/

namespace Sys2Proof.Machine

section Negation
variable (mode : NegAbsCarry) (a : Word)

theorem subResult_zero : subResult 0 a = -a := by rw [subResult_eq]; exact zero_sub a

theorem negFlags_eq_flagsZN : negFlags mode a = flagsZN (-a) (negCarry mode a) (decide (a = 0x8000#16)) := by
  rw [negFlags, subResult_zero, beq_eq_decide]

theorem getLsbD_sign : a.getLsbD 15 = decide (a.toInt < 0) := by rw [← BitVec.msb_eq_toInt]; rfl

theorem absResult_eq : absResult a = if a.toInt < 0 then -a else a := by
  simp only [absResult, getLsbD_sign, subResult_zero, decide_eq_true_eq]

/-- A non-negative operand is not 0x8000, so V is the same in both cases of `abs`. -/
theorem absFlags_eq_flagsZN : absFlags mode a =
    flagsZN (if a.toInt < 0 then -a else a) (if a.toInt < 0 then negCarry mode a else absCarryNonNeg mode a)
      (decide (a = 0x8000#16)) := by
  rw [absFlags, getLsbD_sign, negFlags_eq_flagsZN]
  by_cases hneg : a.toInt < 0
  · simp only [hneg, decide_true, if_true]
  · have hne : a ≠ 0x8000#16 := by
      rintro rfl
      exact hneg (by decide)
    simp only [hneg, hne, decide_false, if_false, Bool.false_eq_true]

theorem negCarry_borrow : negCarry .borrow a = decide (a ≠ 0#16) := by
  rw [negCarry, bne, beq_eq_decide, decide_not]

/-- In the default the carry of `abs` is the sign of its operand. -/
theorem absCarry_borrow :
    (if a.toInt < 0 then negCarry .borrow a else absCarryNonNeg .borrow a) = decide (a.toInt < 0) := by
  by_cases hneg : a.toInt < 0
  · have hne : a ≠ 0#16 := by
      rintro rfl
      exact absurd hneg (by decide)
    rw [if_pos hneg, negCarry_borrow, decide_eq_true hne, decide_eq_true hneg]
  · rw [if_neg hneg, decide_eq_false hneg, absCarryNonNeg]

end Negation

theorem exec_neg (d : Reg) (s : State) : exec (.neg d) s = s.checked plainClass (s.resultTo d (-(s.reg d))
    (flagsZN (-(s.reg d)) (negCarry s.cfg.negAbsCarry (s.reg d)) (decide (s.reg d = 0x8000#16)))) := by
  rw [← negFlags_eq_flagsZN, ← subResult_zero]
  rfl

theorem exec_abs (d : Reg) (s : State) : exec (.abs d) s = s.checked plainClass
    (s.resultTo d (if (s.reg d).toInt < 0 then -(s.reg d) else s.reg d)
      (flagsZN (if (s.reg d).toInt < 0 then -(s.reg d) else s.reg d)
        (if (s.reg d).toInt < 0 then negCarry s.cfg.negAbsCarry (s.reg d)
          else absCarryNonNeg s.cfg.negAbsCarry (s.reg d)) (decide (s.reg d = 0x8000#16)))) := by
  rw [← absFlags_eq_flagsZN, ← absResult_eq]
  rfl

/-- Settles O38: both are one register write with the flags above. -/
theorem negateAndAbsoluteResultsAndFlags : Obligations.NegateAndAbsoluteResultsAndFlags := by
  intro d s hp
  rw [exec_neg, exec_abs]
  have result := resultTo_flagsZN_completes (k := plainClass) (.inl hp) rfl d
  constructor
  case left =>
    obtain ⟨t, ht, hwrote, hz, hn, hc, hv⟩ := result _ _ _
    exact ⟨t, ht, hwrote, ⟨hz, hn, hc, hv⟩, fun hmode => by rw [hc, hmode, negCarry_borrow]⟩
  case right =>
    obtain ⟨t, ht, hwrote, hz, hn, hc, hv⟩ := result _ _ _
    exact ⟨t, ht, hwrote, ⟨hz, hn, hc, hv⟩, fun hmode => by rw [hc, hmode, absCarry_borrow]⟩

end Sys2Proof.Machine
end

section
/-! Calls, returns and the R0 hazard (46_program_flow.md, 70_reset_and_hazards.md): a call and a return complete at
their depths of the stack and stop at the others; after a load of R0 the latch makes `jmp R0` stale for one instruction. -/

namespace Sys2Proof.Machine

/-! ### The call stack (R28) -/

section Calls
variable {s : State} {k : InstrClass}

/-- A call that the checks of R40 let through, with room on the stack. -/
theorem call_completes (hp : s.pfx = none ∨ k.takesPfix = true) (hl : NotLoopEnd s) (hroom : s.stack.length < 3)
    (target : Word) : ∃ t, s.checked k (s.call target) = .next t ∧ WentTo target ((s.pc + 1) :: s.stack) s t := by
  rw [State.checked_pass hp (.inl ((notLoopEnd_iff s).mp hl))]
  exact ⟨_, State.call_next.mpr ⟨hroom, rfl⟩, wentTo_retire hl target ((s.pc + 1) :: s.stack)⟩

/-- And with none. -/
theorem call_overflows (hp : s.pfx = none ∨ k.takesPfix = true) (hl : NotLoopEnd s) (hfull : 3 ≤ s.stack.length)
    (target : Word) : s.checked k (s.call target) = .fault .stackOverflow := by
  rw [State.checked_pass hp (.inl ((notLoopEnd_iff s).mp hl)), State.call, State.push, if_pos hfull, onOk_error]

end Calls

/-- Settles O47: both calls are one; only the one to an address takes a `pfix`. -/
theorem callsPushTheReturnAddress : Obligations.CallsPushTheReturnAddress := by
  intro addr s hl
  refine ⟨fun hroom => ⟨?address, fun hp => ?register⟩, fun hfull => ⟨?addressFull, fun hp => ?registerFull⟩⟩
  case address => exact call_completes (k := jumpClass) (.inr rfl) hl hroom (s.imm10u addr)
  case register => exact call_completes (k := flowClass) (.inl hp) hl hroom s.dedicatedR0
  case addressFull => exact call_overflows (k := jumpClass) (.inr rfl) hl hfull (s.imm10u addr)
  case registerFull => exact call_overflows (k := flowClass) (.inl hp) hl hfull s.dedicatedR0

/-- A return with nothing stacked (R28, R194). -/
theorem exec_rts_of_empty {s : State} (hp : s.pfx = none) (hl : NotLoopEnd s) (hs : s.stack = []) :
    exec .rts s = .fault .stackUnderflow := by
  have hpop : s.pop = .error .stackUnderflow := by rw [State.pop, hs]
  have hbody : exec .rts s = onOk s.pop fun p => p.2.goTo p.1 :=
    State.checked_pass (k := flowClass) (.inl hp) (.inl ((notLoopEnd_iff s).mp hl))
  rw [hbody, hpop, onOk_error]

/-- Settles O48: a return is a jump to what it takes off the stack. -/
theorem returnPopsTheMostRecentAddress : Obligations.ReturnPopsTheMostRecentAddress := by
  intro s hp hl
  exact ⟨fun v rest hs => ⟨_, exec_rts_of_stack hp hl hs, wentTo_retire hl v rest⟩, exec_rts_of_empty hp hl⟩

/-! ### The R0 hazard (R300) -/

theorem holds_of_loadsR0 {i : Instr} (h : loadsR0 i = true) (s : State) : holds i s = false := by
  cases i with
  | wev0 | wev1 => cases h
  | _ => rfl

/-- What a load of R0 that goes on leaves in the two latches. -/
theorem latches_of_loadsR0 {i : Instr} {s t : State} (hi : loadsR0 i = true) (h : exec i s = .next t) :
    t.pfx = none ∧ t.r0Prev = some (s.reg .r0) := by
  have hdw : ∀ w, i ≠ .dw w := by
    rintro w rfl
    cases hi
  have hpfix : ∀ imm, i ≠ .pfix imm := by
    rintro imm rfl
    cases hi
  have latch := (exec_course hdw h).latch (holds_of_loadsR0 hi s)
  exact ⟨(exec_pfx hdw h).trans (prefixLeft_of_ne_pfix hpfix), latch.trans (if_pos hi)⟩

/-- `jmp R0` goes where a dedicated use of R0 says (R192). -/
theorem exec_jmpR0_completes {s : State} (hp : s.pfx = none) (hl : NotLoopEnd s) :
    ∃ t, exec .jmpR0 s = .next t ∧ WentTo s.dedicatedR0 s.stack s t :=
  goTo_completes (k := flowClass) (.inl hp) hl s.dedicatedR0

/-- `nop` empties both latches and leaves the registers. -/
theorem exec_nop_next {s t : State} (h : exec .nop s = .next t) :
    t.pfx = none ∧ t.r0Prev = none ∧ t.regs = s.regs := by
  obtain ⟨_, _, hbody⟩ := State.checked_next.mp h
  obtain rfl := (State.advance_next _ _ _).mp hbody
  simp

/-- Settles O50: the latch that the load leaves is what `jmp R0` reads, and `nop` empties it. -/
theorem jumpRightAfterALoadOfR0UsesThePreviousR0 : Obligations.JumpRightAfterALoadOfR0UsesThePreviousR0 := by
  intro i s t hi h hl
  obtain ⟨hpfx, hlatch⟩ := latches_of_loadsR0 hi h
  refine ⟨?stale, fun u hnop hlu => ?fresh⟩
  case stale =>
    obtain ⟨u, hu, hpc, _, hregs, _⟩ := exec_jmpR0_completes hpfx hl
    have hded : t.dedicatedR0 = s.reg .r0 := by rw [State.dedicatedR0, hlatch, Option.getD_some]
    exact ⟨u, hu, hpc.trans hded, hregs .r0 List.not_mem_nil⟩
  case fresh =>
    obtain ⟨hpfxu, hlatchu, hregsu⟩ := exec_nop_next hnop
    obtain ⟨v, hv, hpc, _⟩ := exec_jmpR0_completes hpfxu hlu
    have hded : u.dedicatedR0 = t.reg .r0 := by
      rw [State.dedicatedR0, hlatchu, Option.getD_none, State.reg_congr hregsu]
    exact ⟨v, hv, hpc.trans hded⟩

end Sys2Proof.Machine
end

section
/-! Loops (47_loop.md): `loop` starts one or stops, and a body of one word runs once for each count. A loop that was
just started is `State.inLoop`; the run of its body is an induction on the runs with the count that is left in the invariant
`AtBody`. -/

namespace Sys2Proof.Machine

/-! ### The counts (R94, R220) -/

theorem State.r1Count_toNat (s : State) : s.r1Count.toNat = (s.reg .r1).toNat % 256 := by
  simp [State.r1Count, lowByte, BitVec.extractLsb'_toNat]

theorem State.r1Count_eq_zero (s : State) : s.r1Count = 0#8 ↔ (s.reg .r1).toNat % 256 = 0 := by
  rw [← BitVec.toNat_inj, State.r1Count_toNat, BitVec.toNat_zero]

theorem loopCount_toNat (nnn : BitVec 3) : (loopCount nnn).toNat = 2 ^ nnn.toNat := by
  revert nnn; decide

/-! ### The start of a loop -/

section Start
variable {s : State} {rel : BitVec 8}

theorem exec_loopR1 (hp : s.pfx = none) (rel : BitVec 8) :
    exec (.loopR1 rel) s = if s.r1Count = 0#8 then .fault .loopCountZero else s.startLoop s.r1Count rel :=
  State.checked_pass (k := plainClass) (.inl hp) (.inr rfl)

theorem exec_loopImm (hp : s.pfx = none) (nnn : BitVec 3) (rel : BitVec 8) :
    exec (.loopImm nnn rel) s = s.startLoop (loopCount nnn) rel :=
  State.checked_pass (k := plainClass) (.inl hp) (.inr rfl)

theorem State.startLoop_of_not_after (h : rel.toInt ≤ 0) (n : BitVec 8) :
    s.startLoop n rel = .fault .loopEndNotAfter := if_pos h

/-- What the start of a loop leaves but for its count and its first step. -/
theorem State.inLoop_frame (s : State) (n rel : BitVec 8) :
    (s.inLoop n rel).ls = s.pc + 1 ∧ (s.inLoop n rel).le = s.pc + rel.signExtend 16 ∧
      (s.inLoop n rel).pfx = none ∧ (s.inLoop n rel).r0Prev = none ∧ (s.inLoop n rel).regs = s.regs ∧
      (s.inLoop n rel).flags = s.flags ∧ (s.inLoop n rel).ioHistory = s.ioHistory ∧
      (s.inLoop n rel).ram = s.ram ∧ (s.inLoop n rel).stored = s.stored ∧ RestKept s (s.inLoop n rel) := by
  simp [State.inLoop, State.nextPc, sext, RestKept]

/-- A loop whose end is after it starts, whatever its count. -/
theorem startLoop_completes (hrel : 0 < rel.toInt) {n : BitVec 8} {count : Nat} (hn : n.toNat = count) :
    ∃ t, s.startLoop n rel = .next t ∧ t.lc.toNat = count ∧ t.ls = s.pc + 1 ∧ t.le = s.pc + rel.signExtend 16 ∧
      t.pc = s.pc + 1 ∧ t.pfx = none ∧ t.r0Prev = none ∧ t.flags = s.flags ∧ t.ioHistory = s.ioHistory ∧
      RegsKeptBut [] s t ∧ RamKept s t ∧ RestKept s t := by
  obtain ⟨hpc, hlc⟩ := State.inLoop_pc hrel s n
  obtain ⟨hls, hle, hpfx, hlatch, hregs, hflags, hio, hram, hstored, hrest⟩ := s.inLoop_frame n rel
  exact ⟨s.inLoop n rel, State.startLoop_next.mpr ⟨hrel, rfl⟩, by rw [hlc, hn], hls, hle, hpc, hpfx, hlatch, hflags,
    hio, regsKeptBut_of_regs_eq [] hregs, ramKept_of_eq hram hstored, hrest⟩

end Start

/-- Settles O51: both forms start a loop, with the count of R1's low byte (R220) and of the field (R94). -/
theorem loopSetsTheLoopRegisters : Obligations.LoopSetsTheLoopRegisters := by
  intro rel nnn s hp hrel
  refine ⟨fun hcount => ?register, fun _ => ?immediate⟩
  case register =>
    rw [exec_loopR1 hp, if_neg (mt s.r1Count_eq_zero.mp hcount)]
    exact startLoop_completes hrel s.r1Count_toNat
  case immediate =>
    rw [exec_loopImm hp]
    exact startLoop_completes hrel (loopCount_toNat nnn)

/-- Settles O52: a count of zero stops first, then an end that is not after the `loop`. -/
theorem loopMisusesFault : Obligations.LoopMisusesFault := by
  intro rel nnn s hp
  rw [exec_loopR1 hp, exec_loopImm hp]
  refine ⟨fun hzero => if_pos (s.r1Count_eq_zero.mpr hzero), fun hcount hrel => ?_,
    fun hrel => State.startLoop_of_not_after hrel _⟩
  rw [if_neg (mt s.r1Count_eq_zero.mp hcount), State.startLoop_of_not_after hrel]

/-! ### The runs of a one-word body (R222) -/

/-- The program counter is at the one word `a` of an active loop's body, with `n` runs to go. -/
def AtBody (a : Word) (n : Nat) (u : State) : Prop := u.pc = a ∧ u.lc.toNat = n ∧ u.ls = a ∧ u.le = a

theorem AtBody.atLoopEnd {a : Word} {n : Nat} {u : State} (h : AtBody a n u) (hn : n ≠ 0) : u.atLoopEnd = true := by
  obtain ⟨hpc, hlc, _, hle⟩ := h
  refine (State.atLoopEnd_iff u).mpr ⟨?_, hpc.trans hle.symm⟩
  intro hzero
  rw [hzero] at hlc
  exact hn hlc.symm

/-- A body that starts no loop of its own and spells no data word. -/
structure IsBody (i : Instr) : Prop where
  notLoop : isLoop i = false
  notData : ∀ w, i ≠ .dw w

theorem isLoop_eq_false {i : Instr} (hR1 : ∀ r, i ≠ .loopR1 r) (hImm : ∀ n r, i ≠ .loopImm n r) :
    isLoop i = false := by
  cases i with
  | loopR1 r => exact absurd rfl (hR1 r)
  | loopImm n r => exact absurd rfl (hImm n r)
  | _ => rfl

theorem isBody_nop : IsBody .nop where
  notLoop := rfl
  notData := by
    rintro w ⟨⟩

section Body
variable {i : Instr} {a : Word} {n : Nat} {u v : State}

/-- At the end of an active loop a body that completes can only go straight on. -/
theorem IsBody.tail (hi : IsBody i) (hend : u.atLoopEnd = true) (hholds : holds i u = false)
    (h : exec i u = .next v) : CommonTail (u.pc + 1) (prefixLeft i) (latchLeft i u) u v := by
  cases exec_course hi.notData h with
  | straight _ tail => exact tail
  | jumped _ away => simp [hend] at away
  | looped loop => simp [hi.notLoop] at loop
  | held waits => simp [hholds] at waits
  | slept _ idle => exact absurd idle ((State.atLoopEnd_iff u).mp hend).1

/-- A run that is not the last one goes back with the count one less. -/
theorem AtBody.again (hu : AtBody a (n + 2) u) (hi : IsBody i) (hholds : holds i u = false)
    (h : exec i u = .next v) : AtBody a (n + 1) v := by
  have hend := hu.atLoopEnd (by omega)
  have tail := hi.tail hend hholds h
  obtain ⟨hlc, hpc⟩ := tail.next_of_loopEnd hend
  obtain ⟨_, _, hls, hle, _⟩ := tail
  obtain ⟨_, hcount, hlsu, hleu⟩ := hu
  have hne : u.lc ≠ 1#8 := by
    intro hone
    rw [hone] at hcount
    change 1 = n + 2 at hcount
    omega
  refine ⟨?pc, ?count, hls.trans hlsu, hle.trans hleu⟩
  case pc => rw [hpc, if_neg hne, hlsu]
  case count =>
    rw [hlc]
    bv_omega

/-- The last run ends the loop. -/
theorem AtBody.last (hu : AtBody a 1 u) (hi : IsBody i) (hholds : holds i u = false) (h : exec i u = .next v) :
    v.pc = a + 1 ∧ v.lc = 0#8 := by
  have hend := hu.atLoopEnd (by omega)
  obtain ⟨hlc, hpc⟩ := (hi.tail hend hholds h).next_of_loopEnd hend
  obtain ⟨hpcu, hcount, _, _⟩ := hu
  have hone : u.lc = 1#8 := BitVec.eq_of_toNat_eq hcount
  refine ⟨by rw [hpc, if_pos hone, hpcu], ?_⟩
  rw [hlc, hone]
  rfl

end Body

/-! ### A list of runs -/

/-- A list that goes on to its end does so instruction by instruction. -/
theorem execList_cons_next {i : Instr} {is : List Instr} {s t : State} :
    execList (i :: is) s = .next t ↔ ∃ u, exec i s = .next u ∧ execList is u = .next t := by
  rw [execList]
  cases exec i s <;> simp

/-- No instruction changes what the environment does in its step. -/
theorem Effect.now_eq {s t : State} (h : Effect s t) : t.now = s.now := by
  cases h with
  | wrote r f io n p l _ ht => simp [ht]
  | stored a v r _ ht => simp [ht]
  | stacked st n _ ht => simp [ht]
  | looped lc ls le ht => simp [ht]
  | held ht => rw [ht]
  | slept _ _ _ ht => simp [ht]

/-- So a wait that does not hold once does not hold later in the list. -/
theorem holds_eq_of_exec {i j : Instr} {s t : State} (h : exec j s = .next t) : holds i t = holds i s := by
  have hnow := (exec_effect h).now_eq
  cases i with
  | wev0 ev | wev1 ev => simp only [holds, State.event, hnow]
  | _ => rfl

section Runs
variable {i : Instr} {a : Word}

/-- After some of the runs, the body is reached again with the others to go. -/
theorem AtBody.after (hi : IsBody i) {k n : Nat} (hk : k < n) {u v : State} (hu : AtBody a n u)
    (hholds : holds i u = false) (h : execList (List.replicate k i) u = .next v) : AtBody a (n - k) v := by
  induction k generalizing n u with
  | zero =>
    obtain rfl : u = v := by simpa [execList] using h
    exact hu
  | succ k ih =>
    obtain ⟨w, hw, hrest⟩ := execList_cons_next.mp h
    obtain ⟨m, rfl⟩ : ∃ m, n = m + 2 := ⟨n - 2, by omega⟩
    have hnext := ih (by omega) (hu.again hi hholds hw) ((holds_eq_of_exec hw).trans hholds) hrest
    rwa [show m + 2 - (k + 1) = m + 1 - k by omega]

/-- After all of them the loop is over. -/
theorem AtBody.afterAll (hi : IsBody i) {n : Nat} {u v : State} (hu : AtBody a (n + 1) u) (hholds : holds i u = false)
    (h : execList (List.replicate (n + 1) i) u = .next v) : v.pc = a + 1 ∧ v.lc = 0#8 := by
  induction n generalizing u with
  | zero =>
    obtain ⟨w, hw, hrest⟩ := execList_cons_next.mp h
    obtain rfl : w = v := by simpa [execList] using hrest
    exact hu.last hi hholds hw
  | succ n ih =>
    obtain ⟨w, hw, hrest⟩ := execList_cons_next.mp h
    exact ih (hu.again hi hholds hw) ((holds_eq_of_exec hw).trans hholds) hrest

end Runs

/-- Any number of `nop`s completes with registers, flags and AUX RAM as they were. -/
theorem execList_nops {s : State} (hp : s.pfx = none) (k : Nat) :
    ∃ t, execList (List.replicate k .nop) s = .next t ∧ t.regs = s.regs ∧ t.flags = s.flags ∧ t.ram = s.ram := by
  induction k generalizing s with
  | zero => exact ⟨s, rfl, rfl, rfl, rfl⟩
  | succ k ih =>
    obtain ⟨t, ht, hregs, hflags, hram⟩ := ih (s := s.retire s.nextPc) (State.retire_pfx ..)
    refine ⟨t, execList_cons_next.mpr ⟨_, exec_nop_of_no_prefix hp, ht⟩, ?_, ?_, ?_⟩
    · rw [hregs, State.retire_regs]
    · rw [hflags, State.retire_flags]
    · rw [hram, State.retire_ram]

/-! ### A loop over the next word -/

/-- A `loop` that goes on has started with a count that is not zero, the two forms in one. -/
theorem exec_loop_next {l : Instr} {n : Nat} {s t : State}
    (hl : l = .loopR1 1#8 ∧ n = (s.reg .r1).toNat % 256 ∨
      ∃ nnn, nnn ≠ 0#3 ∧ l = .loopImm nnn 1#8 ∧ n = 2 ^ nnn.toNat) (h : exec l s = .next t) :
    ∃ c : BitVec 8, c.toNat = n ∧ n ≠ 0 ∧ t = s.inLoop c 1#8 := by
  rcases hl with ⟨rfl, rfl⟩ | ⟨nnn, _, rfl, rfl⟩
  · obtain ⟨_, _, hbody⟩ := State.checked_next.mp h
    split at hbody
    · cases hbody
    · rename_i hcount
      obtain ⟨_, ht⟩ := State.startLoop_next.mp hbody
      exact ⟨s.r1Count, s.r1Count_toNat, mt s.r1Count_eq_zero.mpr hcount, ht.symm⟩
  · obtain ⟨_, _, hbody⟩ := State.checked_next.mp h
    obtain ⟨_, ht⟩ := State.startLoop_next.mp hbody
    exact ⟨loopCount nnn, loopCount_toNat nnn, (Nat.two_pow_pos _).ne', ht.symm⟩

/-- A loop that ends at the next word is at its body. -/
theorem State.inLoop_atBody (s : State) {c : BitVec 8} {n : Nat} (hc : c.toNat = n) :
    AtBody (s.pc + 1) n (s.inLoop c 1#8) := by
  obtain ⟨hpc, hlc⟩ := State.inLoop_pc (rel := 1#8) (by decide) s c
  obtain ⟨hls, hle, _⟩ := s.inLoop_frame c 1#8
  exact ⟨hpc, by rw [hlc, hc], hls, hle⟩

/-- Settles O53: the start of the loop is at its body with all runs to go, and `nop` is a body that completes. -/
theorem loopRunsItsBodyExactlyNTimes : Obligations.LoopRunsItsBodyExactlyNTimes := by
  intro l n s t hl h
  obtain ⟨c, hc, hn, rfl⟩ := exec_loop_next hl h
  obtain ⟨m, rfl⟩ := Nat.exists_eq_succ_of_ne_zero hn
  have start := s.inLoop_atBody hc
  have word : s.pc + 1 + 1 = s.pc + 2 := add_assoc s.pc 1 1
  obtain ⟨_, _, hpfx, _, hregs, hflags, _, hram, _, _⟩ := s.inLoop_frame c 1#8
  refine ⟨fun i hR1 hImm hdw hholds => ⟨fun k hk u hu => ?early, fun u hu => ?all⟩, ?nops⟩
  case early => exact start.after ⟨isLoop_eq_false hR1 hImm, hdw⟩ hk hholds hu
  case all =>
    rw [← word]
    exact start.afterAll ⟨isLoop_eq_false hR1 hImm, hdw⟩ hholds hu
  case nops =>
    obtain ⟨u, hu, hregsu, hflagsu, hramu⟩ := execList_nops hpfx (m + 1)
    obtain ⟨hpc, hlc⟩ := start.afterAll isBody_nop rfl hu
    exact ⟨u, hu, word ▸ hpc, hlc, hregsu.trans hregs, hflagsu.trans hflags, hramu.trans hram⟩

end Sys2Proof.Machine
end

section
/-! Power management (48_power_management.md): a wait is the common tail alone or nothing at all, by the level of its
event; `sleep` enters Standby from an empty stack with no loop active, and stops otherwise. -/

namespace Sys2Proof.Machine

/-! ### The waits (R230, R231) -/

section Waits
variable {s : State}

/-- A wait that sees its level completes. -/
theorem wait_completes (hp : s.pfx = none) {reached : Bool} (h : reached = true) :
    ∃ t, s.checked plainClass (s.waitFor reached) = .next t ∧ t.flags = s.flags ∧ WroteNoReg s t := by
  rw [State.checked_pass (.inl hp) (.inr rfl), h]
  exact ⟨_, rfl, retire_frame s s.nextPc none none⟩

/-- Else it holds, in the state as it is. -/
theorem wait_holds (hp : s.pfx = none) {reached : Bool} (h : reached = false) :
    s.checked plainClass (s.waitFor reached) = .next s := by
  rw [State.checked_pass (.inl hp) (.inr rfl), h]
  rfl

end Waits

/-- Settles O54: `wev1` waits for the level of its event and `wev0` for its complement. -/
theorem waitsCompleteAtTheirLevelAndElseHold : Obligations.WaitsCompleteAtTheirLevelAndElseHold := by
  intro ev s hp
  refine ⟨fun hlow => ⟨?wev0, ?wev1Holds⟩, fun hhigh => ⟨?wev1, ?wev0Holds⟩⟩
  case wev0 => exact wait_completes (reached := !s.event ev) hp (by rw [State.event, hlow]; rfl)
  case wev1Holds => exact wait_holds hp hlow
  case wev1 => exact wait_completes hp hhigh
  case wev0Holds => exact wait_holds (reached := !s.event ev) hp (by rw [State.event, hhigh]; rfl)

/-! ### `sleep` (R232) -/

section Sleep
variable {s : State}

theorem exec_sleep (hp : s.pfx = none) : exec .sleep s =
    if s.stack ≠ [] then .fault .sleepStackNotEmpty
    else if s.lc ≠ 0#8 then .fault .sleepLoopActive
    else .next s.enterStandby :=
  State.checked_pass (k := plainClass) (.inl hp) (.inr rfl)

theorem exec_sleep_of_stack (hp : s.pfx = none) (hs : s.stack ≠ []) : exec .sleep s = .fault .sleepStackNotEmpty := by
  rw [exec_sleep hp, if_pos hs]

theorem exec_sleep_of_loop (hp : s.pfx = none) (hs : s.stack = []) (hl : s.lc ≠ 0#8) :
    exec .sleep s = .fault .sleepLoopActive := by
  rw [exec_sleep hp, if_neg (not_not.mpr hs), if_pos hl]

theorem exec_sleep_of_idle (hp : s.pfx = none) (hs : s.stack = []) (hl : s.lc = 0#8) :
    exec .sleep s = .next s.enterStandby := by
  rw [exec_sleep hp, if_neg (not_not.mpr hs), if_neg (not_not.mpr hl)]

end Sleep

/-- Settles O55: `sleep` is `enterStandby`, which writes registers, flags, `pc` and the two latches only. -/
theorem sleepEntersStandby : Obligations.SleepEntersStandby := by
  intro s hp hs hl
  exact ⟨_, exec_sleep_of_idle hp hs hl, rfl, hs, hl, rfl, rfl, rfl, rfl, ramKept_of_eq rfl rfl, rfl, rfl, rfl, rfl,
    rfl, rfl⟩

/-- Settles O56: the stack is looked at before the loop. -/
theorem sleepMisusesFault : Obligations.SleepMisusesFault :=
  fun _ hp => ⟨exec_sleep_of_stack hp, exec_sleep_of_loop hp⟩

end Sys2Proof.Machine
end

section
/-! Operands of the sixteen instructions that `pfix` extends (30_encoding.md): their values as numbers (R90), and the
assembler's `ld Rd, #v`, which undoes R90 when the field alone does not hold `v` (R107). -/

namespace Sys2Proof.Machine

/-! ### A field and a byte joined (R90) -/

/-- Two fields that do not overlap, the lower at bit 0, as a number. -/
theorem toNat_place_or_place {m n lo : Nat} (p : BitVec m) (f : BitVec n) (hm : m + lo ≤ 16) (hn : n ≤ lo) :
    (place p lo ||| place f 0).toNat = p.toNat * 2 ^ lo + f.toNat := by
  have hf : f.toNat < 2 ^ lo := f.isLt.trans_le (Nat.pow_le_pow_right (by decide) hn)
  have hf16 : f.toNat < 2 ^ 16 := f.isLt.trans_le (Nat.pow_le_pow_right (by decide) (by omega))
  have hp16 : p.toNat < 2 ^ 16 := p.isLt.trans_le (Nat.pow_le_pow_right (by decide) (by omega))
  have hp : p.toNat <<< lo < 2 ^ 16 := by
    rw [Nat.shiftLeft_eq]
    calc p.toNat * 2 ^ lo < 2 ^ m * 2 ^ lo := Nat.mul_lt_mul_of_pos_right p.isLt (Nat.two_pow_pos lo)
      _ = 2 ^ (m + lo) := (Nat.pow_add ..).symm
      _ ≤ 2 ^ 16 := Nat.pow_le_pow_right (by decide) hm
  simp only [place, BitVec.toNat_or, BitVec.toNat_shiftLeft, BitVec.toNat_setWidth, Nat.shiftLeft_zero,
    Nat.mod_eq_of_lt hp16, Nat.mod_eq_of_lt hp, Nat.mod_eq_of_lt hf16]
  rw [← Nat.shiftLeft_add_eq_or_of_lt hf, Nat.shiftLeft_eq]

theorem join8_toNat (p : Byte) (f : BitVec 8) : (join8 p f).toNat = p.toNat * 256 + f.toNat :=
  toNat_place_or_place p f (by decide) (by decide)

/-- `HI8_LO8`: the field gives its low eight bits. -/
theorem join10_hi8lo8_toNat (p : Byte) (g : BitVec 10) :
    (join10 .hi8lo8 p g).toNat = p.toNat * 256 + g.toNat % 256 := by
  rw [join10, toNat_place_or_place _ _ (by decide) (by decide), BitVec.extractLsb'_toNat, Nat.shiftRight_zero]
  rfl

/-- `HI6_LO10`: the byte gives its low six bits. -/
theorem join10_hi6lo10_toNat (p : Byte) (g : BitVec 10) :
    (join10 .hi6lo10 p g).toNat = p.toNat % 64 * 1024 + g.toNat := by
  rw [join10, toNat_place_or_place _ _ (by decide) (by decide), BitVec.extractLsb'_toNat, Nat.shiftRight_zero]
  rfl

/-! ### The operand with and without a `pfix` -/

theorem zext_toNat {n : Nat} (hn : n ≤ 16) (f : BitVec n) : (zext f).toNat = f.toNat :=
  BitVec.toNat_setWidth_of_le hn

theorem sext_toInt {n : Nat} (hn : n ≤ 16) (f : BitVec n) : (sext f).toInt = f.toInt :=
  BitVec.toInt_signExtend_of_le hn

section Operands
variable {s : State}

theorem State.imm_of_none (h : s.pfx = none) (f : BitVec 8) (g : BitVec 10) :
    s.imm8u f = zext f ∧ s.imm8s f = sext f ∧ s.imm10u g = zext g ∧ s.imm10s g = sext g := by
  simp [State.imm8u, State.imm8s, State.imm10u, State.imm10s, h]

theorem State.imm_of_some {p : Byte} (h : s.pfx = some p) (f : BitVec 8) (g : BitVec 10) :
    s.imm8u f = join8 p f ∧ s.imm8s f = join8 p f ∧ s.imm10u g = join10 s.cfg.pfix10 p g ∧
      s.imm10s g = join10 s.cfg.pfix10 p g := by
  simp [State.imm8u, State.imm8s, State.imm10u, State.imm10s, h]

end Operands

/-- Settles O58: the extensions and the joins of R90 as numbers. -/
theorem prefixJoinsTheImmediateField : Obligations.PrefixJoinsTheImmediateField := by
  intro s f g
  refine ⟨fun h => ?alone, fun p h => ?joined⟩
  case alone =>
    obtain ⟨h8u, h8s, h10u, h10s⟩ := s.imm_of_none h f g
    rw [h8u, h8s, h10u, h10s]
    exact ⟨zext_toNat (by decide) f, sext_toInt (by decide) f, zext_toNat (by decide) g, sext_toInt (by decide) g⟩
  case joined =>
    obtain ⟨h8u, h8s, h10u, h10s⟩ := s.imm_of_some h f g
    rw [h8u, h8s, h10u, h10s]
    refine ⟨join8_toNat p f, rfl, rfl, fun hmode => ?_, fun hmode => ?_⟩ <;> rw [hmode]
    · exact join10_hi8lo8_toNat p g
    · exact join10_hi6lo10_toNat p g

/-! ### The assembler's load of a value (R106, R107) -/

/-- What the assembler splits joins again (R90, R107). -/
theorem join10_splitOperand (mode : Pfix10Mode) (w : Word) :
    join10 mode (splitOperand mode .signed10 w).1 (splitOperand mode .signed10 w).2 = w := by
  apply BitVec.eq_of_getLsbD_eq
  intro i hi
  cases mode <;> interval_cases i <;> simp [join10, splitOperand, OperandKind.narrow, place, highByte, lowByte]

section AssembledLoad
variable {mode : Pfix10Mode} {d : Reg} {v : Int}

/-- A value that ten signed bits hold is placed in the field. -/
theorem assemble_ldImm_short (h : -512 ≤ v ∧ v ≤ 511) :
    assemblePrefixable mode (.ldImm d) v = .ok [.ldImm d (BitVec.ofInt 10 v)] :=
  if_pos (decide_eq_true h)

/-- Any other value of sixteen signed bits is split between a `pfix` and the field. -/
theorem assemble_ldImm_long (hfits : ¬ (-512 ≤ v ∧ v ≤ 511)) (hrange : -32768 ≤ v ∧ v ≤ 32767) :
    assemblePrefixable mode (.ldImm d) v = .ok [.pfix (splitOperand mode .signed10 (BitVec.ofInt 16 v)).1,
      .ldImm d (splitOperand mode .signed10 (BitVec.ofInt 16 v)).2] :=
  (if_neg (by simpa [PrefixableOp.kind, OperandKind.fits] using hfits)).trans (if_pos (decide_eq_true hrange))

/-- There is no word for the rest. -/
theorem assemble_ldImm_outOfRange (h : v < -32768 ∨ 32767 < v) :
    assemblePrefixable mode (.ldImm d) v = .error .outOfRange := by
  have hfits : (PrefixableOp.ldImm d).kind.fits v = false := decide_eq_false (by omega)
  have hrange : (PrefixableOp.ldImm d).kind.inRange v = false := decide_eq_false (by omega)
  simp [assemblePrefixable, hfits, hrange]

end AssembledLoad

theorem execList_singleton (i : Instr) (s : State) : execList [i] s = exec i s := by
  rw [execList]
  cases exec i s <;> rfl

/-- A load of an immediate leaves its operand in the register. -/
theorem exec_ldImm_reg (d : Reg) (simm : BitVec 10) (s : State) :
    ∃ t, exec (.ldImm d simm) s = .next t ∧ t.reg d = s.imm10s simm := by
  obtain ⟨⟨t, ht, _, hreg, _⟩, _⟩ := registerLoadsComplete d d simm s
  exact ⟨t, ht, hreg⟩

/-- After a `pfix` the operand is joined with it. -/
theorem execList_pfix_ldImm {s : State} (hp : s.pfx = none) (hl : NotLoopEnd s) (p : Byte) (d : Reg)
    (g : BitVec 10) :
    ∃ t, execList [.pfix p, .ldImm d g] s = .next t ∧ t.reg d = join10 s.cfg.pfix10 p g := by
  obtain ⟨t, ht, hreg⟩ := exec_ldImm_reg d g (s.retire s.nextPc (some p))
  obtain ⟨_, _, _, himm⟩ := State.imm_of_some (State.retire_pfx s s.nextPc (some p) none) 0 g
  refine ⟨t, execList_cons_next.mpr ⟨_, exec_pfix_of_no_prefix hp hl p, (execList_singleton _ _).trans ht⟩, ?_⟩
  rw [hreg, himm, State.retire_cfg]

/-- Settles O59: alone the field is extended to `v`, and behind a `pfix` it is joined to `v`. -/
theorem assembledLoadLoadsItsValue : Obligations.AssembledLoadLoadsItsValue := by
  intro d v s hp hl
  refine ⟨fun hlow hhigh => ?_, assemble_ldImm_outOfRange⟩
  by_cases hfits : -512 ≤ v ∧ v ≤ 511
  case pos =>
    obtain ⟨t, ht, hreg⟩ := exec_ldImm_reg d (BitVec.ofInt 10 v) s
    obtain ⟨_, _, _, himm⟩ := s.imm_of_none hp 0 (BitVec.ofInt 10 v)
    have hvalue : (BitVec.ofInt 10 v).toInt = v := BitVec.toInt_ofInt_eq_self (by decide) (by omega) (by omega)
    refine ⟨_, t, assemble_ldImm_short hfits, iff_of_true rfl hfits, (execList_singleton _ _).trans ht, ?_⟩
    rw [hreg, himm, sext_toInt (by decide), hvalue]
  case neg =>
    obtain ⟨t, ht, hreg⟩ := execList_pfix_ldImm hp hl (splitOperand s.cfg.pfix10 .signed10 (BitVec.ofInt 16 v)).1 d
      (splitOperand s.cfg.pfix10 .signed10 (BitVec.ofInt 16 v)).2
    refine ⟨_, t, assemble_ldImm_long hfits ⟨hlow, hhigh⟩, iff_of_false (by simp) hfits, ht, ?_⟩
    rw [hreg, join10_splitOperand]
    exact BitVec.toInt_ofInt_eq_self (by decide) (by omega) (by omega)

end Sys2Proof.Machine
end

section
/-! The step's own stops (60_exceptions.md), the wake-up (R233), the fault record (R34), words written out from the
patterns of 30_encoding.md, and the data word (R242). -/

namespace Sys2Proof.Machine

/-! ### What stops a step before an instruction (R52, R252) -/

section Stops
variable {s : State}

theorem runFetched_of_fetch_error {f : Fault} (h : s.fetch = .error f) : runFetched s = .fault f := by
  rw [runFetched, h]

theorem runFetched_of_reserved {w : Word} (h : s.fetch = .ok w) (hw : decode w = .error .reservedEncoding) :
    runFetched s = .fault .reservedEncoding := by
  simp only [runFetched, h, hw]

theorem State.fetch_memRange (h : s.ramWords ≤ s.pc.toNat) : s.fetch = .error .memRange := if_pos h

theorem State.fetch_stored (hpc : s.pc.toNat < s.ramWords) (h : s.stored.has s.pc.toNat = true) :
    s.fetch = .error .fetchOfStoredWord :=
  (if_neg (Nat.not_le.mpr hpc)).trans (if_pos h)

theorem State.fetch_unwritten (hpc : s.pc.toNat < s.ramWords) (hmark : s.stored.has s.pc.toNat = false)
    (h : s.ram.readWord s.pc.toNat = none) : s.fetch = .error .unwrittenRead := by
  simp [State.fetch, Nat.not_le.mpr hpc, hmark, h]

end Stops

/-- Settles O6: the environment's part changes neither `pc` nor, while Active, the marks, so the fetch stops as it would
before it. -/
theorem fetchAndDecodeFaultsInOrder : Obligations.FetchAndDecodeFaultsInOrder := by
  intro s hf hrun
  have hstored := State.sample_stored_of_active hrun
  rw [step_of_active hf hrun, ← s.sample_ramWords, ← s.sample_pc, ← hstored]
  exact ⟨fun h => runFetched_of_fetch_error (State.fetch_memRange h),
    fun hpc h => runFetched_of_fetch_error (State.fetch_stored hpc h),
    fun hpc hmark h => runFetched_of_fetch_error (State.fetch_unwritten hpc hmark h),
    fun w hpc hmark h hw => runFetched_of_reserved (State.fetch_ok.mpr ⟨hpc, hmark, h⟩) hw⟩

/-! ### Standby (R233) -/

theorem step_of_standby {s : State} (hf : s.fault = none) (hr : s.run = .standby) :
    step s = .next s.sample.standbyStep := by
  simp [step, hf, hr]

/-- Below the number of vectors a vector is itself, and its address fits in a word. -/
theorem State.wakeAt_pc_toNat {s : State} {v : BitVec 3} (h : v.toNat < s.cfg.family.numVectors) :
    (s.wakeAt v).pc.toNat = 2 * v.toNat := by
  have hv := v.isLt
  rw [State.wakeAt_pc, Nat.mod_eq_of_lt h, BitVec.toNat_ofNat, Nat.mod_eq_of_lt (by omega)]

/-- Settles O7: the step is the wake-up or the wait of `standbyStep`. -/
theorem standbyStepTakesTheWakeUp : Obligations.StandbyStepTakesTheWakeUp := by
  intro s hf hrun
  rw [step_of_standby hf hrun]
  refine ⟨fun v hwake hv => ?wakes, fun hwake => ?waits⟩
  case wakes =>
    have hstep : s.sample.standbyStep = s.sample.wakeAt v := by rw [State.standbyStep, hwake]
    exact ⟨_, by rw [hstep], rfl, State.wakeAt_pc_toNat (by rwa [State.sample_cfg]), rfl⟩
  case waits => rw [State.standbyStep, hwake]

/-! ### The fault record (R34, R40 item 5) -/

theorem recordStep_of_fault {s : State} {k : Fault} (h : step s = .fault k) :
    recordStep s = { s with fault := some k } := by
  rw [recordStep, h]

theorem step_of_recorded {s : State} {k : Fault} (h : s.fault = some k) : step s = .fault k := by
  rw [step, h]

/-- Settles O8: a step in a state with a record answers the record, which is then written again. -/
theorem recordedFaultIsFinal : Obligations.RecordedFaultIsFinal := by
  intro s k h
  rw [recordStep_of_fault h]
  have hfinal : step { s with fault := some k } = .fault k := step_of_recorded rfl
  exact ⟨rfl, hfinal, recordStep_of_fault hfinal⟩

/-! ### Words written out (R82 to R89) -/

/-- Settles O1: each word is the one that the encoder gives its instruction, so it decodes to it. -/
theorem patternWordsDecodeToTheirInstructions : Obligations.PatternWordsDecodeToTheirInstructions := by
  have word {w : Word} {i : Instr} (hw : encode i = w) (hi : i.wellFormed = true) : decode w = .ok i :=
    hw ▸ decodeOfEncodeIsTheInstruction i hi
  exact ⟨word rfl rfl, word rfl rfl, word rfl rfl, word rfl rfl, word rfl rfl, word rfl rfl, word rfl rfl, word rfl rfl,
    word rfl rfl, word rfl rfl, word rfl rfl, word rfl rfl, word rfl rfl, word rfl rfl, word rfl rfl, word rfl rfl⟩

/-! ### The data word (R242) -/

/-- The decoder answers no data word, for that has no word of its own. -/
theorem ne_dw_of_decode {w : Word} {i : Instr} (h : decode w = .ok i) : ∀ x, i ≠ .dw x := by
  rintro x rfl
  obtain ⟨hwf, _⟩ := encodeOfDecodeIsTheWord w _ h
  cases hwf

theorem exec_dw_of_decode {w : Word} {i : Instr} (h : decode w = .ok i) (s : State) : exec (.dw w) s = exec i s := by
  rw [exec_eq_execDecoded i s (ne_dw_of_decode h)]
  show execDw w s = execDecoded i s
  rw [execDw, h]

theorem exec_dw_of_error {w : Word} {e : DecodeError} (h : decode w = .error e) (s : State) :
    exec (.dw w) s = .fault .reservedEncoding := by
  show execDw w s = .fault .reservedEncoding
  rw [execDw, h]

/-- Settles O60: a data word runs as what it spells, and a load of an immediate always completes. -/
theorem dataWordRunsAsTheInstructionItSpells : Obligations.DataWordRunsAsTheInstructionItSpells := by
  intro w s
  refine ⟨fun i h => exec_dw_of_decode h s, fun h => exec_dw_of_error h s, fun d simm h => ?_⟩
  rw [exec_dw_of_decode h]
  obtain ⟨hload, _⟩ := registerLoadsComplete d d simm s
  exact hload

end Sys2Proof.Machine
end
